-- ==== Sys2Proof/Word.lean ====
section
/-! DEFINITION. The word types of the register transfer engine: fixed widths of `00_scope.md` R7 and R8. -/

namespace Sys2Proof

/-- One byte, the unit of BUF and of the Transport Port (R34, R59). -/
abbrev Byte := BitVec 8

/-- The 64-bit command word `CW` (R80, R81). -/
abbrev CommandWord := BitVec 64

/-- A 32-bit word: DFLAGS, the DESC register's layout, `RES.VALUE` (R23, R33, R90). -/
abbrev Word32 := BitVec 32

/-- The 16-bit register-address operand (R88). -/
abbrev RegAddr := BitVec 16

/-- The 7-bit bus address (R25). -/
abbrev BusAddr := BitVec 7

end Sys2Proof
end

