-- ==== Sys2Proof/Config.lean ====
section
/-! DEFINITION. The implementation parameters of `00_scope.md` R7 and the values the spec leaves free. -/

namespace Sys2Proof

/-- The parameters `MAX_CHUNK`, `ERRCNT_W` and `BUF_BYTES` of R7. The fields are chosen so that EVERY value of this
record is a legal configuration and every legal configuration is a value: `MAX_CHUNK >= 8` (R125, U13),
`1 <= ERRCNT_W <= 32` (D13), `BUF_BYTES` a multiple of 8 from 8 to 524280 (D14). DEDUCED, assumption 1, safe. -/
structure Params where
  /-- `MAX_CHUNK - 8` -/
  chunkOver8 : Nat
  /-- `ERRCNT_W - 1` -/
  errWidthLess1 : Fin 32
  /-- `BUF_BYTES / 8 - 1` -/
  bufCellsLess1 : Fin 65535
deriving DecidableEq, Repr, Inhabited

/-- `MAX_CHUNK`, written `C` in the spec: payload bytes one transaction can carry (R7, R126). -/
def Params.maxChunk (p : Params) : Nat := 8 + p.chunkOver8

/-- `ERRCNT_W`, the error counter's width in bits (R7, R32). -/
def Params.errcntW (p : Params) : Nat := p.errWidthLess1.val + 1

/-- `BUF_BYTES`, the payload buffer's size (R7, R34). -/
def Params.bufBytes (p : Params) : Nat := 8 * (p.bufCellsLess1.val + 1)

/-- The parameters of the platform the block is built into. R7 calls them OPEN, so nothing is known of this constant:
a claim about the reset state is a claim for every platform. Assumption 1, safe. -/
opaque Config.platform : Params

/-- The byte a WRITE sends for a BUF byte that nothing has written since reset: "any value per byte", "never zero" as a
chosen value (`93_implementation_defined.md` U3). Its arguments are the draw counter of State and the BUF address.
Assumption 3, safe. -/
opaque Config.unwrittenByte : Nat → Nat → Byte

end Sys2Proof
end

