-- ==== Sys2Proof/Syntax.lean ====
section
/-! DEFINITION. The seven commands of the block, one constructor per row of `spec/opcode_table.json` (R80, R85). -/

namespace Sys2Proof

/-- A command with its operand fields, as the word carries them (`30_encoding.md` R81 to R84). -/
inductive Instr where
  /-- CONFIGURE, format C: DFLAGS (R83, R160). -/
  | configure (dflags : Word32)
  /-- RELEASE, format N (R84, R161). -/
  | release
  /-- WRITE, format X: NS, ESIZE, REGADDR, COUNT (R82, R170). -/
  | write (ns : Bool) (esize : BitVec 4) (regaddr : RegAddr) (count : BitVec 16)
  /-- READ, format X with NS = 0: ESIZE, REGADDR, COUNT (R82, R190). -/
  | read (esize : BitVec 4) (regaddr : RegAddr) (count : BitVec 16)
  /-- EXISTS, format N (R84, R210). -/
  | probe
  /-- ERRCOUNT, format N (R84, R211). -/
  | errcount
  /-- CLRERR, format N (R84, R212). -/
  | clrerr
deriving DecidableEq, Repr

end Sys2Proof
end

