-- ==== Sys2Proof/WellFormed.lean ====
section
/-! DEFINITION. The operand checks of `30_encoding.md` R91 (c), (d) and (e), as predicates on a command alone. A command
that fails one is still a command: the block answers it with `fail(BAD_COMMAND)` (R245). -/

namespace Sys2Proof

/-- R91 (e), R90: DFLAGS is legal when bit 7 and bits 30:15 are 0, REGW is not 3 and WIDE is not 3. -/
def legalDflags (f : Word32) : Bool :=
  f.extractLsb' 7 1 == 0 && f.extractLsb' 15 16 == 0 && f.extractLsb' 8 2 != 3 && f.extractLsb' 13 2 != 3

/-- R91 (c), R86: ESIZE is one of 0, 1, 2, 3, 4, 8. -/
def legalEsize (e : BitVec 4) : Bool :=
  e.toNat ≤ 4 || e == 8

/-- R91 (d), R87: `M * COUNT <= BUF_BYTES`, `M` being 4 for ESIZE 3 (R120). -/
def fitsBuf (p : Params) (e : BitVec 4) (count : BitVec 16) : Bool :=
  (if e == 3 then 4 else e.toNat) * count.toNat ≤ p.bufBytes

/-- No operand of the command is illegal on a machine with parameters `p`. -/
def Instr.wellFormed (p : Params) : Instr → Bool
  | .configure f => legalDflags f
  | .release => true
  | .write _ e _ c => legalEsize e && fitsBuf p e c
  | .read e _ c => legalEsize e && fitsBuf p e c
  | .probe => true
  | .errcount => true
  | .clrerr => true

end Sys2Proof
end

