-- ==== Sys2Proof/Decode.lean ====
section
/-! DEFINITION. The decoder of command words, total and context-free (R85, R91 a and b, R94), and the encoder (R82 to R85). -/

namespace Sys2Proof

/-- The must-be-zero fields of `30_encoding.md` R81 to R84. -/
inductive ReservedField where
  /-- `CW[59]` of READ (R82, D27). -/
  | ns
  /-- `CW[58:56]` of format X. -/
  | z1
  /-- `CW[51:48]` of format X. -/
  | z2
  /-- `ARG[31:16]` of format X (R87). -/
  | argHigh
  /-- `CW[59:32]` of format C (R83). -/
  | formatC
  /-- `CW[59:0]` of format N (R84). -/
  | formatN
deriving DecidableEq, Repr

/-- Why a word is illegal from the word alone (R91 a and b). -/
inductive IllegalWord where
  /-- OP is 0 or 8 to 15 (R91 a, R92). -/
  | reservedOpcode (op : BitVec 4)
  /-- A must-be-zero field of the format is not zero (R91 b). -/
  | reservedField (op : BitVec 4) (field : ReservedField)
deriving DecidableEq, Repr

/-- What a command word is: one of the seven commands or illegal (R92). -/
inductive Decoded where
  | legal (i : Instr)
  | illegal (why : IllegalWord)
deriving DecidableEq, Repr

/-- `CW[63:60]` (R81). -/
def opField (w : CommandWord) : BitVec 4 := w.extractLsb' 60 4

/-- `CW[59]` (R81, R89). -/
def nsField (w : CommandWord) : BitVec 1 := w.extractLsb' 59 1

/-- `CW[58:56]` (R81). -/
def z1Field (w : CommandWord) : BitVec 3 := w.extractLsb' 56 3

/-- `CW[55:52]` (R81, R86). -/
def esizeField (w : CommandWord) : BitVec 4 := w.extractLsb' 52 4

/-- `CW[51:48]` (R81). -/
def z2Field (w : CommandWord) : BitVec 4 := w.extractLsb' 48 4

/-- `CW[47:32]` (R81, R88). -/
def regaddrField (w : CommandWord) : RegAddr := w.extractLsb' 32 16

/-- `ARG[31:16]` (R81, R87). -/
def argHighField (w : CommandWord) : BitVec 16 := w.extractLsb' 16 16

/-- `COUNT`, `ARG[15:0]` (R81, R87). -/
def countField (w : CommandWord) : BitVec 16 := w.extractLsb' 0 16

/-- `ARG`, `CW[31:0]`: DFLAGS of CONFIGURE (R81, R90). -/
def argField (w : CommandWord) : Word32 := w.extractLsb' 0 32

/-- Format N: every bit below OP is zero (R84). -/
def decodeFormatN (w : CommandWord) (i : Instr) : Decoded :=
  if w.extractLsb' 0 60 = 0 then .legal i else .illegal (.reservedField (opField w) .formatN)

/-- Format C: `CW[59:32] = 0` (R83). -/
def decodeFormatC (w : CommandWord) : Decoded :=
  if w.extractLsb' 32 28 = 0 then .legal (.configure (argField w))
  else .illegal (.reservedField (opField w) .formatC)

/-- Format X: Z1, Z2 and `ARG[31:16]` are zero (R82). -/
def decodeFormatX (w : CommandWord) (i : Instr) : Decoded :=
  if z1Field w ≠ 0 then .illegal (.reservedField (opField w) .z1)
  else if z2Field w ≠ 0 then .illegal (.reservedField (opField w) .z2)
  else if argHighField w ≠ 0 then .illegal (.reservedField (opField w) .argHigh)
  else .legal i

/-- The command a word is (R85, R91 a and b, R94): defined on every one of the `2^64` words. -/
def decode (w : CommandWord) : Decoded :=
  if opField w = 1 then decodeFormatC w
  else if opField w = 2 then decodeFormatN w .release
  else if opField w = 3 then
    decodeFormatX w (.write (nsField w == 1) (esizeField w) (regaddrField w) (countField w))
  else if opField w = 4 then
    if nsField w ≠ 0 then .illegal (.reservedField (opField w) .ns)
    else decodeFormatX w (.read (esizeField w) (regaddrField w) (countField w))
  else if opField w = 5 then decodeFormatN w .probe
  else if opField w = 6 then decodeFormatN w .errcount
  else if opField w = 7 then decodeFormatN w .clrerr
  else .illegal (.reservedOpcode (opField w))

/-- The command of a decoded word, if it is one. -/
def Decoded.instr? : Decoded → Option Instr
  | .legal i => some i
  | .illegal _ => none

/-- The word of format X (R82). -/
def encodeX (op : BitVec 4) (ns : Bool) (e : BitVec 4) (ra : RegAddr) (count : BitVec 16) : CommandWord :=
  op ++ BitVec.ofBool ns ++ 0#3 ++ e ++ 0#4 ++ ra ++ 0#16 ++ count

/-- The word of format N (R84). -/
def encodeN (op : BitVec 4) : CommandWord := op ++ 0#60

/-- The command's word (R82 to R85). -/
def encode : Instr → CommandWord
  | .configure f => 1#4 ++ 0#28 ++ f
  | .release => encodeN 2
  | .write ns e ra c => encodeX 3 ns e ra c
  | .read e ra c => encodeX 4 false e ra c
  | .probe => encodeN 5
  | .errcount => encodeN 6
  | .clrerr => encodeN 7

/-- The 64-bit word a number of `nbits` bits is; bits from `nbits` up are 0. A command is one 64-bit word handed to the
block whole (R80), so there is no byte order to choose. -/
def tableWord (nbits w : Nat) : CommandWord := BitVec.ofNat 64 (w % 2 ^ nbits)

/-- The command the decoder reads from the word `w` of `nbits` bits. -/
def decodeTableWord (nbits w : Nat) : Option Instr := (decode (tableWord nbits w)).instr?

end Sys2Proof
end

