-- ==== Sys2Proof/Machine/State.lean ====
section
/-! DEFINITION. The block's state, its stops, and the state after reset (`10_state.md`). Plain data throughout. -/

namespace Sys2Proof.Machine

/-- Register-address width: none, one or two bytes (R26, R162). The reserved value 3 is never stored (D16). -/
inductive RegWidth where
  | none
  | one
  | two
deriving DecidableEq, Repr

/-- Byte order on the wire, most or least significant byte first (R27, R28, R162). -/
inductive ByteOrder where
  | msbFirst
  | lsbFirst
deriving DecidableEq, Repr

/-- Repeated-start policy between address phase and data phase of a READ (R29, R162). -/
inductive StopPolicy where
  | stop
  | noStop
deriving DecidableEq, Repr

/-- Wide-value interpretation (R30, R162). The reserved value 3 is never stored (D16). -/
inductive WideMode where
  | plain
  | signed24
  | unsigned24
deriving DecidableEq, Repr

/-- The Device Descriptor as the record `41_configure.md` R162 asks for. Its 32-bit spelling is `Descriptor.word`.
The uninitialized DESC (R24) is the `none` of `State.desc`. DEDUCED, assumption 12, safe. -/
@[ext]
structure Descriptor where
  /-- `BUSADDR`, bits 6:0 (R25). -/
  busaddr : BusAddr
  /-- `REGW`, bits 9:8 (R26). -/
  regw : RegWidth
  /-- `REGLSB`, bit 10 (R27). -/
  reglsb : ByteOrder
  /-- `DATALSB`, bit 11 (R28). -/
  datalsb : ByteOrder
  /-- `NOSTOP`, bit 12 (R29). -/
  nostop : StopPolicy
  /-- `WIDE`, bits 14:13 (R30). -/
  wide : WideMode
deriving DecidableEq, Repr

/-- `RES.CAUSE`: the five codes the block writes (R33, R240). -/
inductive Cause where
  /-- 0 -/
  | none
  /-- 1 (R241) -/
  | notInitialized
  /-- 2 (R242) -/
  | transactionError
  /-- 3 (R243) -/
  | shortTransfer
  /-- 4 (R245) -/
  | badCommand
deriving DecidableEq, Repr

/-- The result register RES (R33). -/
@[ext]
structure Result where
  /-- `RES.OK` -/
  ok : Bool
  /-- `RES.CAUSE` -/
  cause : Cause
  /-- `RES.VALUE` -/
  value : Word32
deriving DecidableEq, Repr

/-- The ten sequencer states (R135). -/
inductive SeqState where
  | idle
  | planTx
  | txOpen
  | txAddr0
  | txAddr1
  | txData
  | txClose
  | planRx
  | rxReq
  | rxDrain
deriving DecidableEq, Repr

/-- What the running transaction belongs to (R35): a WRITE, the address-set phase of a READ, the data phase of a READ. -/
inductive Kind where
  | w
  | ra
  | rd
deriving DecidableEq, Repr

/-- The sequencer latches (R35), with SENT of R21. Counts are natural numbers; that they stay inside the widths R35
gives is part of `State.Inv`. -/
@[ext]
structure Latches where
  /-- `ST` -/
  st : SeqState
  /-- `KIND` -/
  kind : Kind
  /-- `RA`, 16 bits: the register address operand -/
  ra : RegAddr
  /-- `M`, 4 bits: effective element size -/
  m : Nat
  /-- `W`, 4 bits: wire width per element -/
  w : Nat
  /-- `L`, 20 bits: total byte length in memory -/
  l : Nat
  /-- `SENT`, 20 bits: bytes (memory domain) completed so far this call (R21) -/
  sent : Nat
  /-- `CL`, 20 bits: current chunk length in memory bytes -/
  cl : Nat
  /-- `REQ`, 20 bits: current chunk length in wire bytes -/
  req : Nat
  /-- `IDX`, 20 bits: wire bytes of the current chunk already emitted or drained -/
  idx : Nat
  /-- `STOPF`: the stop value the next TxEnd carries -/
  stopf : Bool
  /-- `ACC`, 64 bits: element being assembled from wire bytes -/
  acc : BitVec 64
deriving DecidableEq, Repr

/-- The port events (R10, R95 to R99), each with the value the Transport Port returned. -/
inductive Event where
  /-- `TxBegin(a7)` (R95) -/
  | txBegin (a7 : BusAddr)
  /-- `TxWrite(b)` (R96) -/
  | txWrite (b : Byte)
  /-- `TxEnd(stop) -> code` (R97) -/
  | txEnd (stop : Bool) (code : Nat)
  /-- `RxRequest(a7, n) -> avail` (R98) -/
  | rxRequest (a7 : BusAddr) (n : Nat) (avail : Nat)
  /-- `RxRead -> b` (R99) -/
  | rxRead (b : Byte)
deriving DecidableEq, Repr

/-- A move of the host, the agent outside the block (R22, R52, R270). -/
inductive HostMove where
  /-- Hand over one command word (R80). -/
  | command (cw : CommandWord)
  /-- Store one byte into BUF while the block is idle (R52). -/
  | store (addr : Nat) (b : Byte)
  /-- Drive the reset input (R270). -/
  | reset
deriving DecidableEq, Repr

/-- The answers the Transport Port has yet to give, one list per answering call, oldest first; an empty list means the
next such call does not return (R97, R98, R99, R244). The MODEL's own field, assumption 4, safe. -/
@[ext]
structure Port where
  /-- what the coming `TxEnd` calls return -/
  codes : List Nat
  /-- what the coming `RxRequest` calls return -/
  avails : List Nat
  /-- what the coming `RxRead` calls return -/
  bytes : List Byte
deriving DecidableEq, Repr

/-- The machine's state: the block's own state (R22 to R38), its parameters (R7), and the model's own record of the
outside world (host moves and port answers to come, events emitted so far). -/
@[ext]
structure State where
  /-- Parameters, fixed for one machine (R7). -/
  cfg : Params
  /-- DESC: `none` is the uninitialized value 0 (R23, R24, R162). -/
  desc : Option Descriptor
  /-- ERRCNT, a number below `2^ERRCNT_W` (R32). Assumption 13. -/
  errcnt : Nat
  /-- RES (R33). -/
  res : Result
  /-- BUF (R34): the bytes written since reset, addresses strictly rising; an unlisted byte has no value. -/
  buf : List Host.Cell
  /-- The sequencer latches (R35). -/
  seq : Latches
  /-- The MODEL's own: an EXISTS awaits its TxEnd. Assumption 7. -/
  probe : Bool
  /-- The MODEL's own: the host's moves to come. Assumption 8. -/
  host : List HostMove
  /-- The MODEL's own: the port's answers to come. Assumption 4. -/
  port : Port
  /-- The MODEL's own: the events emitted so far, oldest first (R10). Assumption 14. -/
  trace : List Event
  /-- The MODEL's own: how many WRITEs have been accepted and resets taken, an argument of the free value of unwritten
  BUF bytes. Assumption 3. -/
  draws : Nat
deriving DecidableEq, Repr

/-- The stops in which the model's outside world asks for something that does not exist. -/
inductive Fault where
  /-- A host store names a BUF address at or above `BUF_BYTES`: there is no such byte (R34). Raised by `hostStore`.
  Safe: nothing is claimed of it. -/
  | noSuchBufAddress (addr : Nat)
deriving DecidableEq, Repr

/-- The inputs to which the spec gives no meaning. -/
inductive Refusal where
  /-- The instruction has no meaning in this model yet. Raised only by arms of `exec`. Safe. -/
  | notModelled (mnemonic : String)
  /-- A command handed over while another runs (U4, R280). Raised by every meaning through `whenIdle`. Safe. -/
  | commandWhileBusy
  /-- A reset at any moment but IDLE (U14, R271). Raised by `busyStep`. Safe. -/
  | resetWhileBusy
deriving DecidableEq, Repr

/-- The latches right after reset: ST is IDLE (R38). The others are unspecified there; zero and W are DESIGN CHOICE,
assumption 2, unsafe. -/
def Latches.reset : Latches :=
  { st := .idle, kind := .w, ra := 0, m := 0, w := 0, l := 0, sent := 0, cl := 0, req := 0, idx := 0, stopf := false,
    acc := 0 }

/-- RES right after reset (R38). -/
def Result.reset : Result := { ok := false, cause := .none, value := 0 }

/-- The machine right after reset, with parameters `p` and an outside world that does nothing yet (R38, R270). -/
def State.resetWith (p : Params) : State :=
  { cfg := p, desc := none, errcnt := 0, res := Result.reset, buf := [], seq := Latches.reset, probe := false,
    host := [], port := { codes := [], avails := [], bytes := [] }, trace := [], draws := 0 }

/-- The machine right after reset (R38, R270), on the platform's parameters. -/
def State.reset : State := State.resetWith Config.platform

end Sys2Proof.Machine
end

