-- ==== Sys2Proof/Machine/Operands.lean ====
section
/-! DEFINITION. Operand decoding: element sizes, lengths, DFLAGS and the spelling of DESC (R86 to R90, R120 to R122). -/

namespace Sys2Proof.Machine

/-- `EffSize(E)`, the effective element size `M` (R120); `none` where ESIZE is illegal (R91 c). -/
def effSize (e : BitVec 4) : Option Nat :=
  if e = 3 then some 4
  else if e = 0 ∨ e = 1 ∨ e = 2 ∨ e = 4 ∨ e = 8 then some e.toNat
  else none

/-- The operand checks of a transfer, in the order of R252: ESIZE legal (R91 c), then `L = M * COUNT` at most
`BUF_BYTES` (R91 d, R122). Answers `(M, L)`. -/
def transferSize (p : Params) (e : BitVec 4) (count : BitVec 16) : Option (Nat × Nat) :=
  match effSize e with
  | none => none
  | some m => if p.bufBytes < m * count.toNat then none else some (m, m * count.toNat)

/-- `W`, the element width on the wire of a READ (R121). -/
def wireWidth (m : Nat) (wide : WideMode) : Nat :=
  if m = 4 ∧ wide ≠ .plain then 3 else m

/-- REGW as the field's two bits spell it; 3 is reserved (R23, R26). -/
def RegWidth.ofBits (b : BitVec 2) : Option RegWidth :=
  if b = 0 then some .none else if b = 1 then some .one else if b = 2 then some .two else Option.none

/-- The field's bits (R23). -/
def RegWidth.bits : RegWidth → BitVec 2
  | .none => 0
  | .one => 1
  | .two => 2

/-- How many address bytes a write transaction carries (R26, R100). -/
def RegWidth.bytes : RegWidth → Nat
  | .none => 0
  | .one => 1
  | .two => 2

/-- WIDE as the field's two bits spell it; 3 is reserved (R23, R30). -/
def WideMode.ofBits (b : BitVec 2) : Option WideMode :=
  if b = 0 then some .plain else if b = 1 then some .signed24 else if b = 2 then some .unsigned24 else none

/-- The field's bits (R23). -/
def WideMode.bits : WideMode → BitVec 2
  | .plain => 0
  | .signed24 => 1
  | .unsigned24 => 2

/-- 0 MSB-first, 1 LSB-first (R23). -/
def ByteOrder.ofBit (b : Bool) : ByteOrder := if b then .lsbFirst else .msbFirst

/-- The field's bit (R23). -/
def ByteOrder.bit : ByteOrder → Bool
  | .msbFirst => false
  | .lsbFirst => true

/-- 0 stop, 1 no-stop (R23). -/
def StopPolicy.ofBit (b : Bool) : StopPolicy := if b then .noStop else .stop

/-- The field's bit (R23). -/
def StopPolicy.bit : StopPolicy → Bool
  | .stop => false
  | .noStop => true

/-- The descriptor a legal DFLAGS stands for (R90, R160); `none` where DFLAGS is illegal: bit 7 or a bit of 30:15 set,
REGW 3 or WIDE 3. Bit 31 is ignored on input. -/
def Descriptor.ofFlags (f : Word32) : Option Descriptor :=
  if f.extractLsb' 7 1 ≠ 0 ∨ f.extractLsb' 15 16 ≠ 0 then none
  else
    match RegWidth.ofBits (f.extractLsb' 8 2), WideMode.ofBits (f.extractLsb' 13 2) with
    | some rw, some wd =>
      some { busaddr := f.extractLsb' 0 7, regw := rw, reglsb := ByteOrder.ofBit (f.getLsbD 10),
             datalsb := ByteOrder.ofBit (f.getLsbD 11), nostop := StopPolicy.ofBit (f.getLsbD 12), wide := wd }
    | _, _ => none

/-- The 32-bit word of a stored descriptor (R23): VALID is 1, the reserved bits are 0 (R31). -/
def Descriptor.word (d : Descriptor) : Word32 :=
  1#1 ++ 0#16 ++ d.wide.bits ++ BitVec.ofBool d.nostop.bit ++ BitVec.ofBool d.datalsb.bit ++
    BitVec.ofBool d.reglsb.bit ++ d.regw.bits ++ 0#1 ++ d.busaddr

/-- The fields of the all-zero DESC (R23, R24): what a field of DESC reads while the block is uninitialized. -/
def Descriptor.zero : Descriptor :=
  { busaddr := 0, regw := .none, reglsb := .msbFirst, datalsb := .msbFirst, nostop := .stop, wide := .plain }

/-- The register DESC as a 32-bit word; 0 is uninitialized (R23, R24). -/
def State.descWord (s : State) : Word32 :=
  match s.desc with
  | none => 0
  | some d => d.word

/-- The fields of DESC (R9, R23). -/
def State.descr (s : State) : Descriptor := s.desc.getD Descriptor.zero

end Sys2Proof.Machine
end

