-- ==== Sys2Proof/Machine/Flags.lean ====
section
/-! DEFINITION. The block's only flags, RES, and the error counter's arithmetic (R32, R33, R93, R141, R240). -/

namespace Sys2Proof.Machine

/-- The three bits of a cause (R240). -/
def Cause.code : Cause → BitVec 3
  | .none => 0
  | .notInitialized => 1
  | .transactionError => 2
  | .shortTransfer => 3
  | .badCommand => 4

/-- `succeed(value)`'s RES (R10). -/
def Result.success (v : Word32) : Result := { ok := true, cause := .none, value := v }

/-- `fail(cause)`'s RES (R10). -/
def Result.failure (c : Cause) : Result := { ok := false, cause := c, value := 0 }

/-- The packed result word `RW[35:0] = {OK, CAUSE, VALUE}` (R93). -/
def Result.packed (r : Result) : BitVec 36 := BitVec.ofBool r.ok ++ r.cause.code ++ r.value

/-- The error counter one failed transaction later: wraps, never saturates (R32, R141). -/
def nextErrcnt (p : Params) (n : Nat) : Nat := (n + 1) % 2 ^ p.errcntW

/-- `zext_32(ERRCNT)` (R211). -/
def errcntValue (n : Nat) : Word32 := BitVec.ofNat 32 n

end Sys2Proof.Machine
end

