-- ==== Sys2Proof/Machine/Datapath.lean ====
section
/-! DEFINITION. The pure functions of `40_datapath.md`: chunker arithmetic, register-address encoder, byte-order
multiplexer, 24-bit expansion. -/

namespace Sys2Proof.Machine

/-- `ChunkLen(rem, C, M)` (R123). -/
def chunkLen (rem c m : Nat) : Nat :=
  if 1 < m then min rem c - min rem c % m else min rem c

/-- The chunk plan of `rem` bytes, by fuel (R124). -/
def chunkPlanFrom (c m : Nat) : Nat → Nat → List Nat
  | 0, _ => []
  | fuel + 1, rem =>
    if rem = 0 then [] else chunkLen rem c m :: chunkPlanFrom c m fuel (rem - chunkLen rem c m)

/-- The chunk plan of a transfer of `l` bytes: the chunk lengths of a READ, and of a WRITE with `l > 0` (R124). -/
def chunkPlan (l c m : Nat) : List Nat := chunkPlanFrom c m l l

/-- The chunk plan of a WRITE: one empty chunk when `l = 0` (R124, R139, R172). -/
def writePlan (l c m : Nat) : List Nat := if l = 0 then [0] else chunkPlan l c m

/-- `REQ`, the wire bytes of a chunk of `cl` memory bytes (R101, R136, R196). -/
def wireLen (w cl : Nat) : Nat := if w = 3 then 3 * (cl / 4) else cl

/-- `ChunkAddr(RA, SENT)`: the advancing register address, wrapping modulo `2^16` (R128). -/
def chunkAddr (ra : RegAddr) (sent : Nat) : RegAddr := BitVec.ofNat 16 (ra.toNat + sent)

/-- `AddrPhase(a)` (R127). -/
def addrPhase (d : Descriptor) (a : RegAddr) : List Byte :=
  match d.regw, d.reglsb with
  | .none, _ => []
  | .one, _ => [a.extractLsb' 0 8]
  | .two, .msbFirst => [a.extractLsb' 8 8, a.extractLsb' 0 8]
  | .two, .lsbFirst => [a.extractLsb' 0 8, a.extractLsb' 8 8]

/-- The `m` low bytes of `v`, least significant first. -/
def bytesLE : Nat → Nat → List Byte
  | 0, _ => []
  | m + 1, v => BitVec.ofNat 8 v :: bytesLE m (v / 256)

/-- The number whose bytes, least significant first, are `bs`. -/
def ofBytesLE : List Byte → Nat
  | [] => 0
  | b :: bs => b.toNat + 256 * ofBytesLE bs

/-- `Marshal(v, M, lsb)`: the wire bytes of an element (R130). -/
def marshal (v m : Nat) : ByteOrder → List Byte
  | .msbFirst => (bytesLE m v).reverse
  | .lsbFirst => bytesLE m v

/-- `Unmarshal(bs, lsb)`: the value of received bytes in arrival order (R131). -/
def unmarshal (bs : List Byte) : ByteOrder → Nat
  | .msbFirst => ofBytesLE bs.reverse
  | .lsbFirst => ofBytesLE bs

/-- `Wide24(w, mode)` (R133). -/
def wide24 (w : BitVec 24) : WideMode → Word32
  | .signed24 => if w.getLsbD 23 then 0xFF000000 + w.setWidth 32 else w.setWidth 32
  | .unsigned24 => w.setWidth 32
  | .plain => w.setWidth 32

/-- The element value stored for an unmarshalled wire value: `Wide24` when `W = 3`, the value itself otherwise
(R137, R190). -/
def elemValue (w : Nat) (mode : WideMode) (raw : Nat) : Nat :=
  if w = 3 then (wide24 (BitVec.ofNat 24 raw) mode).toNat else raw

/-- The value of the element received as the wire bytes `bs` (R131, R133, R190). -/
def receivedValue (w : Nat) (d : Descriptor) (bs : List Byte) : Nat :=
  elemValue w d.wide (unmarshal bs d.datalsb)

end Sys2Proof.Machine
end

