-- ==== Sys2Proof/Machine/Ops.lean ====
section
/-! DEFINITION. The named operations over BUF and the registers, the two endings of a command (`succeed` and `fail`, the
block's whole exception entry: R10, R253; there is no return, R255), and the host's moves that are not commands. -/

namespace Sys2Proof.Machine

/-- The byte listed at an address; `none` where nothing has written it since reset (R34, R38). -/
def bufGet : List Host.Cell → Nat → Option Byte
  | [], _ => none
  | (x, v) :: rest, a => if x = a then some v else bufGet rest a

/-- Store a byte, keeping the addresses strictly rising. -/
def bufSet : List Host.Cell → Nat → Byte → List Host.Cell
  | [], a, b => [(a, b)]
  | (x, v) :: rest, a, b =>
    if a < x then (a, b) :: (x, v) :: rest
    else if a = x then (a, b) :: rest
    else (x, v) :: bufSet rest a b

/-- Store bytes at consecutive rising addresses. -/
def bufSetBytes : List Host.Cell → Nat → List Byte → List Host.Cell
  | buf, _, [] => buf
  | buf, a, b :: bs => bufSetBytes (bufSet buf a b) (a + 1) bs

/-- The canonical form of BUF: addresses strictly rising. Every listed byte differs from what an unlisted address reads
as, which is no value. -/
def Memory.wf : List Host.Cell → Bool
  | [] => true
  | (x, _) :: rest => (rest.all fun c => x < c.1) && Memory.wf rest

/-- Every listed address exists (R34). -/
def bufInRange (p : Params) (buf : List Host.Cell) : Bool := buf.all fun c => c.1 < p.bufBytes

/-- `BufElem(j, M) <- v` (R51, R53): byte `k` of the value at address `j*M + k`. -/
def storeElem (buf : List Host.Cell) (j m v : Nat) : List Host.Cell := bufSetBytes buf (j * m) (bytesLE m v)

/-- The value of a BUF byte where a command or the host reads it: the byte written there, or a free value (U3), the same
one until the next WRITE or reset draws anew. Assumption 3. -/
def State.bufByte (s : State) (a : Nat) : Byte := (bufGet s.buf a).getD (Config.unwrittenByte s.draws a)

/-- `BufElem(j, M)` (R51, R53). -/
def State.bufElem (s : State) (j m : Nat) : Nat := ofBytesLE ((List.range m).map fun k => s.bufByte (j * m + k))

/-- Append port events to the trace, in order (R10, R62). -/
def State.emit (s : State) (es : List Event) : State := { s with trace := s.trace ++ es }

/-- Move the sequencer (R135). -/
def State.goto (s : State) (st : SeqState) : State := { s with seq := { s.seq with st := st } }

/-- End the running command: write RES once and return to IDLE (R10, R33). -/
def State.finish (s : State) (r : Result) : State :=
  { s with res := r, seq := { s.seq with st := .idle } }

/-- `succeed(value)` (R10). -/
def State.succeed (s : State) (v : Word32) : State := s.finish (Result.success v)

/-- `fail(cause)` (R10, R253): the block's exception entry. Nothing is saved and nothing vectors. -/
def State.fail (s : State) (c : Cause) : State := s.finish (Result.failure c)

/-- Count one failed transaction (R141). -/
def State.countError (s : State) : State := { s with errcnt := nextErrcnt s.cfg s.errcnt }

/-- A command is accepted only in IDLE (R135); handed over while another runs it has no meaning (U4, R280).
Assumption 10, safe. -/
def State.whenIdle (s : State) (after : State) : Host.Outcome State Fault Refusal :=
  if s.seq.st = .idle then .next after else .refused .commandWhileBusy

/-- The engine is waiting for an answer the Transport Port has not given (R244). -/
def State.waiting (s : State) : Bool :=
  match s.seq.st with
  | .txClose => s.port.codes.isEmpty
  | .rxReq => s.port.avails.isEmpty
  | .rxDrain => s.port.bytes.isEmpty
  | _ => false

/-- An illegal command word: `fail(BAD_COMMAND)`, no event, DESC, ERRCNT and BUF unchanged (R91, R245). -/
def illegalCommand (s : State) : State := s.fail .badCommand

/-- The host stores one byte into BUF while the block is idle (R52). An address outside BUF does not exist (R34).
Assumption 9, safe. -/
def hostStore (a : Nat) (b : Byte) (s : State) : Host.Outcome State Fault Refusal :=
  if a < s.cfg.bufBytes then .next { s with buf := bufSet s.buf a b } else .fault (.noSuchBufAddress a)

/-- The reset input while the block is idle (R270): the block's own state takes its reset values (R38); the outside
world (host, port, what was emitted) is not reset by it. R38 leaves BUF unspecified afterwards: no byte is listed, and the
draw counter advances, so a byte unwritten before and after reads one free value before and another, unrelated one after.
DESIGN CHOICE, assumption 3, safe. -/
def hostReset (s : State) : State :=
  { State.resetWith s.cfg with host := s.host, port := s.port, trace := s.trace, draws := s.draws + 1 }

/-- What the host reads of RES, packed: only while the block is idle (R33, R93). -/
def State.hostReadRes (s : State) : Option (BitVec 36) :=
  if s.seq.st = .idle then some s.res.packed else none

/-- What the host reads of a BUF byte: only while the block is idle and only inside BUF (R34, R52). -/
def State.hostReadBuf (s : State) (a : Nat) : Option Byte :=
  if s.seq.st = .idle ∧ a < s.cfg.bufBytes then some (s.bufByte a) else none

end Sys2Proof.Machine
end

