-- ==== Sys2Proof/Machine/Sequencer.lean ====
section
/-! DEFINITION. The transfer-chunking state machine, one port event per step (R135 to R137, R140, R141). Each definition is
one row, or the rows of one state, of the transition table of `40_datapath.md` R136. -/

namespace Sys2Proof.Machine

/-- IDLE, WRITE accepted (R136). The draw counter advances: the unwritten BUF bytes of this command are free anew. -/
def acceptWrite (s : State) (ns : Bool) (ra : RegAddr) (m l : Nat) : State :=
  { s with
    draws := s.draws + 1
    probe := false
    seq := { s.seq with st := .planTx, kind := .w, ra := ra, m := m, w := m, l := l, sent := 0, stopf := !ns } }

/-- IDLE, READ accepted, `REGW != 0`: the address-set phase comes first (R136, R192). -/
def acceptReadAddressed (s : State) (ra : RegAddr) (m l : Nat) : State :=
  { s with
    probe := false
    seq := { s.seq with
      st := .txOpen, kind := .ra, ra := ra, m := m, w := wireWidth m s.descr.wide, l := l, sent := 0, cl := 0,
      stopf := !s.descr.nostop.bit } }

/-- IDLE, READ accepted, `REGW == 0` (R136, R192). -/
def acceptReadPlain (s : State) (ra : RegAddr) (m l : Nat) : State :=
  { s with
    probe := false
    seq := { s.seq with
      st := .planRx, kind := .rd, ra := ra, m := m, w := wireWidth m s.descr.wide, l := l, sent := 0 } }

/-- IDLE, READ accepted (R136). -/
def acceptRead (s : State) (ra : RegAddr) (m l : Nat) : State :=
  if s.descr.regw = .none then acceptReadPlain s ra m l else acceptReadAddressed s ra m l

/-- PLAN_TX (R136): `CL <- ChunkLen(L-SENT, C, M); IDX <- 0`. -/
def planTx (s : State) : State :=
  { s with seq := { s.seq with
      st := .txOpen, cl := chunkLen (s.seq.l - s.seq.sent) s.cfg.maxChunk s.seq.m, idx := 0 } }

/-- The address bytes of the running write transaction: `A` of R136. -/
def State.addrBytes (s : State) : List Byte := addrPhase s.descr (chunkAddr s.seq.ra s.seq.sent)

/-- Payload byte IDX of a write chunk (R136). -/
def State.payloadByte (s : State) (idx : Nat) : Byte :=
  (marshal (s.bufElem ((s.seq.sent + idx) / s.seq.m) s.seq.m) s.seq.m s.descr.datalsb).getD (idx % s.seq.m) 0

/-- Where a write transaction goes after its address phase (R136). -/
def Latches.afterAddr (q : Latches) : SeqState := if 0 < q.cl then .txData else .txClose

/-- TX_OPEN (R136). -/
def stepTxOpen (s : State) : State :=
  (s.emit [.txBegin s.descr.busaddr]).goto
    (if s.descr.regw = .none then s.seq.afterAddr else .txAddr0)

/-- TX_ADDR0 (R136). -/
def stepTxAddr0 (s : State) : State :=
  (s.emit [.txWrite (s.addrBytes.getD 0 0)]).goto
    (if s.descr.regw = .two then .txAddr1 else s.seq.afterAddr)

/-- TX_ADDR1 (R136). -/
def stepTxAddr1 (s : State) : State :=
  (s.emit [.txWrite (s.addrBytes.getD 1 0)]).goto s.seq.afterAddr

/-- IDX counts one more payload byte; the last one leads to TX_CLOSE (R136). -/
def State.countPayload (s : State) : State :=
  { s with seq := { s.seq with
      idx := s.seq.idx + 1, st := if s.seq.idx + 1 < s.seq.cl then .txData else .txClose } }

/-- TX_DATA (R136). -/
def stepTxData (s : State) : State := (s.emit [.txWrite (s.payloadByte s.seq.idx)]).countPayload

/-- The `stop` value of the next TxEnd: STOPF, or true for the probe (R140, R210). -/
def State.stopValue (s : State) : Bool := if s.probe then true else s.seq.stopf

/-- The next answer to TxEnd has been taken and the event emitted (R97). -/
def State.tookCode (s : State) (c : Nat) (cs : List Nat) : State :=
  { s with port := { s.port with codes := cs }, trace := s.trace ++ [.txEnd s.stopValue c] }

/-- The chunk just sent counts in SENT (R136). -/
def State.advance (s : State) : State := { s with seq := { s.seq with sent := s.seq.sent + s.seq.cl } }

/-- The address-set phase is over: the data phase of the READ begins (R136). -/
def State.toData (s : State) : State := { s with seq := { s.seq with kind := .rd, st := .planRx } }

/-- The transaction of an EXISTS is closed: the model's flag goes down (R210). Assumption 7. -/
def State.probeOver (s : State) : State := { s with probe := false }

/-- What follows a TxEnd that returned 0, by KIND (R136). -/
def afterClose (s : State) : State :=
  match s.seq.kind with
  | .w => if s.seq.sent + s.seq.cl < s.seq.l then s.advance.goto .planTx else s.advance.succeed 0
  | .ra => s.toData
  | .rd => s

/-- TX_CLOSE (R136): emits `TxEnd(stop) -> code`; while the call has not returned the engine stays here (R244). A failing
close counts for a WRITE and for an address-set phase, not for the probe of EXISTS (R141, R210, R246). -/
def stepTxClose (s : State) : State :=
  match s.port.codes with
  | [] => s
  | c :: cs =>
    let t := s.tookCode c cs
    if s.probe then
      if c = 0 then t.probeOver.succeed 0 else t.probeOver.fail .transactionError
    else if c = 0 then afterClose t
    else t.countError.fail .transactionError

/-- `CL`, `REQ`, `IDX` and `ACC` for the next read chunk (R136). -/
def planRx (s : State) : State :=
  { s with seq := { s.seq with
      st := .rxReq
      cl := chunkLen (s.seq.l - s.seq.sent) s.cfg.maxChunk s.seq.m
      req := wireLen s.seq.w (chunkLen (s.seq.l - s.seq.sent) s.cfg.maxChunk s.seq.m)
      idx := 0
      acc := 0 } }

/-- PLAN_RX (R136): finish, or plan the next read chunk. -/
def stepPlanRx (s : State) : State := if s.seq.l ≤ s.seq.sent then s.succeed 0 else planRx s

/-- The next answer to RxRequest has been taken and the event emitted (R98). -/
def State.tookAvail (s : State) (a : Nat) (as : List Nat) : State :=
  { s with port := { s.port with avails := as },
           trace := s.trace ++ [.rxRequest s.descr.busaddr s.seq.req a] }

/-- RX_REQ (R136, R194): a short answer counts and fails; otherwise the chunk is drained. -/
def stepRxReq (s : State) : State :=
  match s.port.avails with
  | [] => s
  | a :: as =>
    let t := s.tookAvail a as
    if a < s.seq.req then t.countError.fail .shortTransfer else t.goto .rxDrain

/-- ACC after absorbing one more byte at position `k` of its element (R137). -/
def absorbAcc (o : ByteOrder) (acc : BitVec 64) (k : Nat) (b : Byte) : BitVec 64 :=
  match o with
  | .msbFirst => acc * 256 + b.setWidth 64
  | .lsbFirst => acc + (b.setWidth 64) * BitVec.ofNat 64 (2 ^ (8 * k))

/-- ACC takes a value (R137). -/
def State.withAcc (s : State) (acc : BitVec 64) : State := { s with seq := { s.seq with acc := acc } }

/-- `BufElem(j, M) <- v` on the state (R53, R137). -/
def State.withElem (s : State) (j v : Nat) : State := { s with buf := storeElem s.buf j s.seq.m v }

/-- Absorb a received byte (R137): assemble it into ACC and store the element when it is complete. -/
def absorb (s : State) (b : Byte) : State :=
  let acc := absorbAcc s.descr.datalsb s.seq.acc (s.seq.idx % s.seq.w) b
  if s.seq.idx % s.seq.w = s.seq.w - 1 then
    (s.withElem (s.seq.sent / s.seq.m + s.seq.idx / s.seq.w) (elemValue s.seq.w s.descr.wide acc.toNat)).withAcc 0
  else
    s.withAcc acc

/-- The next answer to RxRead has been taken and the event emitted (R99). -/
def State.tookByte (s : State) (b : Byte) (bs : List Byte) : State :=
  { s with port := { s.port with bytes := bs }, trace := s.trace ++ [.rxRead b] }

/-- IDX counts one more received byte; the last one of a chunk advances SENT and leads to PLAN_RX (R136). -/
def State.countReceived (s : State) : State :=
  { s with seq := { s.seq with
      idx := s.seq.idx + 1
      sent := if s.seq.idx + 1 < s.seq.req then s.seq.sent else s.seq.sent + s.seq.cl
      st := if s.seq.idx + 1 < s.seq.req then .rxDrain else .planRx } }

/-- RX_DRAIN (R136): one received byte; while the call has not returned the engine stays here (R244). -/
def stepRxDrain (s : State) : State :=
  match s.port.bytes with
  | [] => s
  | b :: bs => (absorb (s.tookByte b bs) b).countReceived

/-- One transition of the sequencer (R135, R136); in IDLE there is none. -/
def seqStep (s : State) : State :=
  match s.seq.st with
  | .idle => s
  | .planTx => planTx s
  | .txOpen => stepTxOpen s
  | .txAddr0 => stepTxAddr0 s
  | .txAddr1 => stepTxAddr1 s
  | .txData => stepTxData s
  | .txClose => stepTxClose s
  | .planRx => stepPlanRx s
  | .rxReq => stepRxReq s
  | .rxDrain => stepRxDrain s

/-- `n` transitions of the sequencer. -/
def seqRun : Nat → State → State
  | 0, s => s
  | n + 1, s => seqRun n (seqStep s)

end Sys2Proof.Machine
end

