-- ==== Sys2Proof/Machine/Probe.lean ====
section
/-! DEFINITION. EXISTS, ERRCOUNT and CLRERR (`44_probe_counter.md`). -/

namespace Sys2Proof.Machine

/-- The probe's transaction opened: `TxBegin(BUSADDR)`, no address phase, no payload, its TxEnd to come (R210).
DEDUCED, assumption 7: it waits in TX_CLOSE under the model's flag. -/
def openProbe (s : State) : State :=
  { (s.emit [.txBegin s.descr.busaddr]).goto .txClose with probe := true }

/-- EXISTS (R210): a failed probe does not count in ERRCNT (R246). -/
def execProbe (s : State) : Host.Outcome State Fault Refusal :=
  s.whenIdle <|
    match s.desc with
    | none => s.fail .notInitialized
    | some _ => stepTxClose (openProbe s)

/-- ERRCOUNT (R211): `succeed(zext_32(ERRCNT))`. -/
def execErrcount (s : State) : Host.Outcome State Fault Refusal :=
  s.whenIdle (s.succeed (errcntValue s.errcnt))

/-- CLRERR (R212): ERRCNT becomes 0. -/
def execClrerr (s : State) : Host.Outcome State Fault Refusal :=
  s.whenIdle (({ s with errcnt := 0 }).succeed 0)

end Sys2Proof.Machine
end

