-- ==== Sys2Proof/Machine/Session.lean ====
section
/-! DEFINITION. CONFIGURE and RELEASE (`41_configure.md`). -/

namespace Sys2Proof.Machine

/-- CONFIGURE (R160): an illegal DFLAGS fails with DESC unchanged; a legal one replaces the whole descriptor, VALID
forced to 1. No port event, ERRCNT unchanged. -/
def execConfigure (dflags : Word32) (s : State) : Host.Outcome State Fault Refusal :=
  s.whenIdle <|
    match Descriptor.ofFlags dflags with
    | none => s.fail .badCommand
    | some d => ({ s with desc := some d }).succeed 0

/-- RELEASE (R161): DESC becomes 0. No port event, ERRCNT and BUF unchanged, never fails. -/
def execRelease (s : State) : Host.Outcome State Fault Refusal :=
  s.whenIdle (({ s with desc := none }).succeed 0)

end Sys2Proof.Machine
end

