-- ==== Sys2Proof/Machine/Transfer.lean ====
section
/-! DEFINITION. WRITE and READ (`42_write.md`, `43_read.md`): the normative pseudocode of R139, R170 and R190, chunk by
chunk. One command is one step. Where the Transport Port does not answer (R244) the block is left exactly where the
sequencer of `Sequencer.lean` waits. -/

namespace Sys2Proof.Machine

/-- The payload of the running write chunk: its elements in ascending index, each marshalled (R139 step 3c, R100). -/
def State.chunkPayload (s : State) : List Byte :=
  (List.range (s.seq.cl / s.seq.m)).flatMap fun i =>
    marshal (s.bufElem (s.seq.sent / s.seq.m + i) s.seq.m) s.seq.m s.descr.datalsb

/-- Open a write transaction and hand over its address phase and payload (R139 steps 3b and 3c, R100). -/
def fillTx (s : State) : State :=
  { s with
    trace := s.trace ++ (.txBegin s.descr.busaddr :: (s.addrBytes ++ s.chunkPayload).map .txWrite)
    seq := { s.seq with st := .txClose, idx := s.seq.idx + s.seq.cl } }

/-- `WriteCore`'s loop (R139), by fuel: one transaction per chunk until all bytes are sent or a transaction fails. -/
def writeLoop : Nat → State → State
  | 0, s => s
  | fuel + 1, s =>
    let t := stepTxClose (fillTx (planTx s))
    if t.seq.st = .planTx then writeLoop fuel t else t

/-- WRITE (R170): the refusals in the order of R252, then `WriteCore`. -/
def execWrite (ns : Bool) (esize : BitVec 4) (regaddr : RegAddr) (count : BitVec 16) (s : State) :
    Host.Outcome State Fault Refusal :=
  s.whenIdle <|
    match s.desc with
    | none => s.fail .notInitialized
    | some _ =>
      match transferSize s.cfg esize count with
      | none => s.fail .badCommand
      | some (m, l) => writeLoop (l + 1) (acceptWrite s ns regaddr m l)

/-- Store `n` received elements from element `j` on, each from the next `w` wire bytes (R190 step 4c, R195). -/
def storeReceived (d : Descriptor) (m w : Nat) : Nat → Nat → List Byte → List Host.Cell → List Host.Cell
  | 0, _, _, buf => buf
  | n + 1, j, bs, buf =>
    storeReceived d m w n (j + 1) (bs.drop w) (storeElem buf j m (receivedValue w d (bs.take w)))

/-- Drain one requested chunk: exactly REQ bytes, its elements stored in ascending index (R190 step 4c, R194, R195).
If the port gives fewer answers than REQ, the bytes it gave have been absorbed and the engine waits (R244). -/
def drainChunk (s : State) : State :=
  let q := s.seq
  let bs := s.port.bytes.take q.req
  { s with
    port := { s.port with bytes := s.port.bytes.drop q.req }
    trace := s.trace ++ bs.map .rxRead
    buf := storeReceived s.descr q.m q.w (bs.length / q.w) (q.sent / q.m) bs s.buf
    seq := { q with
      idx := bs.length
      acc := BitVec.ofNat 64 (unmarshal (bs.drop (q.w * (bs.length / q.w))) s.descr.datalsb)
      sent := if bs.length = q.req then q.sent + q.cl else q.sent
      st := if bs.length = q.req then .planRx else .rxDrain } }

/-- The read chunk loop (R190 step 4, R193), by fuel: `while done < L`. -/
def readLoop : Nat → State → State
  | 0, s => s
  | fuel + 1, s =>
    if s.seq.l ≤ s.seq.sent then s.succeed 0
    else
      let t := stepRxReq (planRx s)
      if t.seq.st = .rxDrain then
        let u := drainChunk t
        if u.seq.st = .planRx then readLoop fuel u else u
      else t

/-- The address-set phase when a register address is configured (R190 step 3, R192), then the chunk loop. -/
def runRead (s : State) : State :=
  let t := if s.seq.st = .txOpen then stepTxClose (fillTx s) else s
  if t.seq.st = .planRx then readLoop (s.seq.l + 1) t else t

/-- READ (R190): the refusals in the order of R252, then the transfer. -/
def execRead (esize : BitVec 4) (regaddr : RegAddr) (count : BitVec 16) (s : State) :
    Host.Outcome State Fault Refusal :=
  s.whenIdle <|
    match s.desc with
    | none => s.fail .notInitialized
    | some _ =>
      match transferSize s.cfg esize count with
      | none => s.fail .badCommand
      | some (m, l) => runRead (acceptRead s regaddr m l)

end Sys2Proof.Machine
end

