-- ==== Sys2Proof/Machine/Dispatch.lean ====
section
/-! DEFINITION. The meaning of each command, one arm per constructor of Instr. -/

namespace Sys2Proof.Machine

def exec (i : Instr) (s : State) : Host.Outcome State Fault Refusal :=
  match i with
  | .configure dflags => Sys2Proof.Machine.execConfigure dflags s
  | .release => Sys2Proof.Machine.execRelease s
  | .write ns esize regaddr count => Sys2Proof.Machine.execWrite ns esize regaddr count s
  | .read esize regaddr count => Sys2Proof.Machine.execRead esize regaddr count s
  | .probe => Sys2Proof.Machine.execProbe s
  | .errcount => Sys2Proof.Machine.execErrcount s
  | .clrerr => Sys2Proof.Machine.execClrerr s

end Sys2Proof.Machine
end

