-- ==== Sys2Proof/Machine/Fetch.lean ====
section
/-! DEFINITION. Where the next command comes from: the host's next move, taken only while the block is idle (R21, R52,
R62, R270, R271). -/

namespace Sys2Proof.Machine

/-- What the block has before it at a step. -/
inductive Fetched where
  /-- a command to execute, already taken from the host's moves -/
  | run (i : Instr) (s : State)
  /-- anything else, with its outcome -/
  | other (o : Host.Outcome State Fault Refusal)

/-- The host's next move in IDLE. Without one the block does nothing (R270). -/
def hostMove (s : State) : Fetched :=
  match s.host with
  | [] => .other (.next s)
  | .command cw :: rest =>
    match decode cw with
    | .legal i => .run i { s with host := rest }
    | .illegal _ => .other (.next (illegalCommand { s with host := rest }))
  | .store a b :: rest => .other (hostStore a b { s with host := rest })
  | .reset :: rest => .other (.next (hostReset { s with host := rest }))

/-- A step while a command runs: the next sequencer transition. The host has no move here (R52); while the port does not
answer nothing changes (R244). A reset asked for at any moment but IDLE has no meaning (R271, U14). Assumptions 5 and 11,
safe. -/
def busyStep (s : State) : Host.Outcome State Fault Refusal :=
  if s.host.head? = some .reset then .refused .resetWhileBusy else .next (seqStep s)

/-- What the block has before it. -/
def fetch (s : State) : Fetched :=
  if s.seq.st = .idle then hostMove s else .other (busyStep s)

/-- The block idle with this command word as the host's next move. -/
def State.queueCommand (s : State) (cw : CommandWord) : State :=
  { s with host := .command cw :: s.host, seq := { s.seq with st := .idle } }

end Sys2Proof.Machine
end

