-- ==== Sys2Proof/Machine/Step.lean ====
section
/-! DEFINITION. One step of the machine. -/

namespace Sys2Proof.Machine

/-- One step: in IDLE the host's next move, a command being executed whole; otherwise one sequencer transition. -/
def step (s : State) : Host.Outcome State Fault Refusal :=
  match fetch s with
  | .run i t => exec i t
  | .other o => o

/-- `s` idle, the host's next move being the command word `w` of `nbits` bits: there is no instruction memory (R21), so
this stands for the host handing the word over. Assumption 8. -/
def State.withFetchWord (s : State) (nbits w : Nat) : State := s.queueCommand (tableWord nbits w)

end Sys2Proof.Machine
end

