-- ==== Sys2Proof/Machine/Accessors.lean ====
section
/-! DEFINITION. The pseudo-instructions of `45_accessors.md`: what host moves each expands to and what value a read
accessor yields. They have no opcode of their own (R103); nothing here is a step of the block. -/

namespace Sys2Proof.Machine

/-- The six read accessors (R220 to R225). -/
inductive ReadAccessor where
  | rdU8
  | rdS8
  | rdU16
  | rdS16
  | rdU32
  | rdS32
deriving DecidableEq, Repr

/-- The element size of the accessor's READ, in bytes (R220 to R225). -/
def ReadAccessor.size : ReadAccessor → Nat
  | .rdU8 => 1
  | .rdS8 => 1
  | .rdU16 => 2
  | .rdS16 => 2
  | .rdU32 => 4
  | .rdS32 => 4

/-- `value` sign-extends (R221, R223, R225) or zero-extends (R220, R222, R224). -/
def ReadAccessor.isSigned : ReadAccessor → Bool
  | .rdU8 => false
  | .rdS8 => true
  | .rdU16 => false
  | .rdS16 => true
  | .rdU32 => false
  | .rdS32 => true

/-- The READ the accessor expands to (R220 to R225). -/
def ReadAccessor.command (a : ReadAccessor) (ra : RegAddr) : Instr := .read (BitVec.ofNat 4 a.size) ra 1

/-- `value` from element 0 of BUF (R220 to R225). -/
def ReadAccessor.value (a : ReadAccessor) (s : State) : Word32 :=
  let v := BitVec.ofNat (8 * a.size) (s.bufElem 0 a.size)
  if a.isSigned then v.signExtend 32 else v.setWidth 32

/-- What a read accessor yields after its READ: `(ok, value)` (R237). With `ok` false, `value` is what element 0 of BUF
held before, which the host must not use (R237, U16). -/
def ReadAccessor.result (a : ReadAccessor) (s : State) : Bool × Word32 := (s.res.ok, a.value s)

/-- The six write accessors (R226 to R231). -/
inductive WriteAccessor where
  | wrU8
  | wrS8
  | wrU16
  | wrS16
  | wrU32
  | wrS32
deriving DecidableEq, Repr

/-- The element size of the accessor's WRITE, in bytes (R226 to R231). -/
def WriteAccessor.size : WriteAccessor → Nat
  | .wrU8 => 1
  | .wrS8 => 1
  | .wrU16 => 2
  | .wrS16 => 2
  | .wrU32 => 4
  | .wrS32 => 4

/-- The accessor takes signed values (R227, R229, R231). -/
def WriteAccessor.isSigned : WriteAccessor → Bool
  | .wrU8 => false
  | .wrS8 => true
  | .wrU16 => false
  | .wrS16 => true
  | .wrU32 => false
  | .wrS32 => true

/-- The values an accessor takes (R226 to R231). -/
def WriteAccessor.inRange (a : WriteAccessor) (v : Int) : Bool :=
  if a.isSigned then -(2 ^ (8 * a.size - 1)) ≤ v && v < 2 ^ (8 * a.size - 1) else 0 ≤ v && v < 2 ^ (8 * a.size)

/-- The host's stores of bytes at consecutive rising BUF addresses (R53). -/
def storeMoves : Nat → List Byte → List HostMove
  | _, [] => []
  | a, b :: bs => .store a b :: storeMoves (a + 1) bs

/-- A command as a host move. -/
def commandMove (i : Instr) : HostMove := .command (encode i)

/-- Element sizes a typed form takes (R235). -/
def typeSizeOk (n : Nat) : Bool := n == 1 || n == 2 || n == 4 || n == 8

/-- The pseudo-instructions (R103, R220 to R235). -/
inductive Pseudo where
  /-- RD_U8 to RD_S32 (R220 to R225) -/
  | rd (a : ReadAccessor) (ra : RegAddr)
  /-- WR_U8 to WR_S32 (R226 to R231) -/
  | wr (a : WriteAccessor) (ra : RegAddr) (v : Int)
  /-- SETPTR (R232) -/
  | setptr (ra : RegAddr) (ns : Bool)
  /-- WRITE_RAW (R233) -/
  | writeRaw (ra : RegAddr) (n : BitVec 16) (ns : Bool)
  /-- READ_RAW (R234) -/
  | readRaw (ra : RegAddr) (n : BitVec 16)
  /-- WRITE_VALUE of `k` values of a type of `size` bytes, one or an array (R235) -/
  | writeValue (ra : RegAddr) (size : Nat) (k : BitVec 16) (ns : Bool)
  /-- READ_VALUE of a type of `size` bytes (R235) -/
  | readValue (ra : RegAddr) (size : Nat)
deriving DecidableEq, Repr

/-- The host moves a pseudo-instruction expands to (R220 to R235); `none` where it has no expansion: a value out of the
accessor's range, a type of another size. -/
def Pseudo.expand : Pseudo → Option (List HostMove)
  | .rd a ra => some [commandMove (a.command ra)]
  | .wr a ra v =>
    if a.inRange v then
      some (storeMoves 0 (bytesLE a.size (v % 2 ^ (8 * a.size)).toNat) ++
        [commandMove (.write false (BitVec.ofNat 4 a.size) ra 1)])
    else none
  | .setptr ra ns => some [commandMove (.write ns 0 ra 0)]
  | .writeRaw ra n ns => some [commandMove (.write ns 1 ra n)]
  | .readRaw ra n => some [commandMove (.read 1 ra n)]
  | .writeValue ra size k ns =>
    if typeSizeOk size then some [commandMove (.write ns (BitVec.ofNat 4 size) ra k)] else none
  | .readValue ra size =>
    if typeSizeOk size then some [commandMove (.read (BitVec.ofNat 4 size) ra 1)] else none

/-- ESIZE and COUNT of a call of the source's surface on a buffer of natural size `natural`, with an explicit or implicit
element size (R236): raw form, typed form, implicit form; `none` where the table gives no command. -/
def sourceSizes (natural : Nat) (size : Option Nat) : Option (BitVec 4 × BitVec 16) :=
  match size with
  | none => if typeSizeOk natural then some (BitVec.ofNat 4 natural, 1) else none
  | some n =>
    if natural = 1 then
      if n < 65536 then some (1, BitVec.ofNat 16 n) else none
    else if (typeSizeOk n || n == 3) && natural % n == 0 && 1 < natural && natural / n < 65536 then
      some (BitVec.ofNat 4 n, BitVec.ofNat 16 (natural / n))
    else none

/-- The command of the source's `write(ra, buf, size, useStop)` (R236). -/
def sourceWrite (ra : RegAddr) (natural : Nat) (size : Option Nat) (useStop : Bool) : Option Instr :=
  (sourceSizes natural size).map fun p => .write (!useStop) p.1 ra p.2

/-- The command of the source's `read(ra, buf, size)` (R236). -/
def sourceRead (ra : RegAddr) (natural : Nat) (size : Option Nat) : Option Instr :=
  (sourceSizes natural size).map fun p => .read p.1 ra p.2

end Sys2Proof.Machine
end

