-- ==== Sys2Proof/Machine/Assembler.lean ====
section
/-! DEFINITION. The assembler text of `30_encoding.md` R102 and R103: one line of text to host moves. What R102 leaves open
of the spelling (blanks, signs, repeated keywords, out-of-range numbers) is DESIGN CHOICE, assumption 16, safe. -/

namespace Sys2Proof.Machine

/-- A token of a line: a comma, or a run of characters that are neither blank nor comma. -/
abbrev Token := List Char

/-- The characters gathered so far, in reading order, as a token if there are any. -/
def flushToken (cur : List Char) : List Token := if cur.isEmpty then [] else [cur.reverse]

/-- The tokens of a line; `cur` holds the characters of the token being read, last first. -/
def tokensFrom : List Char → List Char → List Token
  | [], cur => flushToken cur
  | c :: cs, cur =>
    if c = ' ' ∨ c = '\t' then flushToken cur ++ tokensFrom cs []
    else if c = ',' then flushToken cur ++ [','] :: tokensFrom cs []
    else tokensFrom cs (c :: cur)

/-- The operands of a line: tokens separated by single commas. -/
def operandsOf : List Token → Option (List Token)
  | [] => some []
  | [x] => if x = [','] then none else some [x]
  | x :: y :: rest =>
    if x = [','] ∨ y ≠ [','] then none
    else
      match operandsOf rest with
      | some (z :: zs) => some (x :: z :: zs)
      | _ => none

/-- The value of a hexadecimal digit. -/
def hexDigit (c : Char) : Option Nat :=
  let n := c.toNat
  if 48 ≤ n ∧ n ≤ 57 then some (n - 48)
  else if 65 ≤ n ∧ n ≤ 70 then some (n - 55)
  else if 97 ≤ n ∧ n ≤ 102 then some (n - 87)
  else none

/-- The number spelled by digits of a base, `acc` being what the digits before them spell. -/
def digitsFrom (base : Nat) : List Char → Nat → Option Nat
  | [], acc => some acc
  | c :: cs, acc =>
    match hexDigit c with
    | some d => if d < base then digitsFrom base cs (acc * base + d) else none
    | none => none

/-- A decimal or `0x` hexadecimal number (R102). -/
def parseNat : Token → Option Nat
  | [] => none
  | '0' :: 'x' :: c :: cs => digitsFrom 16 (c :: cs) 0
  | cs => digitsFrom 10 cs 0

/-- A number with an optional minus sign, for the signed accessors. -/
def parseInt : Token → Option Int
  | '-' :: cs => (parseNat cs).map fun n => -(n : Int)
  | cs => (parseNat cs).map fun n => (n : Int)

/-- A number that fits a field of `n` bits. -/
def parseField (n : Nat) (t : Token) : Option (BitVec n) :=
  match parseNat t with
  | some v => if v < 2 ^ n then some (BitVec.ofNat n v) else none
  | none => none

/-- The keywords of CONFIGURE (R102). -/
inductive ConfigFlag where
  | reg1
  | reg2
  | reglsb
  | datalsb
  | nostop
  | signed24
  | unsigned24
deriving DecidableEq, Repr

/-- The bits a keyword sets (R102). -/
def ConfigFlag.bits : ConfigFlag → Word32
  | .reg1 => 0x100
  | .reg2 => 0x200
  | .reglsb => 0x400
  | .datalsb => 0x800
  | .nostop => 0x1000
  | .signed24 => 0x2000
  | .unsigned24 => 0x4000

/-- The field a keyword sets (R23). -/
def ConfigFlag.field : ConfigFlag → Word32
  | .reg1 => 0x300
  | .reg2 => 0x300
  | .reglsb => 0x400
  | .datalsb => 0x800
  | .nostop => 0x1000
  | .signed24 => 0x6000
  | .unsigned24 => 0x6000

/-- A keyword's spelling (R102). -/
def ConfigFlag.spelling : ConfigFlag → Token
  | .reg1 => ['R', 'E', 'G', '1']
  | .reg2 => ['R', 'E', 'G', '2']
  | .reglsb => ['R', 'E', 'G', 'L', 'S', 'B']
  | .datalsb => ['D', 'A', 'T', 'A', 'L', 'S', 'B']
  | .nostop => ['N', 'O', 'S', 'T', 'O', 'P']
  | .signed24 => ['S', 'I', 'G', 'N', 'E', 'D', '2', '4']
  | .unsigned24 => ['U', 'N', 'S', 'I', 'G', 'N', 'E', 'D', '2', '4']

/-- The keyword a token spells. -/
def ConfigFlag.parse (t : Token) : Option ConfigFlag :=
  [ConfigFlag.reg1, .reg2, .reglsb, .datalsb, .nostop, .signed24, .unsigned24].find? fun f => f.spelling == t

/-- DFLAGS of a keyword list over a bus address; a field set twice is refused. -/
def dflagsFrom : List ConfigFlag → Word32 → Option Word32
  | [], acc => some acc
  | f :: fs, acc => if acc &&& f.field = 0 then dflagsFrom fs (acc ||| f.bits) else none

/-- `CONFIGURE addr7 [, keywords]` (R102). -/
def asmConfigure (addr7 : BusAddr) (flags : List ConfigFlag) : Option Instr :=
  (dflagsFrom flags (addr7.setWidth 32)).map .configure

/-- The optional trailing `NS` (R89, R102). -/
def parseNs : List Token → Option Bool
  | [] => some false
  | [t] => if t = ['N', 'S'] then some true else none
  | _ => none

/-- Operands `regaddr, esize, count` and what follows them. -/
def parseTransfer : List Token → Option (RegAddr × BitVec 4 × BitVec 16 × List Token)
  | a :: e :: c :: rest =>
    match parseField 16 a, parseField 4 e, parseField 16 c with
    | some ra, some es, some n => some (ra, es, n, rest)
    | _, _, _ => none
  | _ => none

/-- The mnemonics of the commands (R102). -/
def asmCommand (name : Token) (ops : List Token) : Option Instr :=
  if name = ['C', 'O', 'N', 'F', 'I', 'G', 'U', 'R', 'E'] then
    match ops with
    | a :: flags =>
      match parseField 7 a, flags.mapM ConfigFlag.parse with
      | some addr7, some fs => asmConfigure addr7 fs
      | _, _ => none
    | [] => none
  else if name = ['W', 'R', 'I', 'T', 'E'] then
    match parseTransfer ops with
    | some (ra, e, c, rest) => (parseNs rest).map fun ns => .write ns e ra c
    | none => none
  else if name = ['R', 'E', 'A', 'D'] then
    match parseTransfer ops with
    | some (ra, e, c, []) => some (.read e ra c)
    | _ => none
  else if ops ≠ [] then none
  else if name = ['R', 'E', 'L', 'E', 'A', 'S', 'E'] then some .release
  else if name = ['E', 'X', 'I', 'S', 'T', 'S'] then some .probe
  else if name = ['E', 'R', 'R', 'C', 'O', 'U', 'N', 'T'] then some .errcount
  else if name = ['C', 'L', 'R', 'E', 'R', 'R'] then some .clrerr
  else none

/-- The spellings of the read accessors (R220 to R225). -/
def ReadAccessor.spelling : ReadAccessor → Token
  | .rdU8 => ['R', 'D', '_', 'U', '8']
  | .rdS8 => ['R', 'D', '_', 'S', '8']
  | .rdU16 => ['R', 'D', '_', 'U', '1', '6']
  | .rdS16 => ['R', 'D', '_', 'S', '1', '6']
  | .rdU32 => ['R', 'D', '_', 'U', '3', '2']
  | .rdS32 => ['R', 'D', '_', 'S', '3', '2']

/-- The spellings of the write accessors (R226 to R231). -/
def WriteAccessor.spelling : WriteAccessor → Token
  | .wrU8 => ['W', 'R', '_', 'U', '8']
  | .wrS8 => ['W', 'R', '_', 'S', '8']
  | .wrU16 => ['W', 'R', '_', 'U', '1', '6']
  | .wrS16 => ['W', 'R', '_', 'S', '1', '6']
  | .wrU32 => ['W', 'R', '_', 'U', '3', '2']
  | .wrS32 => ['W', 'R', '_', 'S', '3', '2']

/-- The accessor lines `RD_… regaddr` and `WR_… regaddr, v` (R220 to R231). -/
def asmAccessor (name : Token) (ops : List Token) : Option Pseudo :=
  match [ReadAccessor.rdU8, .rdS8, .rdU16, .rdS16, .rdU32, .rdS32].find? fun a => a.spelling == name with
  | some a =>
    match ops with
    | [t] => (parseField 16 t).map (.rd a)
    | _ => none
  | none =>
    match [WriteAccessor.wrU8, .wrS8, .wrU16, .wrS16, .wrU32, .wrS32].find? fun a => a.spelling == name with
    | some a =>
      match ops with
      | [t, v] =>
        match parseField 16 t, parseInt v with
        | some ra, some n => some (.wr a ra n)
        | _, _ => none
      | _ => none
    | none => none

/-- The address-only, raw and typed lines (R232 to R235); a type is written as its size in bytes. -/
def asmForm (name : Token) (ops : List Token) : Option Pseudo :=
  match ops with
  | [] => none
  | a :: rest =>
    match parseField 16 a with
    | none => none
    | some ra =>
      if name = ['S', 'E', 'T', 'P', 'T', 'R'] then (parseNs rest).map (.setptr ra)
      else
        match rest with
        | [] => none
        | n :: rest' =>
          if name = ['W', 'R', 'I', 'T', 'E', '_', 'R', 'A', 'W'] then
            match parseField 16 n, parseNs rest' with
            | some k, some ns => some (.writeRaw ra k ns)
            | _, _ => none
          else if name = ['R', 'E', 'A', 'D', '_', 'R', 'A', 'W'] ∧ rest' = [] then
            (parseField 16 n).map (.readRaw ra)
          else if name = ['W', 'R', 'I', 'T', 'E', '_', 'V', 'A', 'L', 'U', 'E'] then
            match parseNat n, parseNs rest' with
            | some k, some ns => some (.writeValue ra k 1 ns)
            | _, _ => none
          else if name = ['R', 'E', 'A', 'D', '_', 'V', 'A', 'L', 'U', 'E'] ∧ rest' = [] then
            (parseNat n).map (.readValue ra)
          else none

/-- The host moves one line of assembler text stands for (R102, R103); `none` where the assembler refuses it. -/
def assemble (line : List Char) : Option (List HostMove) :=
  match tokensFrom line [] with
  | [] => none
  | name :: rest =>
    match operandsOf rest with
    | none => none
    | some ops =>
      match asmCommand name ops with
      | some i => some [commandMove i]
      | none =>
        match asmAccessor name ops with
        | some p => p.expand
        | none =>
          match asmForm name ops with
          | some p => p.expand
          | none => none

end Sys2Proof.Machine
end

