-- ==== Sys2Proof/Safety.lean ====
section
/-! DEFINITION. What counts as a safe state of the block and as a legal port trace, and the event lists a transfer must
emit: the terms the statements use. -/

namespace Sys2Proof.Machine

/-- Where a port trace stands (R95 to R99): outside a write transaction with `left` granted bytes not yet drained, or
inside one that has taken `taken` bytes. -/
inductive PortPhase where
  | closed (left : Nat)
  | writing (taken : Nat)
deriving DecidableEq, Repr

/-- The next phase, `none` where the event is not allowed. A transaction is bracketed by TxBegin and TxEnd (R95), takes at
most `C + 2` bytes (R126, R283); a request asks for 1 to `C` bytes (R98); RxRead follows only a request that was granted,
and all of the granted chunk is drained before anything else (R37, R99, R194). -/
def portNext (c : Nat) : PortPhase → Event → Option PortPhase
  | .closed 0, .txBegin _ => some (.writing 0)
  | .writing n, .txWrite _ => if n < c + 2 then some (.writing (n + 1)) else none
  | .writing _, .txEnd _ _ => some (.closed 0)
  | .closed 0, .rxRequest _ n avail =>
    if 1 ≤ n ∧ n ≤ c then some (.closed (if avail < n then 0 else n)) else none
  | .closed (k + 1), .rxRead _ => some (.closed k)
  | _, _ => none

/-- The phase after a trace, `none` if some event of it is not allowed. -/
def portRun (c : Nat) : PortPhase → List Event → Option PortPhase
  | p, [] => some p
  | p, e :: es =>
    match portNext c p e with
    | some q => portRun c q es
    | none => none

/-- The phase of the port after everything the block has emitted. -/
def State.portPhase (s : State) : Option PortPhase := portRun s.cfg.maxChunk (.closed 0) s.trace

/-- Every latch is inside the width R35 gives it. -/
def Latches.fits (q : Latches) : Prop :=
  q.m < 2 ^ 4 ∧ q.w < 2 ^ 4 ∧ q.l < 2 ^ 20 ∧ q.sent < 2 ^ 20 ∧ q.cl < 2 ^ 20 ∧ q.req < 2 ^ 20 ∧ q.idx < 2 ^ 20

/-- A legal effective element size (R120). -/
def legalSize (m : Nat) : Prop := m = 0 ∨ m = 1 ∨ m = 2 ∨ m = 4 ∨ m = 8

/-- The sizes of a running transfer: `L <= BUF_BYTES`, `L` and SENT multiples of `M`, SENT at most `L` (R21, R122). -/
def State.sized (s : State) : Prop :=
  legalSize s.seq.m ∧ s.seq.l ≤ s.cfg.bufBytes ∧ s.seq.m ∣ s.seq.l ∧ s.seq.sent ≤ s.seq.l ∧ s.seq.m ∣ s.seq.sent

/-- The chunk the sequencer is at: `CL` is the chunker's answer (R123, R136). -/
def State.chunked (s : State) : Prop :=
  s.seq.cl = chunkLen (s.seq.l - s.seq.sent) s.cfg.maxChunk s.seq.m

/-- A WRITE is running and has a chunk to send, or is the zero-length one (R139, R172). -/
def State.writing (s : State) : Prop :=
  s.desc ≠ none ∧ s.probe = false ∧ s.sized ∧ s.seq.kind = .w ∧ s.seq.w = s.seq.m ∧ (s.seq.sent < s.seq.l ∨ s.seq.l = 0)

/-- The address-set phase of a READ is running (R192). -/
def State.addressing (s : State) : Prop :=
  s.desc ≠ none ∧ s.probe = false ∧ s.sized ∧ s.seq.kind = .ra ∧ s.seq.w = wireWidth s.seq.m s.descr.wide ∧
    s.seq.sent = 0 ∧ s.seq.cl = 0 ∧ s.descr.regw ≠ .none

/-- The data phase of a READ is running (R193). -/
def State.reading (s : State) : Prop :=
  s.desc ≠ none ∧ s.probe = false ∧ s.sized ∧ s.seq.kind = .rd ∧ s.seq.w = wireWidth s.seq.m s.descr.wide

/-- The sequencer's latches agree with ST (R35, R136). -/
def State.seqInv (s : State) : Prop :=
  match s.seq.st with
  | .idle => s.probe = false
  | .planTx => s.writing
  | .txOpen => (s.writing ∧ s.chunked ∧ s.seq.idx = 0) ∨ s.addressing
  | .txAddr0 => ((s.writing ∧ s.chunked ∧ s.seq.idx = 0) ∨ s.addressing) ∧ s.descr.regw ≠ .none
  | .txAddr1 => ((s.writing ∧ s.chunked ∧ s.seq.idx = 0) ∨ s.addressing) ∧ s.descr.regw = .two
  | .txData => s.writing ∧ s.chunked ∧ s.seq.idx < s.seq.cl
  | .txClose => (s.desc ≠ none ∧ s.probe = true) ∨ (s.writing ∧ s.chunked) ∨ s.addressing
  | .planRx => s.reading
  | .rxReq => s.reading ∧ s.seq.sent < s.seq.l ∧ s.chunked ∧ s.seq.req = wireLen s.seq.w s.seq.cl ∧ s.seq.idx = 0
  | .rxDrain =>
    s.reading ∧ s.seq.sent < s.seq.l ∧ s.chunked ∧ s.seq.req = wireLen s.seq.w s.seq.cl ∧ s.seq.idx < s.seq.req

/-- The trace is legal and stands where ST says (R95 to R101, R136). -/
def State.portInv (s : State) : Prop :=
  match s.seq.st with
  | .txAddr0 => s.portPhase = some (.writing 0)
  | .txAddr1 => s.portPhase = some (.writing 1)
  | .txData => s.portPhase = some (.writing (s.descr.regw.bytes + s.seq.idx))
  | .txClose => ∃ n, s.portPhase = some (.writing n)
  | .rxDrain => s.portPhase = some (.closed (s.seq.req - s.seq.idx))
  | _ => s.portPhase = some (.closed 0)

/-- The result word's law (R93): the reset value, or success with cause NONE, or failure with a cause and value 0. -/
def Result.lawful (r : Result) : Prop :=
  r = Result.reset ∨ (r.ok = true ∧ r.cause = .none) ∨ (r.ok = false ∧ r.cause ≠ .none ∧ r.value = 0)

/-- The invariant of the machine: BUF is in canonical form and inside its range, ERRCNT is inside its width, RES is
lawful, every latch is inside its width, the latches agree with ST, the port trace is legal. -/
def State.Inv (s : State) : Prop :=
  Memory.wf s.buf = true ∧ bufInRange s.cfg s.buf = true ∧ s.errcnt < 2 ^ s.cfg.errcntW ∧ s.res.lawful ∧
    s.seq.fits ∧ s.seqInv ∧ s.portInv

/-- The events of one write transaction (R100). -/
def txEvents (d : Descriptor) (a : RegAddr) (payload : List Byte) (stop : Bool) (code : Nat) : List Event :=
  .txBegin d.busaddr :: ((addrPhase d a ++ payload).map .txWrite ++ [.txEnd stop code])

/-- The wire bytes of `n` BUF elements from element `j` on (R100, R130). -/
def elementBytes (s : State) (o : ByteOrder) (m j n : Nat) : List Byte :=
  (List.range n).flatMap fun i => marshal (s.bufElem (j + i) m) m o

/-- The write transactions of a chunk plan, the first starting at `sent` bytes, closed with the given codes (R139, R173).
One transaction per chunk that has a code. -/
def writeEvents (s : State) (d : Descriptor) (ra : RegAddr) (m : Nat) (stop : Bool) :
    Nat → List Nat → List Nat → List Event
  | sent, cl :: plan, code :: codes =>
    txEvents d (chunkAddr ra sent) (elementBytes s d.datalsb m (sent / m) (cl / m)) stop code ++
      writeEvents s d ra m stop (sent + cl) plan codes
  | _, _, _ => []

/-- The read transactions of a chunk plan whose requests were granted, on the given answers (R101, R193). -/
def readEvents (d : Descriptor) (w : Nat) : List Nat → List Nat → List Byte → List Event
  | cl :: plan, a :: avails, bs =>
    .rxRequest d.busaddr (wireLen w cl) a ::
      ((bs.take (wireLen w cl)).map .rxRead ++ readEvents d w plan avails (bs.drop (wireLen w cl)))
  | _, _, _ => []

/-- The address-set phase's events, none without a register address (R192). -/
def addressSetEvents (d : Descriptor) (ra : RegAddr) (code : Nat) : List Event :=
  if d.regw = .none then [] else txEvents d ra [] (!d.nostop.bit) code

/-- A failed transaction: a TxEnd that returned non-zero or a request answered short (R213). -/
def Event.failed : Event → Bool
  | .txEnd _ code => code != 0
  | .rxRequest _ n avail => avail < n
  | _ => false

/-- How many failed transactions a trace holds (R213). -/
def failures (es : List Event) : Nat := es.countP Event.failed

/-- The payload bytes handed over in a trace, `k` address bytes of the open transaction still to pass over: every
transaction starts with `n` of them (R100). -/
def sentPayloadFrom (n : Nat) : Nat → List Event → List Byte
  | _, [] => []
  | _, .txBegin _ :: es => sentPayloadFrom n n es
  | 0, .txWrite b :: es => b :: sentPayloadFrom n 0 es
  | k + 1, .txWrite _ :: es => sentPayloadFrom n k es
  | k, .txEnd _ _ :: es => sentPayloadFrom n k es
  | k, .rxRequest _ _ _ :: es => sentPayloadFrom n k es
  | k, .rxRead _ :: es => sentPayloadFrom n k es

/-- The payload bytes of a trace whose write transactions carry `n` address bytes each (R100). -/
def sentPayload (n : Nat) (es : List Event) : List Byte := sentPayloadFrom n n es

/-- Commands executed one after another; `none` where one of them stops (R62). -/
def execAll : List Instr → State → Option State
  | [], s => some s
  | i :: is, s =>
    match exec i s with
    | .next t => execAll is t
    | .fault _ => none
    | .refused _ => none

end Sys2Proof.Machine
end

