-- ==== Sys2Proof/Certificates/Slice0/Obligations.lean ====
section
/-! DEFINITION. The statements for the provers. In a completion statement the hypotheses are on the state and the operands
alone; where a transfer needs the Transport Port to answer, the answers stand in the state's port lists (assumption 4). -/

open Sys2Proof Sys2Proof.Machine

/-! ## Encoding -/

/-- R81 to R85: the decoder reads back every command the encoder writes, with every operand at every value. -/
def Obligations.DecodeOfEncode : Prop := ∀ i : Instr, decode (encode i) = .legal i

/-- R81 to R85: a word that decodes to a command is that command's only word. -/
def Obligations.EncodeOfDecode : Prop := ∀ (w : CommandWord) (i : Instr), decode w = .legal i → encode i = w

/-- R85: a word is the named command exactly when `(CW & mask) == match`; opcodes 0 and 8 to 15 are illegal, and so is the
all-zero word. -/
def Obligations.OpcodeMapMatchAndMask : Prop :=
  (∀ w : CommandWord, w &&& 0xFFFFFFFF00000000#64 = 0x1000000000000000#64 ↔ decode w = .legal (.configure (argField w))) ∧
  (∀ w : CommandWord, w &&& 0xFFFFFFFFFFFFFFFF#64 = 0x2000000000000000#64 ↔ decode w = .legal .release) ∧
  (∀ w : CommandWord, w &&& 0xF70F0000FFFF0000#64 = 0x3000000000000000#64 ↔
    decode w = .legal (.write (nsField w == 1) (esizeField w) (regaddrField w) (countField w))) ∧
  (∀ w : CommandWord, w &&& 0xFF0F0000FFFF0000#64 = 0x4000000000000000#64 ↔
    decode w = .legal (.read (esizeField w) (regaddrField w) (countField w))) ∧
  (∀ w : CommandWord, w &&& 0xFFFFFFFFFFFFFFFF#64 = 0x5000000000000000#64 ↔ decode w = .legal .probe) ∧
  (∀ w : CommandWord, w &&& 0xFFFFFFFFFFFFFFFF#64 = 0x6000000000000000#64 ↔ decode w = .legal .errcount) ∧
  (∀ w : CommandWord, w &&& 0xFFFFFFFFFFFFFFFF#64 = 0x7000000000000000#64 ↔ decode w = .legal .clrerr) ∧
  (∀ w : CommandWord, opField w = 0 ∨ 8 ≤ (opField w).toNat → decode w = .illegal (.reservedOpcode (opField w))) ∧
  decode 0 = .illegal (.reservedOpcode 0)

/-- R91 (a) and (b), R92, R94: the words that are no command. -/
def Obligations.IllegalWordsAreExactlyThese : Prop :=
  ∀ w : CommandWord,
    (∃ why, decode w = .illegal why) ↔
      (opField w = 0 ∨ 8 ≤ (opField w).toNat) ∨
      ((opField w = 3 ∨ opField w = 4) ∧ (z1Field w ≠ 0 ∨ z2Field w ≠ 0 ∨ argHighField w ≠ 0)) ∨
      (opField w = 4 ∧ nsField w ≠ 0) ∨
      (opField w = 1 ∧ w.extractLsb' 32 28 ≠ 0) ∨
      ((opField w = 2 ∨ opField w = 5 ∨ opField w = 6 ∨ opField w = 7) ∧ w.extractLsb' 0 60 ≠ 0)

/-- R81 to R85, R102: words written out from the encoding decode to the commands they stand for. -/
def Obligations.WrittenWordsDecode : Prop :=
  decodeTableWord 64 0x1000000000000148 = some (.configure 0x148) ∧
  decodeTableWord 64 0x2000000000000000 = some .release ∧
  decodeTableWord 64 0x3020001000000001 = some (.write false 2 0x10 1) ∧
  decodeTableWord 64 0x3800001000000000 = some (.write true 0 0x10 0) ∧
  decodeTableWord 64 0x408000F700000001 = some (.read 8 0xF7 1) ∧
  decodeTableWord 64 0x5000000000000000 = some .probe ∧
  decodeTableWord 64 0x6000000000000000 = some .errcount ∧
  decodeTableWord 64 0x7000000000000000 = some .clrerr ∧
  decodeTableWord 64 0x4810000000000001 = none

/-! ## The step -/

/-- R21, R80, R94: in IDLE a step executes the command the handed word decodes to; the word is consumed. The model's
stand-in for handing a word over (assumption 8) makes the next step run that word's command. -/
def Obligations.StepRunsDecodedCommand : Prop :=
  (∀ (s : State) (cw : CommandWord) (rest : List HostMove) (i : Instr),
    s.seq.st = .idle → s.host = .command cw :: rest → decode cw = .legal i →
      Sys2Proof.Machine.step s = exec i { s with host := rest }) ∧
  (∀ (s : State) (nbits w : Nat) (i : Instr), decodeTableWord nbits w = some i →
    Sys2Proof.Machine.step (s.withFetchWord nbits w) =
      exec i { s with seq := { s.seq with st := .idle } })

/-- R91 (a) and (b), R245: an illegal word ends with BAD_COMMAND, no event, and changes only RES. -/
def Obligations.IllegalWordAnsweredBadCommand : Prop :=
  ∀ (s : State) (cw : CommandWord) (rest : List HostMove) (why : IllegalWord),
    s.seq.st = .idle → s.host = .command cw :: rest → decode cw = .illegal why →
      Sys2Proof.Machine.step s =
        .next { s with host := rest, res := { ok := false, cause := .badCommand, value := 0 } }

/-- R270: the block does nothing until the host hands it a command. -/
def Obligations.IdleWithoutMoveDoesNothing : Prop :=
  ∀ s : State, s.seq.st = .idle → s.host = [] → Sys2Proof.Machine.step s = .next s

/-- R34, R52: a host store in IDLE writes that byte of BUF and no other; outside BUF there is no byte to write, which the
model answers with a fault (assumption 9). -/
def Obligations.HostStoreWritesOneByte : Prop :=
  ∀ (s : State) (a : Nat) (b : Byte) (rest : List HostMove),
    s.seq.st = .idle → s.host = .store a b :: rest →
      if a < s.cfg.bufBytes then
        ∃ t, Sys2Proof.Machine.step s = .next t ∧ bufGet t.buf a = some b ∧
          (∀ a', a' ≠ a → bufGet t.buf a' = bufGet s.buf a') ∧ t = { s with host := rest, buf := t.buf }
      else Sys2Proof.Machine.step s = .fault (.noSuchBufAddress a)

/-- R38: DESC, ERRCNT, RES and ST right after reset and after the reset input; the Transport Port is not reset. -/
def Obligations.ResetValues : Prop :=
  (State.reset.descWord = 0 ∧ State.reset.errcnt = 0 ∧ State.reset.res.ok = false ∧
    State.reset.res.cause.code = 0 ∧ State.reset.res.value = 0 ∧ State.reset.seq.st = .idle) ∧
  ∀ (s : State) (rest : List HostMove), s.seq.st = .idle → s.host = .reset :: rest →
    ∃ t, Sys2Proof.Machine.step s = .next t ∧ t.descWord = 0 ∧ t.errcnt = 0 ∧ t.res.ok = false ∧
      t.res.cause.code = 0 ∧ t.res.value = 0 ∧ t.seq.st = .idle ∧ t.port = s.port

/-- The model's choice for what R38 leaves unspecified (assumptions 2, 3, 14): after a reset no byte of BUF has a value and
what is unwritten is drawn anew, the latches stand at `Latches.reset`; the parameters, the trace and the host's later moves
stay. -/
def Obligations.ResetForgetsBuffer : Prop :=
  (∀ a, bufGet State.reset.buf a = none) ∧
  ∀ (s : State) (rest : List HostMove), s.seq.st = .idle → s.host = .reset :: rest →
    ∃ t, Sys2Proof.Machine.step s = .next t ∧ (∀ a, bufGet t.buf a = none) ∧ t.seq = Latches.reset ∧ t.cfg = s.cfg ∧
      t.trace = s.trace ∧ t.host = rest ∧ t.draws = s.draws + 1

/-- R52, R135, R136: while a command runs a step is one sequencer transition and the host has no move. -/
def Obligations.BusyStepIsOneTransition : Prop :=
  ∀ s : State, s.seq.st ≠ .idle → s.host.head? ≠ some .reset →
    Sys2Proof.Machine.step s = .next (seqStep s) ∧ (seqStep s).host = s.host

/-- R244: while the port does not answer, nothing changes. -/
def Obligations.WaitingChangesNothing : Prop :=
  ∀ s : State, s.waiting = true → s.host.head? ≠ some .reset → Sys2Proof.Machine.step s = .next s

/-- R135, R271, R280, U4, U14: outside IDLE a command handed over is refused, and so is a reset asked for. -/
def Obligations.BusyRefusesCommandAndReset : Prop :=
  (∀ (i : Instr) (s : State), s.seq.st ≠ .idle → exec i s = .refused .commandWhileBusy) ∧
  (∀ (s : State) (rest : List HostMove), s.seq.st ≠ .idle → s.host = .reset :: rest →
    Sys2Proof.Machine.step s = .refused .resetWhileBusy)

/-! ## CONFIGURE and RELEASE -/

/-- R160: CONFIGURE with a legal DFLAGS stores it with bit 31 forced to 1; an illegal one fails with DESC unchanged. Only
DESC and RES are written. -/
def Obligations.ConfigureStoresDescriptor : Prop :=
  encode (.configure 0x148) = 0x1000000000000148#64 ∧
  ∀ (f : Word32) (s : State), s.seq.st = .idle →
    if f.extractLsb' 7 1 ≠ 0 ∨ f.extractLsb' 15 16 ≠ 0 ∨ f.extractLsb' 8 2 = 3 ∨ f.extractLsb' 13 2 = 3 then
      exec (.configure f) s =
        .next { s with res := { ok := false, cause := .badCommand, value := 0 } }
    else
      ∃ d : Descriptor, d.word = 1#1 ++ f.extractLsb' 0 31 ∧
        exec (.configure f) s =
          .next { s with desc := some d, res := { ok := true, cause := .none, value := 0 } }

/-- R161: RELEASE clears DESC, never fails, writes only DESC and RES; after it, and after any later commands of which none
is a CONFIGURE, WRITE, READ and EXISTS fail fast. -/
def Obligations.ReleaseClearsDescriptor : Prop :=
  encode .release = 0x2000000000000000#64 ∧
  ∀ s : State, s.seq.st = .idle →
    ∃ t, exec .release s = .next t ∧
      t = { s with desc := none, res := { ok := true, cause := .none, value := 0 } } ∧ t.descWord = 0 ∧
      ∀ later : List Instr, (∀ f, Instr.configure f ∉ later) →
        ∃ u, execAll later t = some u ∧ u.descWord = 0 ∧
          (∀ ns e ra c, exec (.write ns e ra c) u =
            .next { u with res := { ok := false, cause := .notInitialized, value := 0 } }) ∧
          (∀ e ra c, exec (.read e ra c) u =
            .next { u with res := { ok := false, cause := .notInitialized, value := 0 } }) ∧
          exec .probe u = .next { u with res := { ok := false, cause := .notInitialized, value := 0 } }

/-- R162: DESC changes only in IDLE, by a reset, a RELEASE or a CONFIGURE with a legal DFLAGS. -/
def Obligations.SessionKeepsDescriptor : Prop :=
  ∀ s t : State, Sys2Proof.Machine.step s = .next t → t.desc ≠ s.desc →
    s.seq.st = .idle ∧
      (s.host.head? = some .reset ∨
        ∃ cw, s.host.head? = some (.command cw) ∧
          (decode cw = .legal .release ∨ ∃ f, decode cw = .legal (.configure f) ∧ legalDflags f = true))

/-- R23, R24, R31: DESC is 0 exactly when uninitialized; otherwise VALID is set, the reserved bits are clear and no
reserved field value stands in it. -/
def Obligations.DescriptorWordIsLegal : Prop :=
  ∀ s : State,
    (s.descWord = 0 ↔ s.desc = none) ∧
    (s.descWord = 0 ∨
      (s.descWord.getLsbD 31 = true ∧ s.descWord.extractLsb' 7 1 = 0 ∧ s.descWord.extractLsb' 15 16 = 0 ∧
        s.descWord.extractLsb' 8 2 ≠ 3 ∧ s.descWord.extractLsb' 13 2 ≠ 3))

/-- R23 to R31: the bits of the DESC word at which each field of a stored descriptor stands, and what they spell. R90,
R160 corner case (d): that word, VALID set, is a legal DFLAGS and stands for the same descriptor. -/
def Obligations.DescriptorWordReadsBack : Prop :=
  ∀ d : Descriptor,
    d.word.extractLsb' 0 7 = d.busaddr ∧ d.word.getLsbD 7 = false ∧
    d.word.extractLsb' 8 2 = (match d.regw with | .none => 0 | .one => 1 | .two => 2) ∧
    (d.word.getLsbD 10 = true ↔ d.reglsb = .lsbFirst) ∧ (d.word.getLsbD 11 = true ↔ d.datalsb = .lsbFirst) ∧
    (d.word.getLsbD 12 = true ↔ d.nostop = .noStop) ∧
    d.word.extractLsb' 13 2 = (match d.wide with | .plain => 0 | .signed24 => 1 | .unsigned24 => 2) ∧
    d.word.extractLsb' 15 16 = 0 ∧ d.word.getLsbD 31 = true ∧
    Descriptor.ofFlags d.word = some d

/-! ## EXISTS, ERRCOUNT, CLRERR -/

/-- R210: EXISTS with an answer: two events, RES by the code, ERRCNT and all else unchanged (`flag` is the model's own
field `probe`, left open here); uninitialized: no event. -/
def Obligations.ExistsReportsAnswer : Prop :=
  encode .probe = 0x5000000000000000#64 ∧
  (∀ (s : State) (d : Descriptor) (c : Nat) (cs : List Nat),
    s.seq.st = .idle → s.desc = some d → s.port.codes = c :: cs →
      ∃ flag : Bool, exec .probe s = .next { s with
        port := { s.port with codes := cs }
        trace := s.trace ++ [.txBegin d.busaddr, .txEnd true c]
        res := if c = 0 then { ok := true, cause := .none, value := 0 }
          else { ok := false, cause := .transactionError, value := 0 }
        probe := flag }) ∧
  (∀ s : State, s.seq.st = .idle → s.desc = none →
      exec .probe s = .next { s with res := { ok := false, cause := .notInitialized, value := 0 } })

/-- R244 for EXISTS, where the model waits in TX_CLOSE under its own flag (assumption 7): with no answer the transaction is
open, RES is not written, and the step that comes when an answer arrives ends the command. That the TxEnd which has not
returned is not in the trace is the model's too (assumption 5). -/
def Obligations.ExistsWaitsForAnswer : Prop :=
  ∀ (s : State) (d : Descriptor), s.seq.st = .idle → s.desc = some d → s.port.codes = [] →
    ∃ t, exec .probe s = .next t ∧ t.waiting = true ∧ t.res = s.res ∧ t.trace = s.trace ++ [.txBegin d.busaddr] ∧
      ∀ c cs, seqStep { t with port := { t.port with codes := c :: cs } } =
        { s with
          port := { s.port with codes := cs }
          trace := s.trace ++ [.txBegin d.busaddr, .txEnd true c]
          res := if c = 0 then { ok := true, cause := .none, value := 0 }
            else { ok := false, cause := .transactionError, value := 0 }
          probe := false }

/-- R211: ERRCOUNT puts the zero-extended counter into `RES.VALUE` and writes nothing else; under the counter's width the
value read is the counter. -/
def Obligations.ErrcountReadsCounter : Prop :=
  encode .errcount = 0x6000000000000000#64 ∧
  ∀ s : State, s.seq.st = .idle →
    ∃ v : Word32,
      exec .errcount s = .next { s with res := { ok := true, cause := .none, value := v } } ∧
      (s.errcnt < 2 ^ s.cfg.errcntW → v.toNat = s.errcnt)

/-- R212: CLRERR puts 0 into ERRCNT and writes only ERRCNT and RES; a following ERRCOUNT returns 0; every other command
leaves ERRCNT or counts it up by one, modulo `2^ERRCNT_W`. -/
def Obligations.ClrerrClearsCounter : Prop :=
  encode .clrerr = 0x7000000000000000#64 ∧
  (∀ s : State, s.seq.st = .idle →
    ∃ t, exec .clrerr s = .next t ∧
      t = { s with errcnt := 0, res := { ok := true, cause := .none, value := 0 } } ∧
      exec .errcount t = .next { t with res := { ok := true, cause := .none, value := 0 } }) ∧
  (∀ (i : Instr) (s t : State), exec i s = .next t → i ≠ .clrerr →
    t.errcnt = s.errcnt ∨ t.errcnt = (s.errcnt + 1) % 2 ^ s.cfg.errcntW)

/-- R141, R210, R246: a sequencer transition counts ERRCNT up exactly when it closes a WRITE chunk or an address-set phase with a
code other than 0 or a request is answered short; a closing EXISTS, which the model lets stand in TX_CLOSE under
its own flag (assumption 7), and every other transition leave it. -/
def Obligations.TransitionCountsFailedTransaction : Prop :=
  ∀ s : State,
    let failing := (s.seq.st = .txClose ∧ s.probe = false ∧ ∃ c cs, s.port.codes = c :: cs ∧ c ≠ 0) ∨
      (s.seq.st = .rxReq ∧ ∃ a as, s.port.avails = a :: as ∧ a < s.seq.req)
    (failing → (seqStep s).errcnt = (s.errcnt + 1) % 2 ^ s.cfg.errcntW) ∧ (¬ failing → (seqStep s).errcnt = s.errcnt)

/-- R213: every command but CLRERR and EXISTS adds the failed transactions it emitted to ERRCNT, modulo `2^ERRCNT_W`, and
emits at most one; EXISTS adds nothing. -/
def Obligations.CommandAddsItsFailures : Prop :=
  ∀ (i : Instr) (s t : State), s.errcnt < 2 ^ s.cfg.errcntW → exec i s = .next t → i ≠ .clrerr →
    ∃ es, t.trace = s.trace ++ es ∧
      (i ≠ .probe → failures es ≤ 1 ∧ t.errcnt = (s.errcnt + failures es) % 2 ^ s.cfg.errcntW) ∧
      (i = .probe → t.errcnt = s.errcnt)

/-! ## The pure functions -/

/-- R120: size 3 stands for 4, the other legal sizes for themselves, and no command tells 3 from 4. -/
def Obligations.EffectiveSize : Prop :=
  (∀ e : BitVec 4, effSize e =
    if e = 3 then some 4 else if e = 0 ∨ e = 1 ∨ e = 2 ∨ e = 4 ∨ e = 8 then some e.toNat else none) ∧
  (∀ ns ra c s, exec (.write ns 3 ra c) s = exec (.write ns 4 ra c) s) ∧
  (∀ ra c s, exec (.read 3 ra c) s = exec (.read 4 ra c) s)

/-- R58, R124: the chunk plan. -/
def Obligations.ChunkPlanLaws : Prop :=
  (∀ l c m : Nat, 8 ≤ c → legalSize m → m ∣ l →
    (chunkPlan l c m).sum = l ∧
    (∀ (k : Nat) (h : k < (chunkPlan l c m).length),
      (chunkPlan l c m)[k] = chunkLen (l - ((chunkPlan l c m).take k).sum) c m) ∧
    (∀ x ∈ chunkPlan l c m, 0 < x ∧ m ∣ x ∧ x ≤ c) ∧
    (∀ x ∈ (chunkPlan l c m).dropLast, x = c - c % max m 1) ∧
    (chunkPlan l c m).length = (l + (c - c % max m 1) - 1) / (c - c % max m 1) ∧
    writePlan l c m = if l = 0 then [0] else chunkPlan l c m) ∧
  chunkPlan 40 32 4 = [32, 8]

/-- R127: the address bytes of a write transaction. -/
def Obligations.AddressPhaseBytes : Prop :=
  (∀ (d : Descriptor) (a : RegAddr),
    (d.regw = .none → addrPhase d a = []) ∧
    (d.regw = .one → addrPhase d a = [a.extractLsb' 0 8]) ∧
    (d.regw = .two → d.reglsb = .msbFirst → addrPhase d a = [a.extractLsb' 8 8, a.extractLsb' 0 8]) ∧
    (d.regw = .two → d.reglsb = .lsbFirst → addrPhase d a = [a.extractLsb' 0 8, a.extractLsb' 8 8])) ∧
  (∀ d : Descriptor,
    addrPhase { d with regw := .two, reglsb := .msbFirst } 0x0128 = [0x01, 0x28] ∧
    addrPhase { d with regw := .two, reglsb := .lsbFirst } 0x0128 = [0x28, 0x01] ∧
    addrPhase { d with regw := .one } 0x0128 = [0x28])

/-- R128: the advanced address wraps at 16 bits, and at 8 bits where one address byte is sent. -/
def Obligations.AdvancedAddressWraps : Prop :=
  ∀ (d : Descriptor) (ra : RegAddr) (sent : Nat),
    (chunkAddr ra sent).toNat = (ra.toNat + sent) % 65536 ∧ chunkAddr ra 0 = ra ∧
    (d.regw = .one → (addrPhase d (chunkAddr ra sent)).map BitVec.toNat = [(ra.toNat + sent) % 256]) ∧
    (d.regw = .two → d.reglsb = .msbFirst → (addrPhase d (chunkAddr ra sent)).map BitVec.toNat =
      [(ra.toNat + sent) % 65536 / 256, (ra.toNat + sent) % 256]) ∧
    (d.regw = .two → d.reglsb = .lsbFirst → (addrPhase d (chunkAddr ra sent)).map BitVec.toNat =
      [(ra.toNat + sent) % 256, (ra.toNat + sent) % 65536 / 256])

/-- R132: Marshal and Unmarshal are inverse; so the value a READ takes from the bytes a WRITE makes of an element is the
element's, except for 4-byte elements under a wide descriptor. `WriteThenReadReturnsElements` says it of the commands. -/
def Obligations.MarshalRoundTrip : Prop :=
  (∀ (v m : Nat) (o : ByteOrder), v < 256 ^ m → unmarshal (marshal v m o) o = v) ∧
  (∀ (bs : List Byte) (o : ByteOrder), marshal (unmarshal bs o) bs.length o = bs) ∧
  (∀ (d : Descriptor) (v m : Nat), legalSize m → v < 256 ^ m → (m ≠ 4 ∨ d.wide = .plain) →
    receivedValue (wireWidth m d.wide) d (marshal v m d.datalsb) = v)

/-- R133: the 24-bit expansion, signed and unsigned, and the order of its three bytes. -/
def Obligations.WideExpansion : Prop :=
  (∀ w : BitVec 24,
    wide24 w .signed24 = w.signExtend 32 ∧
    (w.getLsbD 23 = true → (wide24 w .signed24).toNat = 0xFF000000 + w.toNat ∧
      (wide24 w .signed24).toInt = (w.toNat : Int) - 0x1000000) ∧
    (w.getLsbD 23 = false → (wide24 w .signed24).toNat = w.toNat ∧ (wide24 w .signed24).toInt = w.toNat) ∧
    wide24 w .unsigned24 = w.setWidth 32 ∧ (wide24 w .unsigned24).toNat = w.toNat) ∧
  (∀ (d : Descriptor) (b0 b1 b2 : Byte), d.wide ≠ .plain →
    receivedValue 3 d [b0, b1, b2] =
      (wide24 (if d.datalsb = .lsbFirst then b2 ++ b1 ++ b0 else b0 ++ b1 ++ b2) d.wide).toNat) ∧
  wide24 0xFF0000 .signed24 = 0xFFFF0000

/-- R131, R137: ACC, fed the bytes of an element one by one, holds their Unmarshal. -/
def Obligations.AccumulatorHoldsUnmarshal : Prop :=
  ∀ (o : ByteOrder) (bs : List Byte), bs.length ≤ 8 →
    (bs.zipIdx.foldl (fun acc p => absorbAcc o acc p.2 p.1) 0).toNat = unmarshal bs o

/-! ## Refusals of a transfer -/

/-- R241: an uninitialized block answers WRITE, READ and EXISTS with NOT_INITIALIZED, whatever the operands, without an
event; the other commands never do. -/
def Obligations.UninitializedFailsFast : Prop :=
  (∀ s : State, s.seq.st = .idle → s.desc = none →
    let t : State := { s with res := { ok := false, cause := .notInitialized, value := 0 } }
    (∀ ns e ra c, exec (.write ns e ra c) s = .next t) ∧ (∀ e ra c, exec (.read e ra c) s = .next t) ∧
      exec .probe s = .next t) ∧
  (∀ (i : Instr) (s t : State), exec i s = .next t →
    (i = .release ∨ i = .errcount ∨ i = .clrerr ∨ ∃ f, i = .configure f) → t.res.cause ≠ .notInitialized)

/-- R91 (c), (d), (e), R245, R252: an illegal operand of an initialized WRITE or READ, or of CONFIGURE, ends with
BAD_COMMAND, no event, and changes only RES. -/
def Obligations.IllegalOperandAnsweredBadCommand : Prop :=
  ∀ (i : Instr) (s : State), s.seq.st = .idle → i.wellFormed s.cfg = false →
    (s.desc ≠ none ∨ ∃ f, i = .configure f) →
      exec i s = .next { s with res := { ok := false, cause := .badCommand, value := 0 } }

/-! ## WRITE -/

/-- R139, R170, R173: a WRITE whose every transaction is closed with code 0. The payload is read from BUF as it stands,
an unwritten byte being a free value of this WRITE (assumption 3): the statement holds for every such value. -/
def Obligations.WriteSucceeds : Prop :=
  ∀ (s : State) (d : Descriptor) (ns : Bool) (e : BitVec 4) (ra : RegAddr) (c : BitVec 16) (m : Nat) (cs : List Nat),
    s.seq.st = .idle → s.desc = some d → effSize e = some m → m * c.toNat ≤ s.cfg.bufBytes →
    let plan := writePlan (m * c.toNat) s.cfg.maxChunk m
    s.port.codes = List.replicate plan.length 0 ++ cs →
      ∃ t, exec (.write ns e ra c) s = .next t ∧
        t.trace = s.trace ++
          writeEvents { s with draws := s.draws + 1 } d ra m (!ns) 0 plan (List.replicate plan.length 0) ∧
        t.res = { ok := true, cause := .none, value := 0 } ∧ t.seq.st = .idle ∧ t.probe = false ∧
        t.seq.sent = m * c.toNat ∧ t.errcnt = s.errcnt ∧ t.port = { s.port with codes := cs } ∧
        t.draws = s.draws + 1 ∧ t.cfg = s.cfg ∧ t.desc = s.desc ∧ t.buf = s.buf ∧ t.host = s.host

/-- R139, R174, R242: a WRITE whose chunk `k` is the first closed with a code other than 0: no event follows, ERRCNT counts
once, the chunks before it stand. -/
def Obligations.WriteStopsAtFirstFailure : Prop :=
  ∀ (s : State) (d : Descriptor) (ns : Bool) (e : BitVec 4) (ra : RegAddr) (c : BitVec 16) (m k code : Nat)
    (cs : List Nat),
    s.seq.st = .idle → s.desc = some d → effSize e = some m → m * c.toNat ≤ s.cfg.bufBytes →
    let plan := writePlan (m * c.toNat) s.cfg.maxChunk m
    k < plan.length → code ≠ 0 → s.port.codes = List.replicate k 0 ++ code :: cs →
      ∃ t, exec (.write ns e ra c) s = .next t ∧
        t.trace = s.trace ++
          writeEvents { s with draws := s.draws + 1 } d ra m (!ns) 0 plan (List.replicate k 0 ++ [code]) ∧
        t.res = { ok := false, cause := .transactionError, value := 0 } ∧ t.seq.st = .idle ∧ t.probe = false ∧
        t.seq.sent = (plan.take k).sum ∧ t.errcnt = (s.errcnt + 1) % 2 ^ s.cfg.errcntW ∧
        t.port = { s.port with codes := cs } ∧
        t.draws = s.draws + 1 ∧ t.cfg = s.cfg ∧ t.desc = s.desc ∧ t.buf = s.buf ∧ t.host = s.host

/-- R244 for WRITE: where the port gives fewer answers than there are chunks, the block stands in TX_CLOSE of the first
chunk without one, all its bytes handed over, RES not written. That the TxEnd which has not returned is not in the trace is
the model's (assumption 5, DEDUCED). -/
def Obligations.WriteWaitsForAnswer : Prop :=
  ∀ (s : State) (d : Descriptor) (ns : Bool) (e : BitVec 4) (ra : RegAddr) (c : BitVec 16) (m k : Nat),
    s.seq.st = .idle → s.desc = some d → effSize e = some m → m * c.toNat ≤ s.cfg.bufBytes →
    let plan := writePlan (m * c.toNat) s.cfg.maxChunk m
    k < plan.length → s.port.codes = List.replicate k 0 →
      ∃ t, exec (.write ns e ra c) s = .next t ∧ t.seq.st = .txClose ∧ t.waiting = true ∧ t.res = s.res ∧
        t.errcnt = s.errcnt ∧ t.seq.sent = (plan.take k).sum ∧
        t.trace ++ [.txEnd (!ns) 0] = s.trace ++
          writeEvents { s with draws := s.draws + 1 } d ra m (!ns) 0 plan (List.replicate (k + 1) 0)

/-- R172: a WRITE of length 0 is exactly one transaction, address phase and no payload, and ends by its one code; without
a register address that is TxBegin, TxEnd. -/
def Obligations.ZeroLengthWrite : Prop :=
  ∀ (s : State) (d : Descriptor) (ns : Bool) (e : BitVec 4) (ra : RegAddr) (c : BitVec 16) (m code : Nat)
    (cs : List Nat),
    s.seq.st = .idle → s.desc = some d → effSize e = some m → m * c.toNat = 0 → s.port.codes = code :: cs →
      ∃ t, exec (.write ns e ra c) s = .next t ∧
        t.trace = s.trace ++ (.txBegin d.busaddr :: ((addrPhase d ra).map .txWrite ++ [.txEnd (!ns) code])) ∧
        (d.regw = .none → t.trace = s.trace ++ [.txBegin d.busaddr, .txEnd (!ns) code]) ∧
        t.res = (if code = 0 then { ok := true, cause := .none, value := 0 }
          else { ok := false, cause := .transactionError, value := 0 }) ∧
        t.errcnt = (if code = 0 then s.errcnt else (s.errcnt + 1) % 2 ^ s.cfg.errcntW) ∧
        t.seq.st = .idle ∧ t.port = { s.port with codes := cs } ∧ t.buf = s.buf ∧ t.desc = s.desc

/-- R29, R175: what a WRITE does never depends on `DESC.WIDE` or `DESC.NOSTOP`. -/
def Obligations.WriteIgnoresWideAndNostop : Prop :=
  ∀ (s : State) (d : Descriptor) (wide : WideMode) (nostop : StopPolicy) (ns : Bool) (e : BitVec 4) (ra : RegAddr)
    (c : BitVec 16), s.seq.st = .idle → s.desc = some d →
    ∃ t, exec (.write ns e ra c) s = .next t ∧
      exec (.write ns e ra c) { s with desc := some { d with wide := wide, nostop := nostop } } =
        .next { t with desc := some { d with wide := wide, nostop := nostop } }

/-- R170: what a WRITE leaves unchanged, in every outcome: BUF, DESC, the parameters, the host's moves, the port's other
answers, and the latches of the read path. -/
def Obligations.WriteFrame : Prop :=
  ∀ (ns : Bool) (e : BitVec 4) (ra : RegAddr) (c : BitVec 16) (s t : State), exec (.write ns e ra c) s = .next t →
    t.buf = s.buf ∧ t.desc = s.desc ∧ t.cfg = s.cfg ∧ t.host = s.host ∧ t.port.avails = s.port.avails ∧
      t.port.bytes = s.port.bytes ∧ t.seq.req = s.seq.req ∧ t.seq.acc = s.seq.acc

/-! ## READ -/

/-- R190 to R196: a READ whose address-set phase (if there is one) is closed with 0 and whose every request is granted.
`bs` are the bytes drained. Byte `k` of element `i` lies at BUF address `i*M + k` and is bits `8k+7 : 8k` of the element's
value (R51, R53). -/
def Obligations.ReadSucceeds : Prop :=
  ∀ (s : State) (d : Descriptor) (e : BitVec 4) (ra : RegAddr) (c : BitVec 16) (m : Nat) (cs as rest : List Nat)
    (bs more : List Byte),
    s.seq.st = .idle → s.desc = some d → effSize e = some m → m * c.toNat ≤ s.cfg.bufBytes →
    let w := wireWidth m d.wide
    let plan := chunkPlan (m * c.toNat) s.cfg.maxChunk m
    s.port.codes = (if d.regw = .none then cs else 0 :: cs) →
    s.port.avails = as ++ rest → List.Forall₂ (fun cl a => wireLen w cl ≤ a) plan as →
    s.port.bytes = bs ++ more → bs.length = w * c.toNat →
      ∃ t, exec (.read e ra c) s = .next t ∧
        (∀ i < c.toNat, t.bufElem i m = receivedValue w d ((bs.drop (w * i)).take w) ∧
          ∀ k < m, bufGet t.buf (i * m + k) =
            some (BitVec.ofNat 8 (receivedValue w d ((bs.drop (w * i)).take w) / 2 ^ (8 * k)))) ∧
        (∀ a, m * c.toNat ≤ a → bufGet t.buf a = bufGet s.buf a) ∧
        t.trace = s.trace ++ (addressSetEvents d ra 0 ++ readEvents d w plan as bs) ∧
        t.res = { ok := true, cause := .none, value := 0 } ∧ t.seq.st = .idle ∧ t.probe = false ∧
        t.seq.sent = m * c.toNat ∧ t.errcnt = s.errcnt ∧
        t.port = { codes := cs, avails := rest, bytes := more } ∧
        t.draws = s.draws ∧ t.cfg = s.cfg ∧ t.desc = s.desc ∧ t.host = s.host

/-- R192, R242: a READ whose address-set phase is closed with a code other than 0: no request, BUF unchanged, ERRCNT counts
once. -/
def Obligations.ReadStopsAtAddressSet : Prop :=
  ∀ (s : State) (d : Descriptor) (e : BitVec 4) (ra : RegAddr) (c : BitVec 16) (m code : Nat) (cs : List Nat),
    s.seq.st = .idle → s.desc = some d → effSize e = some m → m * c.toNat ≤ s.cfg.bufBytes →
    d.regw ≠ .none → code ≠ 0 → s.port.codes = code :: cs →
      ∃ t, exec (.read e ra c) s = .next t ∧
        t.trace = s.trace ++
          (.txBegin d.busaddr :: ((addrPhase d ra).map .txWrite ++ [.txEnd (decide (d.nostop = .stop)) code])) ∧
        t.res = { ok := false, cause := .transactionError, value := 0 } ∧ t.seq.st = .idle ∧
        t.errcnt = (s.errcnt + 1) % 2 ^ s.cfg.errcntW ∧ t.port = { s.port with codes := cs } ∧
        t.buf = s.buf ∧ t.desc = s.desc ∧ t.cfg = s.cfg ∧ t.host = s.host ∧ t.draws = s.draws

/-- R194, R198, R243: a READ whose request of chunk `k` is the first answered short: none of its bytes is drained, the
elements of the chunks before it hold the values read, every other byte of BUF is unchanged, ERRCNT counts once. -/
def Obligations.ReadStopsAtShortAnswer : Prop :=
  ∀ (s : State) (d : Descriptor) (e : BitVec 4) (ra : RegAddr) (c : BitVec 16) (m k a : Nat) (cs as rest : List Nat)
    (bs more : List Byte),
    s.seq.st = .idle → s.desc = some d → effSize e = some m → m * c.toNat ≤ s.cfg.bufBytes →
    let w := wireWidth m d.wide
    let plan := chunkPlan (m * c.toNat) s.cfg.maxChunk m
    let done := (plan.take k).sum
    s.port.codes = (if d.regw = .none then cs else 0 :: cs) →
    ∀ hk : k < plan.length, a < wireLen w plan[k] →
    s.port.avails = as ++ a :: rest → List.Forall₂ (fun cl x => wireLen w cl ≤ x) (plan.take k) as →
    s.port.bytes = bs ++ more → bs.length = w * (done / m) →
      ∃ t, exec (.read e ra c) s = .next t ∧
        (∀ i < done / m, t.bufElem i m = receivedValue w d ((bs.drop (w * i)).take w)) ∧
        (∀ x, done ≤ x → bufGet t.buf x = bufGet s.buf x) ∧
        t.trace = s.trace ++ (addressSetEvents d ra 0 ++ (readEvents d w (plan.take k) as bs ++
          [.rxRequest d.busaddr (wireLen w plan[k]) a])) ∧
        t.res = { ok := false, cause := .shortTransfer, value := 0 } ∧ t.seq.st = .idle ∧ t.seq.sent = done ∧
        t.errcnt = (s.errcnt + 1) % 2 ^ s.cfg.errcntW ∧ t.port = { codes := cs, avails := rest, bytes := more } ∧
        t.draws = s.draws ∧ t.cfg = s.cfg ∧ t.desc = s.desc ∧ t.host = s.host

/-- R244 for READ, where the port does not answer the TxEnd of the address-set phase, then the request of chunk `k`, then
an RxRead of chunk `k` after the bytes `part` of it: the block waits with RES and ERRCNT as they were, having emitted and
stored exactly what the answers allow; an element is stored when its last byte has come (R137). That the event of the call
which has not returned is not in the trace is the model's (assumption 5, DEDUCED). -/
def Obligations.ReadWaitsForAnswer : Prop :=
  ∀ (s : State) (d : Descriptor) (e : BitVec 4) (ra : RegAddr) (c : BitVec 16) (m : Nat),
    s.seq.st = .idle → s.desc = some d → effSize e = some m → m * c.toNat ≤ s.cfg.bufBytes →
    let w := wireWidth m d.wide
    let plan := chunkPlan (m * c.toNat) s.cfg.maxChunk m
    (d.regw ≠ .none → s.port.codes = [] →
      ∃ t, exec (.read e ra c) s = .next t ∧ t.seq.st = .txClose ∧ t.waiting = true ∧ t.res = s.res ∧
        t.errcnt = s.errcnt ∧ t.buf = s.buf ∧ t.port = s.port ∧
        t.trace = s.trace ++ (.txBegin d.busaddr :: (addrPhase d ra).map .txWrite)) ∧
    (∀ (k : Nat) (cs as : List Nat) (bs more : List Byte), k < plan.length →
      let done := (plan.take k).sum
      s.port.codes = (if d.regw = .none then cs else 0 :: cs) →
      s.port.avails = as → List.Forall₂ (fun cl a => wireLen w cl ≤ a) (plan.take k) as →
      s.port.bytes = bs ++ more → bs.length = w * (done / m) →
        ∃ t, exec (.read e ra c) s = .next t ∧ t.seq.st = .rxReq ∧ t.waiting = true ∧ t.res = s.res ∧
          t.errcnt = s.errcnt ∧ t.seq.sent = done ∧
          (∀ i < done / m, t.bufElem i m = receivedValue w d ((bs.drop (w * i)).take w)) ∧
          (∀ x, done ≤ x → bufGet t.buf x = bufGet s.buf x) ∧
          t.trace = s.trace ++ (addressSetEvents d ra 0 ++ readEvents d w (plan.take k) as bs) ∧
          t.port = { codes := cs, avails := [], bytes := more }) ∧
    (∀ (k a : Nat) (cs as rest : List Nat) (bs part : List Byte) (hk : k < plan.length),
      let done := (plan.take k).sum
      s.port.codes = (if d.regw = .none then cs else 0 :: cs) →
      s.port.avails = as ++ a :: rest → List.Forall₂ (fun cl x => wireLen w cl ≤ x) (plan.take k) as →
      wireLen w plan[k] ≤ a → s.port.bytes = bs ++ part → bs.length = w * (done / m) →
      part.length < wireLen w plan[k] →
        ∃ t, exec (.read e ra c) s = .next t ∧ t.seq.st = .rxDrain ∧ t.waiting = true ∧ t.res = s.res ∧
          t.errcnt = s.errcnt ∧ t.seq.sent = done ∧ t.seq.idx = part.length ∧
          (∀ i < done / m + part.length / w,
            t.bufElem i m = receivedValue w d (((bs ++ part).drop (w * i)).take w)) ∧
          (∀ x, m * (done / m + part.length / w) ≤ x → bufGet t.buf x = bufGet s.buf x) ∧
          t.trace = s.trace ++ (addressSetEvents d ra 0 ++ (readEvents d w (plan.take k) as bs ++
            (.rxRequest d.busaddr (wireLen w plan[k]) a :: part.map .rxRead))) ∧
          t.port = { codes := cs, avails := rest, bytes := [] })

/-- R132 at command level: a WRITE that succeeds, then a READ of the same size and count under the same DESC to which the
port gives back the payload bytes the WRITE sent, stores the elements that were sent, whatever BUF holds by then; except
for 4-byte elements under a wide descriptor. A BUF byte never written is sent as a free value (assumption 3). -/
def Obligations.WriteThenReadReturnsElements : Prop :=
  ∀ (s : State) (d : Descriptor) (ns : Bool) (e : BitVec 4) (ra : RegAddr) (c : BitVec 16) (m : Nat)
    (cs as rest : List Nat),
    s.seq.st = .idle → s.desc = some d → effSize e = some m → m * c.toNat ≤ s.cfg.bufBytes →
    (m ≠ 4 ∨ d.wide = .plain) →
    s.port.codes = List.replicate (writePlan (m * c.toNat) s.cfg.maxChunk m).length 0 ++
      (if d.regw = .none then cs else 0 :: cs) →
    s.port.avails = as ++ rest →
    List.Forall₂ (fun cl a => cl ≤ a) (chunkPlan (m * c.toNat) s.cfg.maxChunk m) as →
      ∃ t es, exec (.write ns e ra c) s = .next t ∧ t.trace = s.trace ++ es ∧
        ∀ (buf : List Host.Cell) (more : List Byte),
          ∃ u, exec (.read e ra c)
              { t with buf := buf, port := { t.port with bytes := sentPayload d.regw.bytes es ++ more } } = .next u ∧
            u.res = { ok := true, cause := .none, value := 0 } ∧
            ∀ i < c.toNat, u.bufElem i m = ({ s with draws := s.draws + 1 } : State).bufElem i m

/-- R197: a READ of length 0 makes no request: with a register address it is the address-set phase alone, without one it
emits nothing; it succeeds with BUF unchanged, and is on the wire the WRITE of SETPTR with the descriptor's stop policy. -/
def Obligations.ZeroLengthRead : Prop :=
  ∀ (s : State) (d : Descriptor) (e : BitVec 4) (ra : RegAddr) (c : BitVec 16) (m : Nat) (cs : List Nat),
    s.seq.st = .idle → s.desc = some d → effSize e = some m → m * c.toNat = 0 →
    s.port.codes = (if d.regw = .none then cs else 0 :: cs) →
      ∃ t, exec (.read e ra c) s = .next t ∧ t.res = { ok := true, cause := .none, value := 0 } ∧
        t.seq.st = .idle ∧ t.buf = s.buf ∧ t.port = { s.port with codes := cs } ∧ t.errcnt = s.errcnt ∧
        (d.regw = .none → t.trace = s.trace) ∧
        (d.regw ≠ .none → ∃ u, exec (.write (decide (d.nostop = .noStop)) 0 ra 0) s = .next u ∧ t.trace = u.trace ∧
          t.trace = s.trace ++
            (.txBegin d.busaddr :: ((addrPhase d ra).map .txWrite ++ [.txEnd (decide (d.nostop = .stop)) 0])))

/-- R190, R198: what a READ leaves unchanged, in every outcome: DESC, the parameters, the host's moves, and every byte of
BUF outside the elements `0 .. COUNT-1` it may store. -/
def Obligations.ReadFrame : Prop :=
  ∀ (e : BitVec 4) (ra : RegAddr) (c : BitVec 16) (s t : State), exec (.read e ra c) s = .next t →
    (∀ a, (∀ m, effSize e = some m → m * c.toNat ≤ a) → bufGet t.buf a = bufGet s.buf a) ∧
      t.desc = s.desc ∧ t.cfg = s.cfg ∧ t.host = s.host ∧ t.draws = s.draws

/-! ## The sequencer refines the pseudocode -/

/-- D25, R136, R139: what WRITE does in one step is what a number of sequencer transitions do from its acceptance, to the
state in which it has ended or waits for the port. -/
def Obligations.WriteIsSequencerRun : Prop :=
  ∀ (s : State) (d : Descriptor) (ns : Bool) (e : BitVec 4) (ra : RegAddr) (c : BitVec 16) (m : Nat),
    s.seq.st = .idle → s.desc = some d → effSize e = some m → m * c.toNat ≤ s.cfg.bufBytes →
      ∃ n t, exec (.write ns e ra c) s = .next t ∧ seqRun n (acceptWrite s ns ra m (m * c.toNat)) = t ∧
        (t.seq.st = .idle ∨ t.waiting = true)

/-- D25, R136, R190: what READ does in one step is what a number of sequencer transitions do from its acceptance, to the
state in which it has ended or waits for the port. -/
def Obligations.ReadIsSequencerRun : Prop :=
  ∀ (s : State) (d : Descriptor) (e : BitVec 4) (ra : RegAddr) (c : BitVec 16) (m : Nat),
    s.seq.st = .idle → s.desc = some d → effSize e = some m → m * c.toNat ≤ s.cfg.bufBytes →
      ∃ n t, exec (.read e ra c) s = .next t ∧ seqRun n (acceptRead s ra m (m * c.toNat)) = t ∧
        (t.seq.st = .idle ∨ t.waiting = true)

/-- R129, R135, R136, R140: the exact events of a transition: one in each state that emits, with the port's answer where the
event has one, none in the other states. Two points of it are the model's, not those rules': while the port does not answer
a transition emits nothing, the event standing in the trace only once the call has returned (assumption 5, DEDUCED from
R244); and an EXISTS that waits stands in TX_CLOSE under the flag `probe`, a row R136 does not have (assumption 7, DESIGN
CHOICE), its TxEnd carrying the `true` of R210. -/
def Obligations.TransitionEmitsItsEvent : Prop :=
  ∀ s : State,
    (seqStep s).trace = s.trace ++
      match s.seq.st with
      | .idle => []
      | .planTx => []
      | .txOpen => [.txBegin s.descr.busaddr]
      | .txAddr0 => [.txWrite ((addrPhase s.descr (chunkAddr s.seq.ra s.seq.sent)).getD 0 0)]
      | .txAddr1 => [.txWrite ((addrPhase s.descr (chunkAddr s.seq.ra s.seq.sent)).getD 1 0)]
      | .txData => [.txWrite ((marshal (s.bufElem ((s.seq.sent + s.seq.idx) / s.seq.m) s.seq.m) s.seq.m
          s.descr.datalsb).getD (s.seq.idx % s.seq.m) 0)]
      | .txClose =>
        match s.port.codes with
        | [] => []
        | code :: _ => [.txEnd (if s.probe then true else s.seq.stopf) code]
      | .planRx => []
      | .rxReq =>
        match s.port.avails with
        | [] => []
        | avail :: _ => [.rxRequest s.descr.busaddr s.seq.req avail]
      | .rxDrain =>
        match s.port.bytes with
        | [] => []
        | b :: _ => [.rxRead b]

/-- R33, R93, R244: from IDLE every command answers a next state: either the command has ended and RES obeys the result
word's law, or it waits for the port with RES not yet written. -/
def Obligations.CommandEndsOrWaits : Prop :=
  ∀ (i : Instr) (s : State), s.seq.st = .idle →
    ∃ t, exec i s = .next t ∧
      ((t.seq.st = .idle ∧
          ((t.res.ok = true ∧ t.res.cause = .none) ∨
            (t.res.ok = false ∧ t.res.cause ≠ .none ∧ t.res.value = 0)) ∧
          (i ≠ .errcount → t.res.value = 0)) ∨
        (t.waiting = true ∧ t.res = s.res))

/-- R33, R93, R240: the packed result word, the cause codes, and when the host may read it. R34, R52, R64: in IDLE the host
reads of a BUF address the byte stored there, and nothing outside BUF or while a command runs; of a byte nothing has
written it reads some byte, a free value (assumption 3). -/
def Obligations.PackedResultWord : Prop :=
  (∀ r : Result, r.packed.getLsbD 35 = r.ok ∧ r.packed.extractLsb' 32 3 = r.cause.code ∧
    r.packed.extractLsb' 0 32 = r.value) ∧
  Cause.none.code = 0 ∧ Cause.notInitialized.code = 1 ∧ Cause.transactionError.code = 2 ∧
  Cause.shortTransfer.code = 3 ∧ Cause.badCommand.code = 4 ∧ Result.reset.packed = 0 ∧
  (∀ s : State, (s.seq.st = .idle → s.hostReadRes = some s.res.packed) ∧ (s.seq.st ≠ .idle → s.hostReadRes = none)) ∧
  ∀ (s : State) (a : Nat),
    (s.seq.st = .idle → a < s.cfg.bufBytes →
      (∀ b, bufGet s.buf a = some b → s.hostReadBuf a = some b) ∧ ∃ b, s.hostReadBuf a = some b) ∧
    (s.seq.st ≠ .idle ∨ s.cfg.bufBytes ≤ a → s.hostReadBuf a = none)

/-! ## Invariants -/

/-- The invariant (BUF canonical and in range, ERRCNT in its width, RES lawful, latches in their widths and in agreement
with ST, the port trace legal: R32, R34, R35, R93, R95 to R101, R126, R136) is kept by every step. Its trace is the model's:
the events of all commands since State.reset (assumption 14), a call that has not returned not among them (assumption 5);
so is the flag under which an EXISTS stands in TX_CLOSE (assumption 7). -/
def Obligations.StepKeepsInvariant : Prop :=
  ∀ s t : State, s.Inv → Sys2Proof.Machine.step s = .next t → t.Inv

/-- The invariant holds after reset, for every configuration. -/
def Obligations.ResetHasInvariant : Prop := State.reset.Inv ∧ ∀ p, (State.resetWith p).Inv

/-- BUF keeps its canonical form under every step, from every state. -/
def Obligations.StepKeepsCanonicalBuf : Prop :=
  ∀ s t : State, Memory.wf s.buf = true → Sys2Proof.Machine.step s = .next t → Memory.wf t.buf = true

/-- R7: a step never changes the parameters. It only adds to the trace; that the trace runs over all commands, and that not
even the reset input empties it, is the model's (assumption 14, DESIGN CHOICE: R10's trace is one command's). -/
def Obligations.StepOnlyAddsEvents : Prop :=
  ∀ s t : State, Sys2Proof.Machine.step s = .next t → t.cfg = s.cfg ∧ ∃ es, t.trace = s.trace ++ es

/-! ## Pseudo-instructions and assembler -/

/-- R226 to R231, row by row: a write accessor with its size in bytes and the range of its values. A value in range is
stored as its two's complement bytes from BUF address 0 on, least significant first, and the one-element WRITE with NS = 0
is handed over; out of range it has no expansion. -/
def Obligations.WriteAccessorExpands : Prop :=
  ∀ row ∈ ([(.wrU8, 1, 0, 255), (.wrS8, 1, -128, 127), (.wrU16, 2, 0, 65535), (.wrS16, 2, -32768, 32767),
      (.wrU32, 4, 0, 4294967295), (.wrS32, 4, -2147483648, 2147483647)] :
      List (WriteAccessor × BitVec 4 × Int × Int)),
    ∀ (ra : RegAddr) (v : Int),
      (row.2.2.1 ≤ v ∧ v ≤ row.2.2.2 →
        ∃ bs : List Byte, bs.length = row.2.1.toNat ∧ (ofBytesLE bs : Int) = v % 2 ^ (8 * row.2.1.toNat) ∧
          (Pseudo.wr row.1 ra v).expand =
            some ((bs.zipIdx.map fun p => .store p.2 p.1) ++ [.command (encode (.write false row.2.1 ra 1))])) ∧
      (¬ (row.2.2.1 ≤ v ∧ v ≤ row.2.2.2) → (Pseudo.wr row.1 ra v).expand = none)

/-- R220 to R225, row by row: a read accessor with its size in bytes and whether it is signed. It is the one-element READ,
and its value is element 0 of BUF, zero-extended or read as two's complement. -/
def Obligations.ReadAccessorValue : Prop :=
  ∀ row ∈ ([(.rdU8, 1, false), (.rdS8, 1, true), (.rdU16, 2, false), (.rdS16, 2, true), (.rdU32, 4, false),
      (.rdS32, 4, true)] : List (ReadAccessor × BitVec 4 × Bool)),
    ∀ (ra : RegAddr) (s : State),
      (Pseudo.rd row.1 ra).expand = some [.command (encode (.read row.2.1 ra 1))] ∧
      (row.2.2 = false → (row.1.value s).toNat = s.bufElem 0 row.2.1.toNat) ∧
      (row.2.2 = true → (row.1.value s).toInt =
        if s.bufElem 0 row.2.1.toNat < 2 ^ (8 * row.2.1.toNat - 1) then (s.bufElem 0 row.2.1.toNat : Int)
        else (s.bufElem 0 row.2.1.toNat : Int) - 2 ^ (8 * row.2.1.toNat))

/-- R232 to R236: the rows of the source's call surface (typed, raw, implicit size) and the address-only, raw and typed
forms become the command of the same total length, with the stop flag inverted; what no row covers, a COUNT that does not
fit its 16 bits among it (assumption 16), has no command. -/
def Obligations.SourceCallBecomesTriple : Prop :=
  (∀ (ra : RegAddr) (natural size : Nat) (useStop : Bool), 1 < natural →
    (((size = 1 ∨ size = 2 ∨ size = 3 ∨ size = 4 ∨ size = 8) ∧ size ∣ natural ∧ natural / size < 65536) →
      ∃ (e : BitVec 4) (c : BitVec 16), e.toNat = size ∧ size * c.toNat = natural ∧
        sourceWrite ra natural (some size) useStop = some (.write (!useStop) e ra c) ∧
        sourceRead ra natural (some size) = some (.read e ra c)) ∧
    (¬ ((size = 1 ∨ size = 2 ∨ size = 3 ∨ size = 4 ∨ size = 8) ∧ size ∣ natural ∧ natural / size < 65536) →
      sourceWrite ra natural (some size) useStop = none ∧ sourceRead ra natural (some size) = none)) ∧
  (∀ (ra : RegAddr) (n : BitVec 16) (useStop : Bool),
    sourceWrite ra 1 (some n.toNat) useStop = some (.write (!useStop) 1 ra n) ∧
    sourceRead ra 1 (some n.toNat) = some (.read 1 ra n) ∧
    (Pseudo.writeRaw ra n (!useStop)).expand = some [.command (encode (.write (!useStop) 1 ra n))] ∧
    (Pseudo.readRaw ra n).expand = some [.command (encode (.read 1 ra n))] ∧
    (Pseudo.setptr ra (!useStop)).expand = some [.command (encode (.write (!useStop) 0 ra 0))]) ∧
  (∀ (ra : RegAddr) (size : Nat) (useStop : Bool), 65536 ≤ size →
    sourceWrite ra 1 (some size) useStop = none ∧ sourceRead ra 1 (some size) = none) ∧
  (∀ (ra : RegAddr) (e : BitVec 4) (k : BitVec 16) (useStop : Bool), e = 1 ∨ e = 2 ∨ e = 4 ∨ e = 8 →
    sourceWrite ra e.toNat none useStop = some (.write (!useStop) e ra 1) ∧
    sourceRead ra e.toNat none = some (.read e ra 1) ∧
    (Pseudo.writeValue ra e.toNat k (!useStop)).expand = some [.command (encode (.write (!useStop) e ra k))] ∧
    (Pseudo.readValue ra e.toNat).expand = some [.command (encode (.read e ra 1))]) ∧
  (∀ (ra : RegAddr) (size : Nat) (k : BitVec 16) (useStop : Bool),
    size ≠ 1 ∧ size ≠ 2 ∧ size ≠ 4 ∧ size ≠ 8 →
      sourceWrite ra size none useStop = none ∧ sourceRead ra size none = none ∧
      (Pseudo.writeValue ra size k (!useStop)).expand = none ∧ (Pseudo.readValue ra size).expand = none)

/-- R102, R232: lines of assembler text become the words the spec gives for them. -/
def Obligations.AssembledLines : Prop :=
  assemble ['W', 'R', 'I', 'T', 'E', ' ', '0', 'x', '1', '0', ',', ' ', '2', ',', ' ', '1'] =
    some [.command 0x3020001000000001] ∧
  assemble ['C', 'O', 'N', 'F', 'I', 'G', 'U', 'R', 'E', ' ', '0', 'x', '4', '8', ',', ' ', 'R', 'E', 'G', '1'] =
    some [.command 0x1000000000000148] ∧
  assemble ['S', 'E', 'T', 'P', 'T', 'R', ' ', '0', 'x', '1', '0', ',', ' ', 'N', 'S'] =
    some [.command 0x3800001000000000]
end

