-- ==== Sys2Proof/Laws/State.lean ====
section
/-! SUPPORT. One lemma per field per named update of the state, each true by rfl, so that no proof unfolds an update. -/

namespace Sys2Proof.Machine

@[simp] theorem State.emit_cfg (s : State) (es : List Event) :
    (s.emit es).cfg = s.cfg := rfl

@[simp] theorem State.emit_desc (s : State) (es : List Event) :
    (s.emit es).desc = s.desc := rfl

@[simp] theorem State.emit_errcnt (s : State) (es : List Event) :
    (s.emit es).errcnt = s.errcnt := rfl

@[simp] theorem State.emit_res (s : State) (es : List Event) :
    (s.emit es).res = s.res := rfl

@[simp] theorem State.emit_buf (s : State) (es : List Event) :
    (s.emit es).buf = s.buf := rfl

@[simp] theorem State.emit_seq (s : State) (es : List Event) :
    (s.emit es).seq = s.seq := rfl

@[simp] theorem State.emit_probe (s : State) (es : List Event) :
    (s.emit es).probe = s.probe := rfl

@[simp] theorem State.emit_host (s : State) (es : List Event) :
    (s.emit es).host = s.host := rfl

@[simp] theorem State.emit_port (s : State) (es : List Event) :
    (s.emit es).port = s.port := rfl

@[simp] theorem State.emit_trace (s : State) (es : List Event) :
    (s.emit es).trace = s.trace ++ es := rfl

@[simp] theorem State.emit_draws (s : State) (es : List Event) :
    (s.emit es).draws = s.draws := rfl

@[simp] theorem State.goto_cfg (s : State) (st : SeqState) :
    (s.goto st).cfg = s.cfg := rfl

@[simp] theorem State.goto_desc (s : State) (st : SeqState) :
    (s.goto st).desc = s.desc := rfl

@[simp] theorem State.goto_errcnt (s : State) (st : SeqState) :
    (s.goto st).errcnt = s.errcnt := rfl

@[simp] theorem State.goto_res (s : State) (st : SeqState) :
    (s.goto st).res = s.res := rfl

@[simp] theorem State.goto_buf (s : State) (st : SeqState) :
    (s.goto st).buf = s.buf := rfl

@[simp] theorem State.goto_seq (s : State) (st : SeqState) :
    (s.goto st).seq = { s.seq with st := st } := rfl

@[simp] theorem State.goto_probe (s : State) (st : SeqState) :
    (s.goto st).probe = s.probe := rfl

@[simp] theorem State.goto_host (s : State) (st : SeqState) :
    (s.goto st).host = s.host := rfl

@[simp] theorem State.goto_port (s : State) (st : SeqState) :
    (s.goto st).port = s.port := rfl

@[simp] theorem State.goto_trace (s : State) (st : SeqState) :
    (s.goto st).trace = s.trace := rfl

@[simp] theorem State.goto_draws (s : State) (st : SeqState) :
    (s.goto st).draws = s.draws := rfl

@[simp] theorem State.finish_cfg (s : State) (r : Result) :
    (s.finish r).cfg = s.cfg := rfl

@[simp] theorem State.finish_desc (s : State) (r : Result) :
    (s.finish r).desc = s.desc := rfl

@[simp] theorem State.finish_errcnt (s : State) (r : Result) :
    (s.finish r).errcnt = s.errcnt := rfl

@[simp] theorem State.finish_res (s : State) (r : Result) :
    (s.finish r).res = r := rfl

@[simp] theorem State.finish_buf (s : State) (r : Result) :
    (s.finish r).buf = s.buf := rfl

@[simp] theorem State.finish_seq (s : State) (r : Result) :
    (s.finish r).seq = { s.seq with st := .idle } := rfl

@[simp] theorem State.finish_probe (s : State) (r : Result) :
    (s.finish r).probe = s.probe := rfl

@[simp] theorem State.finish_host (s : State) (r : Result) :
    (s.finish r).host = s.host := rfl

@[simp] theorem State.finish_port (s : State) (r : Result) :
    (s.finish r).port = s.port := rfl

@[simp] theorem State.finish_trace (s : State) (r : Result) :
    (s.finish r).trace = s.trace := rfl

@[simp] theorem State.finish_draws (s : State) (r : Result) :
    (s.finish r).draws = s.draws := rfl

@[simp] theorem State.succeed_cfg (s : State) (v : Word32) :
    (s.succeed v).cfg = s.cfg := rfl

@[simp] theorem State.succeed_desc (s : State) (v : Word32) :
    (s.succeed v).desc = s.desc := rfl

@[simp] theorem State.succeed_errcnt (s : State) (v : Word32) :
    (s.succeed v).errcnt = s.errcnt := rfl

@[simp] theorem State.succeed_res (s : State) (v : Word32) :
    (s.succeed v).res = Result.success v := rfl

@[simp] theorem State.succeed_buf (s : State) (v : Word32) :
    (s.succeed v).buf = s.buf := rfl

@[simp] theorem State.succeed_seq (s : State) (v : Word32) :
    (s.succeed v).seq = { s.seq with st := .idle } := rfl

@[simp] theorem State.succeed_probe (s : State) (v : Word32) :
    (s.succeed v).probe = s.probe := rfl

@[simp] theorem State.succeed_host (s : State) (v : Word32) :
    (s.succeed v).host = s.host := rfl

@[simp] theorem State.succeed_port (s : State) (v : Word32) :
    (s.succeed v).port = s.port := rfl

@[simp] theorem State.succeed_trace (s : State) (v : Word32) :
    (s.succeed v).trace = s.trace := rfl

@[simp] theorem State.succeed_draws (s : State) (v : Word32) :
    (s.succeed v).draws = s.draws := rfl

@[simp] theorem State.fail_cfg (s : State) (c : Cause) :
    (s.fail c).cfg = s.cfg := rfl

@[simp] theorem State.fail_desc (s : State) (c : Cause) :
    (s.fail c).desc = s.desc := rfl

@[simp] theorem State.fail_errcnt (s : State) (c : Cause) :
    (s.fail c).errcnt = s.errcnt := rfl

@[simp] theorem State.fail_res (s : State) (c : Cause) :
    (s.fail c).res = Result.failure c := rfl

@[simp] theorem State.fail_buf (s : State) (c : Cause) :
    (s.fail c).buf = s.buf := rfl

@[simp] theorem State.fail_seq (s : State) (c : Cause) :
    (s.fail c).seq = { s.seq with st := .idle } := rfl

@[simp] theorem State.fail_probe (s : State) (c : Cause) :
    (s.fail c).probe = s.probe := rfl

@[simp] theorem State.fail_host (s : State) (c : Cause) :
    (s.fail c).host = s.host := rfl

@[simp] theorem State.fail_port (s : State) (c : Cause) :
    (s.fail c).port = s.port := rfl

@[simp] theorem State.fail_trace (s : State) (c : Cause) :
    (s.fail c).trace = s.trace := rfl

@[simp] theorem State.fail_draws (s : State) (c : Cause) :
    (s.fail c).draws = s.draws := rfl

@[simp] theorem State.countError_cfg (s : State) :
    (s.countError).cfg = s.cfg := rfl

@[simp] theorem State.countError_desc (s : State) :
    (s.countError).desc = s.desc := rfl

@[simp] theorem State.countError_errcnt (s : State) :
    (s.countError).errcnt = nextErrcnt s.cfg s.errcnt := rfl

@[simp] theorem State.countError_res (s : State) :
    (s.countError).res = s.res := rfl

@[simp] theorem State.countError_buf (s : State) :
    (s.countError).buf = s.buf := rfl

@[simp] theorem State.countError_seq (s : State) :
    (s.countError).seq = s.seq := rfl

@[simp] theorem State.countError_probe (s : State) :
    (s.countError).probe = s.probe := rfl

@[simp] theorem State.countError_host (s : State) :
    (s.countError).host = s.host := rfl

@[simp] theorem State.countError_port (s : State) :
    (s.countError).port = s.port := rfl

@[simp] theorem State.countError_trace (s : State) :
    (s.countError).trace = s.trace := rfl

@[simp] theorem State.countError_draws (s : State) :
    (s.countError).draws = s.draws := rfl

@[simp] theorem State.tookCode_cfg (s : State) (c : Nat) (cs : List Nat) :
    (s.tookCode c cs).cfg = s.cfg := rfl

@[simp] theorem State.tookCode_desc (s : State) (c : Nat) (cs : List Nat) :
    (s.tookCode c cs).desc = s.desc := rfl

@[simp] theorem State.tookCode_errcnt (s : State) (c : Nat) (cs : List Nat) :
    (s.tookCode c cs).errcnt = s.errcnt := rfl

@[simp] theorem State.tookCode_res (s : State) (c : Nat) (cs : List Nat) :
    (s.tookCode c cs).res = s.res := rfl

@[simp] theorem State.tookCode_buf (s : State) (c : Nat) (cs : List Nat) :
    (s.tookCode c cs).buf = s.buf := rfl

@[simp] theorem State.tookCode_seq (s : State) (c : Nat) (cs : List Nat) :
    (s.tookCode c cs).seq = s.seq := rfl

@[simp] theorem State.tookCode_probe (s : State) (c : Nat) (cs : List Nat) :
    (s.tookCode c cs).probe = s.probe := rfl

@[simp] theorem State.tookCode_host (s : State) (c : Nat) (cs : List Nat) :
    (s.tookCode c cs).host = s.host := rfl

@[simp] theorem State.tookCode_port (s : State) (c : Nat) (cs : List Nat) :
    (s.tookCode c cs).port = { s.port with codes := cs } := rfl

@[simp] theorem State.tookCode_trace (s : State) (c : Nat) (cs : List Nat) :
    (s.tookCode c cs).trace = s.trace ++ [.txEnd s.stopValue c] := rfl

@[simp] theorem State.tookCode_draws (s : State) (c : Nat) (cs : List Nat) :
    (s.tookCode c cs).draws = s.draws := rfl

@[simp] theorem State.tookAvail_cfg (s : State) (a : Nat) (as : List Nat) :
    (s.tookAvail a as).cfg = s.cfg := rfl

@[simp] theorem State.tookAvail_desc (s : State) (a : Nat) (as : List Nat) :
    (s.tookAvail a as).desc = s.desc := rfl

@[simp] theorem State.tookAvail_errcnt (s : State) (a : Nat) (as : List Nat) :
    (s.tookAvail a as).errcnt = s.errcnt := rfl

@[simp] theorem State.tookAvail_res (s : State) (a : Nat) (as : List Nat) :
    (s.tookAvail a as).res = s.res := rfl

@[simp] theorem State.tookAvail_buf (s : State) (a : Nat) (as : List Nat) :
    (s.tookAvail a as).buf = s.buf := rfl

@[simp] theorem State.tookAvail_seq (s : State) (a : Nat) (as : List Nat) :
    (s.tookAvail a as).seq = s.seq := rfl

@[simp] theorem State.tookAvail_probe (s : State) (a : Nat) (as : List Nat) :
    (s.tookAvail a as).probe = s.probe := rfl

@[simp] theorem State.tookAvail_host (s : State) (a : Nat) (as : List Nat) :
    (s.tookAvail a as).host = s.host := rfl

@[simp] theorem State.tookAvail_port (s : State) (a : Nat) (as : List Nat) :
    (s.tookAvail a as).port = { s.port with avails := as } := rfl

@[simp] theorem State.tookAvail_trace (s : State) (a : Nat) (as : List Nat) :
    (s.tookAvail a as).trace = s.trace ++ [.rxRequest s.descr.busaddr s.seq.req a] := rfl

@[simp] theorem State.tookAvail_draws (s : State) (a : Nat) (as : List Nat) :
    (s.tookAvail a as).draws = s.draws := rfl

@[simp] theorem acceptWrite_cfg (s : State) (ns : Bool) (ra : RegAddr) (m l : Nat) :
    (acceptWrite s ns ra m l).cfg = s.cfg := rfl

@[simp] theorem acceptWrite_desc (s : State) (ns : Bool) (ra : RegAddr) (m l : Nat) :
    (acceptWrite s ns ra m l).desc = s.desc := rfl

@[simp] theorem acceptWrite_errcnt (s : State) (ns : Bool) (ra : RegAddr) (m l : Nat) :
    (acceptWrite s ns ra m l).errcnt = s.errcnt := rfl

@[simp] theorem acceptWrite_res (s : State) (ns : Bool) (ra : RegAddr) (m l : Nat) :
    (acceptWrite s ns ra m l).res = s.res := rfl

@[simp] theorem acceptWrite_buf (s : State) (ns : Bool) (ra : RegAddr) (m l : Nat) :
    (acceptWrite s ns ra m l).buf = s.buf := rfl

@[simp] theorem acceptWrite_seq (s : State) (ns : Bool) (ra : RegAddr) (m l : Nat) :
    (acceptWrite s ns ra m l).seq = { s.seq with st := .planTx, kind := .w, ra := ra, m := m, w := m, l := l, sent := 0, stopf := !ns } := rfl

@[simp] theorem acceptWrite_probe (s : State) (ns : Bool) (ra : RegAddr) (m l : Nat) :
    (acceptWrite s ns ra m l).probe = false := rfl

@[simp] theorem acceptWrite_host (s : State) (ns : Bool) (ra : RegAddr) (m l : Nat) :
    (acceptWrite s ns ra m l).host = s.host := rfl

@[simp] theorem acceptWrite_port (s : State) (ns : Bool) (ra : RegAddr) (m l : Nat) :
    (acceptWrite s ns ra m l).port = s.port := rfl

@[simp] theorem acceptWrite_trace (s : State) (ns : Bool) (ra : RegAddr) (m l : Nat) :
    (acceptWrite s ns ra m l).trace = s.trace := rfl

@[simp] theorem acceptWrite_draws (s : State) (ns : Bool) (ra : RegAddr) (m l : Nat) :
    (acceptWrite s ns ra m l).draws = s.draws + 1 := rfl

@[simp] theorem planTx_cfg (s : State) :
    (planTx s).cfg = s.cfg := rfl

@[simp] theorem planTx_desc (s : State) :
    (planTx s).desc = s.desc := rfl

@[simp] theorem planTx_errcnt (s : State) :
    (planTx s).errcnt = s.errcnt := rfl

@[simp] theorem planTx_res (s : State) :
    (planTx s).res = s.res := rfl

@[simp] theorem planTx_buf (s : State) :
    (planTx s).buf = s.buf := rfl

@[simp] theorem planTx_seq (s : State) :
    (planTx s).seq = { s.seq with
      st := .txOpen, cl := chunkLen (s.seq.l - s.seq.sent) s.cfg.maxChunk s.seq.m, idx := 0 } := rfl

@[simp] theorem planTx_probe (s : State) :
    (planTx s).probe = s.probe := rfl

@[simp] theorem planTx_host (s : State) :
    (planTx s).host = s.host := rfl

@[simp] theorem planTx_port (s : State) :
    (planTx s).port = s.port := rfl

@[simp] theorem planTx_trace (s : State) :
    (planTx s).trace = s.trace := rfl

@[simp] theorem planTx_draws (s : State) :
    (planTx s).draws = s.draws := rfl

@[simp] theorem fillTx_cfg (s : State) :
    (fillTx s).cfg = s.cfg := rfl

@[simp] theorem fillTx_desc (s : State) :
    (fillTx s).desc = s.desc := rfl

@[simp] theorem fillTx_errcnt (s : State) :
    (fillTx s).errcnt = s.errcnt := rfl

@[simp] theorem fillTx_res (s : State) :
    (fillTx s).res = s.res := rfl

@[simp] theorem fillTx_buf (s : State) :
    (fillTx s).buf = s.buf := rfl

@[simp] theorem fillTx_seq (s : State) :
    (fillTx s).seq = { s.seq with st := .txClose, idx := s.seq.idx + s.seq.cl } := rfl

@[simp] theorem fillTx_probe (s : State) :
    (fillTx s).probe = s.probe := rfl

@[simp] theorem fillTx_host (s : State) :
    (fillTx s).host = s.host := rfl

@[simp] theorem fillTx_port (s : State) :
    (fillTx s).port = s.port := rfl

@[simp] theorem fillTx_trace (s : State) :
    (fillTx s).trace = s.trace ++ (.txBegin s.descr.busaddr :: (s.addrBytes ++ s.chunkPayload).map .txWrite) := rfl

@[simp] theorem fillTx_draws (s : State) :
    (fillTx s).draws = s.draws := rfl

@[simp] theorem openProbe_cfg (s : State) :
    (openProbe s).cfg = s.cfg := rfl

@[simp] theorem openProbe_desc (s : State) :
    (openProbe s).desc = s.desc := rfl

@[simp] theorem openProbe_errcnt (s : State) :
    (openProbe s).errcnt = s.errcnt := rfl

@[simp] theorem openProbe_res (s : State) :
    (openProbe s).res = s.res := rfl

@[simp] theorem openProbe_buf (s : State) :
    (openProbe s).buf = s.buf := rfl

@[simp] theorem openProbe_seq (s : State) :
    (openProbe s).seq = { s.seq with st := .txClose } := rfl

@[simp] theorem openProbe_probe (s : State) :
    (openProbe s).probe = true := rfl

@[simp] theorem openProbe_host (s : State) :
    (openProbe s).host = s.host := rfl

@[simp] theorem openProbe_port (s : State) :
    (openProbe s).port = s.port := rfl

@[simp] theorem openProbe_trace (s : State) :
    (openProbe s).trace = s.trace ++ [.txBegin s.descr.busaddr] := rfl

@[simp] theorem openProbe_draws (s : State) :
    (openProbe s).draws = s.draws := rfl

@[simp] theorem acceptReadAddressed_cfg (s : State) (ra : RegAddr) (m l : Nat) :
    (acceptReadAddressed s ra m l).cfg = s.cfg := rfl

@[simp] theorem acceptReadAddressed_desc (s : State) (ra : RegAddr) (m l : Nat) :
    (acceptReadAddressed s ra m l).desc = s.desc := rfl

@[simp] theorem acceptReadAddressed_errcnt (s : State) (ra : RegAddr) (m l : Nat) :
    (acceptReadAddressed s ra m l).errcnt = s.errcnt := rfl

@[simp] theorem acceptReadAddressed_res (s : State) (ra : RegAddr) (m l : Nat) :
    (acceptReadAddressed s ra m l).res = s.res := rfl

@[simp] theorem acceptReadAddressed_buf (s : State) (ra : RegAddr) (m l : Nat) :
    (acceptReadAddressed s ra m l).buf = s.buf := rfl

@[simp] theorem acceptReadAddressed_seq (s : State) (ra : RegAddr) (m l : Nat) :
    (acceptReadAddressed s ra m l).seq = { s.seq with
      st := .txOpen, kind := .ra, ra := ra, m := m, w := wireWidth m s.descr.wide, l := l, sent := 0, cl := 0,
      stopf := !s.descr.nostop.bit } := rfl

@[simp] theorem acceptReadAddressed_probe (s : State) (ra : RegAddr) (m l : Nat) :
    (acceptReadAddressed s ra m l).probe = false := rfl

@[simp] theorem acceptReadAddressed_host (s : State) (ra : RegAddr) (m l : Nat) :
    (acceptReadAddressed s ra m l).host = s.host := rfl

@[simp] theorem acceptReadAddressed_port (s : State) (ra : RegAddr) (m l : Nat) :
    (acceptReadAddressed s ra m l).port = s.port := rfl

@[simp] theorem acceptReadAddressed_trace (s : State) (ra : RegAddr) (m l : Nat) :
    (acceptReadAddressed s ra m l).trace = s.trace := rfl

@[simp] theorem acceptReadAddressed_draws (s : State) (ra : RegAddr) (m l : Nat) :
    (acceptReadAddressed s ra m l).draws = s.draws := rfl

@[simp] theorem acceptReadPlain_cfg (s : State) (ra : RegAddr) (m l : Nat) :
    (acceptReadPlain s ra m l).cfg = s.cfg := rfl

@[simp] theorem acceptReadPlain_desc (s : State) (ra : RegAddr) (m l : Nat) :
    (acceptReadPlain s ra m l).desc = s.desc := rfl

@[simp] theorem acceptReadPlain_errcnt (s : State) (ra : RegAddr) (m l : Nat) :
    (acceptReadPlain s ra m l).errcnt = s.errcnt := rfl

@[simp] theorem acceptReadPlain_res (s : State) (ra : RegAddr) (m l : Nat) :
    (acceptReadPlain s ra m l).res = s.res := rfl

@[simp] theorem acceptReadPlain_buf (s : State) (ra : RegAddr) (m l : Nat) :
    (acceptReadPlain s ra m l).buf = s.buf := rfl

@[simp] theorem acceptReadPlain_seq (s : State) (ra : RegAddr) (m l : Nat) :
    (acceptReadPlain s ra m l).seq = { s.seq with
      st := .planRx, kind := .rd, ra := ra, m := m, w := wireWidth m s.descr.wide, l := l, sent := 0 } := rfl

@[simp] theorem acceptReadPlain_probe (s : State) (ra : RegAddr) (m l : Nat) :
    (acceptReadPlain s ra m l).probe = false := rfl

@[simp] theorem acceptReadPlain_host (s : State) (ra : RegAddr) (m l : Nat) :
    (acceptReadPlain s ra m l).host = s.host := rfl

@[simp] theorem acceptReadPlain_port (s : State) (ra : RegAddr) (m l : Nat) :
    (acceptReadPlain s ra m l).port = s.port := rfl

@[simp] theorem acceptReadPlain_trace (s : State) (ra : RegAddr) (m l : Nat) :
    (acceptReadPlain s ra m l).trace = s.trace := rfl

@[simp] theorem acceptReadPlain_draws (s : State) (ra : RegAddr) (m l : Nat) :
    (acceptReadPlain s ra m l).draws = s.draws := rfl

@[simp] theorem hostReset_cfg (s : State) :
    (hostReset s).cfg = s.cfg := rfl

@[simp] theorem hostReset_desc (s : State) :
    (hostReset s).desc = none := rfl

@[simp] theorem hostReset_errcnt (s : State) :
    (hostReset s).errcnt = 0 := rfl

@[simp] theorem hostReset_res (s : State) :
    (hostReset s).res = Result.reset := rfl

@[simp] theorem hostReset_buf (s : State) :
    (hostReset s).buf = [] := rfl

@[simp] theorem hostReset_seq (s : State) :
    (hostReset s).seq = Latches.reset := rfl

@[simp] theorem hostReset_probe (s : State) :
    (hostReset s).probe = false := rfl

@[simp] theorem hostReset_host (s : State) :
    (hostReset s).host = s.host := rfl

@[simp] theorem hostReset_port (s : State) :
    (hostReset s).port = s.port := rfl

@[simp] theorem hostReset_trace (s : State) :
    (hostReset s).trace = s.trace := rfl

@[simp] theorem hostReset_draws (s : State) :
    (hostReset s).draws = s.draws + 1 := rfl

@[simp] theorem State.queueCommand_cfg (s : State) (cw : CommandWord) :
    (s.queueCommand cw).cfg = s.cfg := rfl

@[simp] theorem State.queueCommand_desc (s : State) (cw : CommandWord) :
    (s.queueCommand cw).desc = s.desc := rfl

@[simp] theorem State.queueCommand_errcnt (s : State) (cw : CommandWord) :
    (s.queueCommand cw).errcnt = s.errcnt := rfl

@[simp] theorem State.queueCommand_res (s : State) (cw : CommandWord) :
    (s.queueCommand cw).res = s.res := rfl

@[simp] theorem State.queueCommand_buf (s : State) (cw : CommandWord) :
    (s.queueCommand cw).buf = s.buf := rfl

@[simp] theorem State.queueCommand_seq (s : State) (cw : CommandWord) :
    (s.queueCommand cw).seq = { s.seq with st := .idle } := rfl

@[simp] theorem State.queueCommand_probe (s : State) (cw : CommandWord) :
    (s.queueCommand cw).probe = s.probe := rfl

@[simp] theorem State.queueCommand_host (s : State) (cw : CommandWord) :
    (s.queueCommand cw).host = .command cw :: s.host := rfl

@[simp] theorem State.queueCommand_port (s : State) (cw : CommandWord) :
    (s.queueCommand cw).port = s.port := rfl

@[simp] theorem State.queueCommand_trace (s : State) (cw : CommandWord) :
    (s.queueCommand cw).trace = s.trace := rfl

@[simp] theorem State.queueCommand_draws (s : State) (cw : CommandWord) :
    (s.queueCommand cw).draws = s.draws := rfl

@[simp] theorem State.countPayload_cfg (s : State) :
    (s.countPayload).cfg = s.cfg := rfl

@[simp] theorem State.countPayload_desc (s : State) :
    (s.countPayload).desc = s.desc := rfl

@[simp] theorem State.countPayload_errcnt (s : State) :
    (s.countPayload).errcnt = s.errcnt := rfl

@[simp] theorem State.countPayload_res (s : State) :
    (s.countPayload).res = s.res := rfl

@[simp] theorem State.countPayload_buf (s : State) :
    (s.countPayload).buf = s.buf := rfl

@[simp] theorem State.countPayload_seq (s : State) :
    (s.countPayload).seq = { s.seq with
      idx := s.seq.idx + 1, st := if s.seq.idx + 1 < s.seq.cl then .txData else .txClose } := rfl

@[simp] theorem State.countPayload_probe (s : State) :
    (s.countPayload).probe = s.probe := rfl

@[simp] theorem State.countPayload_host (s : State) :
    (s.countPayload).host = s.host := rfl

@[simp] theorem State.countPayload_port (s : State) :
    (s.countPayload).port = s.port := rfl

@[simp] theorem State.countPayload_trace (s : State) :
    (s.countPayload).trace = s.trace := rfl

@[simp] theorem State.countPayload_draws (s : State) :
    (s.countPayload).draws = s.draws := rfl

@[simp] theorem State.withAcc_cfg (s : State) (acc : BitVec 64) :
    (s.withAcc acc).cfg = s.cfg := rfl

@[simp] theorem State.withAcc_desc (s : State) (acc : BitVec 64) :
    (s.withAcc acc).desc = s.desc := rfl

@[simp] theorem State.withAcc_errcnt (s : State) (acc : BitVec 64) :
    (s.withAcc acc).errcnt = s.errcnt := rfl

@[simp] theorem State.withAcc_res (s : State) (acc : BitVec 64) :
    (s.withAcc acc).res = s.res := rfl

@[simp] theorem State.withAcc_buf (s : State) (acc : BitVec 64) :
    (s.withAcc acc).buf = s.buf := rfl

@[simp] theorem State.withAcc_seq (s : State) (acc : BitVec 64) :
    (s.withAcc acc).seq = { s.seq with acc := acc } := rfl

@[simp] theorem State.withAcc_probe (s : State) (acc : BitVec 64) :
    (s.withAcc acc).probe = s.probe := rfl

@[simp] theorem State.withAcc_host (s : State) (acc : BitVec 64) :
    (s.withAcc acc).host = s.host := rfl

@[simp] theorem State.withAcc_port (s : State) (acc : BitVec 64) :
    (s.withAcc acc).port = s.port := rfl

@[simp] theorem State.withAcc_trace (s : State) (acc : BitVec 64) :
    (s.withAcc acc).trace = s.trace := rfl

@[simp] theorem State.withAcc_draws (s : State) (acc : BitVec 64) :
    (s.withAcc acc).draws = s.draws := rfl

@[simp] theorem State.withElem_cfg (s : State) (j v : Nat) :
    (s.withElem j v).cfg = s.cfg := rfl

@[simp] theorem State.withElem_desc (s : State) (j v : Nat) :
    (s.withElem j v).desc = s.desc := rfl

@[simp] theorem State.withElem_errcnt (s : State) (j v : Nat) :
    (s.withElem j v).errcnt = s.errcnt := rfl

@[simp] theorem State.withElem_res (s : State) (j v : Nat) :
    (s.withElem j v).res = s.res := rfl

@[simp] theorem State.withElem_buf (s : State) (j v : Nat) :
    (s.withElem j v).buf = storeElem s.buf j s.seq.m v := rfl

@[simp] theorem State.withElem_seq (s : State) (j v : Nat) :
    (s.withElem j v).seq = s.seq := rfl

@[simp] theorem State.withElem_probe (s : State) (j v : Nat) :
    (s.withElem j v).probe = s.probe := rfl

@[simp] theorem State.withElem_host (s : State) (j v : Nat) :
    (s.withElem j v).host = s.host := rfl

@[simp] theorem State.withElem_port (s : State) (j v : Nat) :
    (s.withElem j v).port = s.port := rfl

@[simp] theorem State.withElem_trace (s : State) (j v : Nat) :
    (s.withElem j v).trace = s.trace := rfl

@[simp] theorem State.withElem_draws (s : State) (j v : Nat) :
    (s.withElem j v).draws = s.draws := rfl

@[simp] theorem State.tookByte_cfg (s : State) (b : Byte) (bs : List Byte) :
    (s.tookByte b bs).cfg = s.cfg := rfl

@[simp] theorem State.tookByte_desc (s : State) (b : Byte) (bs : List Byte) :
    (s.tookByte b bs).desc = s.desc := rfl

@[simp] theorem State.tookByte_errcnt (s : State) (b : Byte) (bs : List Byte) :
    (s.tookByte b bs).errcnt = s.errcnt := rfl

@[simp] theorem State.tookByte_res (s : State) (b : Byte) (bs : List Byte) :
    (s.tookByte b bs).res = s.res := rfl

@[simp] theorem State.tookByte_buf (s : State) (b : Byte) (bs : List Byte) :
    (s.tookByte b bs).buf = s.buf := rfl

@[simp] theorem State.tookByte_seq (s : State) (b : Byte) (bs : List Byte) :
    (s.tookByte b bs).seq = s.seq := rfl

@[simp] theorem State.tookByte_probe (s : State) (b : Byte) (bs : List Byte) :
    (s.tookByte b bs).probe = s.probe := rfl

@[simp] theorem State.tookByte_host (s : State) (b : Byte) (bs : List Byte) :
    (s.tookByte b bs).host = s.host := rfl

@[simp] theorem State.tookByte_port (s : State) (b : Byte) (bs : List Byte) :
    (s.tookByte b bs).port = { s.port with bytes := bs } := rfl

@[simp] theorem State.tookByte_trace (s : State) (b : Byte) (bs : List Byte) :
    (s.tookByte b bs).trace = s.trace ++ [.rxRead b] := rfl

@[simp] theorem State.tookByte_draws (s : State) (b : Byte) (bs : List Byte) :
    (s.tookByte b bs).draws = s.draws := rfl

@[simp] theorem State.countReceived_cfg (s : State) :
    (s.countReceived).cfg = s.cfg := rfl

@[simp] theorem State.countReceived_desc (s : State) :
    (s.countReceived).desc = s.desc := rfl

@[simp] theorem State.countReceived_errcnt (s : State) :
    (s.countReceived).errcnt = s.errcnt := rfl

@[simp] theorem State.countReceived_res (s : State) :
    (s.countReceived).res = s.res := rfl

@[simp] theorem State.countReceived_buf (s : State) :
    (s.countReceived).buf = s.buf := rfl

@[simp] theorem State.countReceived_seq (s : State) :
    (s.countReceived).seq = { s.seq with
      idx := s.seq.idx + 1
      sent := if s.seq.idx + 1 < s.seq.req then s.seq.sent else s.seq.sent + s.seq.cl
      st := if s.seq.idx + 1 < s.seq.req then .rxDrain else .planRx } := rfl

@[simp] theorem State.countReceived_probe (s : State) :
    (s.countReceived).probe = s.probe := rfl

@[simp] theorem State.countReceived_host (s : State) :
    (s.countReceived).host = s.host := rfl

@[simp] theorem State.countReceived_port (s : State) :
    (s.countReceived).port = s.port := rfl

@[simp] theorem State.countReceived_trace (s : State) :
    (s.countReceived).trace = s.trace := rfl

@[simp] theorem State.countReceived_draws (s : State) :
    (s.countReceived).draws = s.draws := rfl

@[simp] theorem State.emit_descr (s : State) (es : List Event) : (s.emit es).descr = s.descr := rfl

@[simp] theorem State.goto_descr (s : State) (st : SeqState) : (s.goto st).descr = s.descr := rfl

@[simp] theorem State.finish_descr (s : State) (r : Result) : (s.finish r).descr = s.descr := rfl

@[simp] theorem State.succeed_descr (s : State) (v : Word32) : (s.succeed v).descr = s.descr := rfl

@[simp] theorem State.fail_descr (s : State) (c : Cause) : (s.fail c).descr = s.descr := rfl

@[simp] theorem State.countError_descr (s : State) : (s.countError).descr = s.descr := rfl

@[simp] theorem State.tookCode_descr (s : State) (c : Nat) (cs : List Nat) : (s.tookCode c cs).descr = s.descr := rfl

@[simp] theorem State.tookAvail_descr (s : State) (a : Nat) (as : List Nat) : (s.tookAvail a as).descr = s.descr := rfl

@[simp] theorem State.countPayload_descr (s : State) : (s.countPayload).descr = s.descr := rfl

@[simp] theorem State.withAcc_descr (s : State) (acc : BitVec 64) : (s.withAcc acc).descr = s.descr := rfl

@[simp] theorem State.withElem_descr (s : State) (j v : Nat) : (s.withElem j v).descr = s.descr := rfl

@[simp] theorem State.tookByte_descr (s : State) (b : Byte) (bs : List Byte) : (s.tookByte b bs).descr = s.descr := rfl

@[simp] theorem State.countReceived_descr (s : State) : (s.countReceived).descr = s.descr := rfl

@[simp] theorem acceptWrite_descr (s : State) (ns : Bool) (ra : RegAddr) (m l : Nat) : (acceptWrite s ns ra m l).descr = s.descr := rfl

@[simp] theorem planTx_descr (s : State) : (planTx s).descr = s.descr := rfl

@[simp] theorem fillTx_descr (s : State) : (fillTx s).descr = s.descr := rfl

@[simp] theorem openProbe_descr (s : State) : (openProbe s).descr = s.descr := rfl

@[simp] theorem acceptReadAddressed_descr (s : State) (ra : RegAddr) (m l : Nat) : (acceptReadAddressed s ra m l).descr = s.descr := rfl

@[simp] theorem acceptReadPlain_descr (s : State) (ra : RegAddr) (m l : Nat) : (acceptReadPlain s ra m l).descr = s.descr := rfl

@[simp] theorem State.advance_cfg (s : State) :
    (s.advance).cfg = s.cfg := rfl

@[simp] theorem State.advance_desc (s : State) :
    (s.advance).desc = s.desc := rfl

@[simp] theorem State.advance_errcnt (s : State) :
    (s.advance).errcnt = s.errcnt := rfl

@[simp] theorem State.advance_res (s : State) :
    (s.advance).res = s.res := rfl

@[simp] theorem State.advance_buf (s : State) :
    (s.advance).buf = s.buf := rfl

@[simp] theorem State.advance_seq (s : State) :
    (s.advance).seq = { s.seq with sent := s.seq.sent + s.seq.cl } := rfl

@[simp] theorem State.advance_probe (s : State) :
    (s.advance).probe = s.probe := rfl

@[simp] theorem State.advance_host (s : State) :
    (s.advance).host = s.host := rfl

@[simp] theorem State.advance_port (s : State) :
    (s.advance).port = s.port := rfl

@[simp] theorem State.advance_trace (s : State) :
    (s.advance).trace = s.trace := rfl

@[simp] theorem State.advance_draws (s : State) :
    (s.advance).draws = s.draws := rfl

@[simp] theorem State.advance_descr (s : State) : (s.advance).descr = s.descr := rfl

@[simp] theorem State.probeOver_cfg (s : State) :
    (s.probeOver).cfg = s.cfg := rfl

@[simp] theorem State.probeOver_desc (s : State) :
    (s.probeOver).desc = s.desc := rfl

@[simp] theorem State.probeOver_errcnt (s : State) :
    (s.probeOver).errcnt = s.errcnt := rfl

@[simp] theorem State.probeOver_res (s : State) :
    (s.probeOver).res = s.res := rfl

@[simp] theorem State.probeOver_buf (s : State) :
    (s.probeOver).buf = s.buf := rfl

@[simp] theorem State.probeOver_seq (s : State) :
    (s.probeOver).seq = s.seq := rfl

@[simp] theorem State.probeOver_probe (s : State) :
    (s.probeOver).probe = false := rfl

@[simp] theorem State.probeOver_host (s : State) :
    (s.probeOver).host = s.host := rfl

@[simp] theorem State.probeOver_port (s : State) :
    (s.probeOver).port = s.port := rfl

@[simp] theorem State.probeOver_trace (s : State) :
    (s.probeOver).trace = s.trace := rfl

@[simp] theorem State.probeOver_draws (s : State) :
    (s.probeOver).draws = s.draws := rfl

@[simp] theorem State.probeOver_descr (s : State) :
    (s.probeOver).descr = s.descr := rfl

@[simp] theorem State.toData_cfg (s : State) :
    (s.toData).cfg = s.cfg := rfl

@[simp] theorem State.toData_desc (s : State) :
    (s.toData).desc = s.desc := rfl

@[simp] theorem State.toData_errcnt (s : State) :
    (s.toData).errcnt = s.errcnt := rfl

@[simp] theorem State.toData_res (s : State) :
    (s.toData).res = s.res := rfl

@[simp] theorem State.toData_buf (s : State) :
    (s.toData).buf = s.buf := rfl

@[simp] theorem State.toData_seq (s : State) :
    (s.toData).seq = { s.seq with kind := .rd, st := .planRx } := rfl

@[simp] theorem State.toData_probe (s : State) :
    (s.toData).probe = s.probe := rfl

@[simp] theorem State.toData_host (s : State) :
    (s.toData).host = s.host := rfl

@[simp] theorem State.toData_port (s : State) :
    (s.toData).port = s.port := rfl

@[simp] theorem State.toData_trace (s : State) :
    (s.toData).trace = s.trace := rfl

@[simp] theorem State.toData_draws (s : State) :
    (s.toData).draws = s.draws := rfl

@[simp] theorem State.toData_descr (s : State) : (s.toData).descr = s.descr := rfl

@[simp] theorem planRx_cfg (s : State) :
    (planRx s).cfg = s.cfg := rfl

@[simp] theorem planRx_desc (s : State) :
    (planRx s).desc = s.desc := rfl

@[simp] theorem planRx_errcnt (s : State) :
    (planRx s).errcnt = s.errcnt := rfl

@[simp] theorem planRx_res (s : State) :
    (planRx s).res = s.res := rfl

@[simp] theorem planRx_buf (s : State) :
    (planRx s).buf = s.buf := rfl

@[simp] theorem planRx_seq (s : State) :
    (planRx s).seq = { s.seq with
      st := .rxReq
      cl := chunkLen (s.seq.l - s.seq.sent) s.cfg.maxChunk s.seq.m
      req := wireLen s.seq.w (chunkLen (s.seq.l - s.seq.sent) s.cfg.maxChunk s.seq.m)
      idx := 0
      acc := 0 } := rfl

@[simp] theorem planRx_probe (s : State) :
    (planRx s).probe = s.probe := rfl

@[simp] theorem planRx_host (s : State) :
    (planRx s).host = s.host := rfl

@[simp] theorem planRx_port (s : State) :
    (planRx s).port = s.port := rfl

@[simp] theorem planRx_trace (s : State) :
    (planRx s).trace = s.trace := rfl

@[simp] theorem planRx_draws (s : State) :
    (planRx s).draws = s.draws := rfl

@[simp] theorem planRx_descr (s : State) : (planRx s).descr = s.descr := rfl

@[simp] theorem drainChunk_cfg (s : State) :
    (drainChunk s).cfg = s.cfg := rfl

@[simp] theorem drainChunk_desc (s : State) :
    (drainChunk s).desc = s.desc := rfl

@[simp] theorem drainChunk_errcnt (s : State) :
    (drainChunk s).errcnt = s.errcnt := rfl

@[simp] theorem drainChunk_res (s : State) :
    (drainChunk s).res = s.res := rfl

@[simp] theorem drainChunk_buf (s : State) :
    (drainChunk s).buf = storeReceived s.descr s.seq.m s.seq.w ((s.port.bytes.take s.seq.req).length / s.seq.w)
      (s.seq.sent / s.seq.m) (s.port.bytes.take s.seq.req) s.buf := rfl

@[simp] theorem drainChunk_seq (s : State) :
    (drainChunk s).seq = { s.seq with
      idx := (s.port.bytes.take s.seq.req).length
      acc := BitVec.ofNat 64 (unmarshal ((s.port.bytes.take s.seq.req).drop
        (s.seq.w * ((s.port.bytes.take s.seq.req).length / s.seq.w))) s.descr.datalsb)
      sent := if (s.port.bytes.take s.seq.req).length = s.seq.req then s.seq.sent + s.seq.cl else s.seq.sent
      st := if (s.port.bytes.take s.seq.req).length = s.seq.req then .planRx else .rxDrain } := rfl

@[simp] theorem drainChunk_probe (s : State) :
    (drainChunk s).probe = s.probe := rfl

@[simp] theorem drainChunk_host (s : State) :
    (drainChunk s).host = s.host := rfl

@[simp] theorem drainChunk_port (s : State) :
    (drainChunk s).port = { s.port with bytes := s.port.bytes.drop s.seq.req } := rfl

@[simp] theorem drainChunk_trace (s : State) :
    (drainChunk s).trace = s.trace ++ (s.port.bytes.take s.seq.req).map .rxRead := rfl

@[simp] theorem drainChunk_draws (s : State) :
    (drainChunk s).draws = s.draws := rfl

@[simp] theorem drainChunk_descr (s : State) : (drainChunk s).descr = s.descr := rfl

@[simp] theorem State.descr_of_desc {s : State} {d : Descriptor} (h : s.desc = some d) : s.descr = d := by
  simp [State.descr, h]

end Sys2Proof.Machine
end

