-- ==== Sys2Proof/Laws/Buf.lean ====
section
/-! SUPPORT. The laws of BUF: a read after a store, the canonical form kept by every store, element access. -/

namespace Sys2Proof.Machine

theorem bufGet_bufSet_same (buf : List Host.Cell) (a : Nat) (b : Byte) : bufGet (bufSet buf a b) a = some b := by
  induction buf with
  | nil => simp [bufSet, bufGet]
  | cons c rest ih =>
    obtain ⟨x, v⟩ := c
    simp only [bufSet]
    split
    · simp [bufGet]
    · split
      · simp [bufGet]
      · rw [bufGet, if_neg (by omega), ih]

theorem bufGet_bufSet_other (buf : List Host.Cell) {a a' : Nat} (b : Byte) (h : a' ≠ a) :
    bufGet (bufSet buf a b) a' = bufGet buf a' := by
  induction buf with
  | nil => simp [bufSet, bufGet, h.symm]
  | cons c rest ih =>
    obtain ⟨x, v⟩ := c
    simp only [bufSet]
    split
    · simp [bufGet, h.symm]
    · split
      · subst_vars; simp [bufGet, h.symm]
      · simp [bufGet, ih]

theorem bufGet_bufSet (buf : List Host.Cell) (a a' : Nat) (b : Byte) :
    bufGet (bufSet buf a b) a' = if a' = a then some b else bufGet buf a' := by
  split
  · subst_vars; exact bufGet_bufSet_same ..
  · exact bufGet_bufSet_other _ _ ‹_›

/-- The addresses of a buffer after a store. -/
theorem mem_bufSet {buf : List Host.Cell} {a : Nat} {b : Byte} {c : Host.Cell} (h : c ∈ bufSet buf a b) :
    c.1 = a ∨ c ∈ buf := by
  induction buf with
  | nil => simp [bufSet] at h; simp [h]
  | cons d rest ih =>
    obtain ⟨x, v⟩ := d
    simp only [bufSet] at h
    split at h
    · simp at h; aesop
    · split at h
      · simp at h; aesop
      · simp at h; aesop

theorem wf_bufSet {buf : List Host.Cell} (a : Nat) (b : Byte) (h : Memory.wf buf = true) :
    Memory.wf (bufSet buf a b) = true := by
  induction buf with
  | nil => simp [bufSet, Memory.wf]
  | cons c rest ih =>
    obtain ⟨x, v⟩ := c
    simp only [Memory.wf, Bool.and_eq_true, List.all_eq_true, decide_eq_true_eq] at h
    simp only [bufSet]
    split
    · simp only [Memory.wf, Bool.and_eq_true, List.all_eq_true, decide_eq_true_eq, List.mem_cons]
      refine ⟨?_, h.1, h.2⟩
      rintro c (rfl | hc)
      · assumption
      · have := h.1 c hc; omega
    · split
      · subst_vars
        simp only [Memory.wf, Bool.and_eq_true, List.all_eq_true, decide_eq_true_eq]
        exact h
      · simp only [Memory.wf, Bool.and_eq_true, List.all_eq_true, decide_eq_true_eq]
        refine ⟨fun c hc => ?_, ih h.2⟩
        rcases mem_bufSet hc with hc | hc
        · omega
        · exact h.1 c hc

theorem inRange_bufSet {p : Params} {buf : List Host.Cell} {a : Nat} (b : Byte) (ha : a < p.bufBytes)
    (h : bufInRange p buf = true) : bufInRange p (bufSet buf a b) = true := by
  simp only [bufInRange, List.all_eq_true, decide_eq_true_eq] at h ⊢
  intro c hc
  rcases mem_bufSet hc with hc | hc
  · omega
  · exact h c hc

theorem wf_bufSetBytes {buf : List Host.Cell} (a : Nat) (bs : List Byte) (h : Memory.wf buf = true) :
    Memory.wf (bufSetBytes buf a bs) = true := by
  induction bs generalizing buf a with
  | nil => exact h
  | cons b bs ih => exact ih _ (wf_bufSet _ _ h)

theorem inRange_bufSetBytes {p : Params} {buf : List Host.Cell} {a : Nat} (bs : List Byte)
    (ha : a + bs.length ≤ p.bufBytes) (h : bufInRange p buf = true) : bufInRange p (bufSetBytes buf a bs) = true := by
  induction bs generalizing buf a with
  | nil => exact h
  | cons b bs ih =>
    simp only [List.length_cons] at ha
    exact ih (by omega) (inRange_bufSet _ (by omega) h)

/-- Reading any address after storing bytes at `a`, `a+1`, …. -/
theorem bufGet_bufSetBytes (buf : List Host.Cell) (a a' : Nat) (bs : List Byte) :
    bufGet (bufSetBytes buf a bs) a' =
      if h : a ≤ a' ∧ a' < a + bs.length then some (bs[a' - a]'(by omega)) else bufGet buf a' := by
  induction bs generalizing buf a with
  | nil => simp [bufSetBytes]
  | cons b bs ih =>
    rw [bufSetBytes, ih, bufGet_bufSet]
    by_cases h1 : a' = a
    · subst h1; simp
    · by_cases h2 : a + 1 ≤ a' ∧ a' < a + 1 + bs.length
      · have h3 : a ≤ a' ∧ a' < a + (b :: bs).length := by simp only [List.length_cons]; omega
        rw [dif_pos h2, dif_pos h3]
        have : a' - a = (a' - (a + 1)) + 1 := by omega
        simp [this]
      · have h3 : ¬ (a ≤ a' ∧ a' < a + (b :: bs).length) := by simp only [List.length_cons]; omega
        rw [dif_neg h2, dif_neg h3, if_neg h1]

theorem bytesLE_length (m v : Nat) : (bytesLE m v).length = m := by
  induction m generalizing v with
  | zero => rfl
  | succ m ih => simp [bytesLE, ih]

theorem ofBytesLE_bytesLE (m v : Nat) : ofBytesLE (bytesLE m v) = v % 256 ^ m := by
  induction m generalizing v with
  | zero => simp [bytesLE, ofBytesLE, Nat.mod_one]
  | succ m ih =>
    have h := @Nat.mod_mul 256 (256 ^ m) v
    rw [bytesLE, ofBytesLE, ih, BitVec.toNat_ofNat, Nat.pow_succ' (n := m), h]

theorem ofBytesLE_lt (bs : List Byte) : ofBytesLE bs < 256 ^ bs.length := by
  induction bs with
  | nil => simp [ofBytesLE]
  | cons b bs ih =>
    have := b.isLt
    simp only [ofBytesLE, List.length_cons, Nat.pow_succ']
    omega

theorem bytesLE_ofBytesLE (bs : List Byte) : bytesLE bs.length (ofBytesLE bs) = bs := by
  induction bs with
  | nil => rfl
  | cons b bs ih =>
    have hb := b.isLt
    have h1 : (b.toNat + 256 * ofBytesLE bs) / 256 = ofBytesLE bs := by omega
    have h2 : BitVec.ofNat 8 (b.toNat + 256 * ofBytesLE bs) = b := by
      apply BitVec.eq_of_toNat_eq; simp [BitVec.toNat_ofNat]; omega
    simp only [List.length_cons, bytesLE, ofBytesLE, h1, h2, ih]

theorem marshal_length (v m : Nat) (o : ByteOrder) : (marshal v m o).length = m := by
  cases o <;> simp [marshal, bytesLE_length]

theorem unmarshal_lt (bs : List Byte) (o : ByteOrder) : unmarshal bs o < 256 ^ bs.length := by
  cases o
  · simpa [unmarshal] using ofBytesLE_lt bs.reverse
  · exact ofBytesLE_lt bs

theorem storeElem_wf {buf : List Host.Cell} (j m v : Nat) (h : Memory.wf buf = true) :
    Memory.wf (storeElem buf j m v) = true := wf_bufSetBytes _ _ h

theorem storeElem_inRange {p : Params} {buf : List Host.Cell} {j m : Nat} (v : Nat) (ha : j * m + m ≤ p.bufBytes)
    (h : bufInRange p buf = true) : bufInRange p (storeElem buf j m v) = true :=
  inRange_bufSetBytes _ (by rwa [bytesLE_length]) h

/-- Storing an element leaves every byte outside it alone (R51, R53). -/
theorem bufGet_storeElem_other (buf : List Host.Cell) {j m a : Nat} (v : Nat) (h : a < j * m ∨ j * m + m ≤ a) :
    bufGet (storeElem buf j m v) a = bufGet buf a := by
  rw [storeElem, bufGet_bufSetBytes, dif_neg]
  rw [bytesLE_length]; omega

/-- The bytes of a stored element (R53). -/
theorem bufGet_storeElem_same (buf : List Host.Cell) {j m k : Nat} (v : Nat) (h : k < m) :
    bufGet (storeElem buf j m v) (j * m + k) = some ((bytesLE m v)[k]'(by rwa [bytesLE_length])) := by
  rw [storeElem, bufGet_bufSetBytes, dif_pos (by rw [bytesLE_length]; omega)]
  simp

/-- An element of which every byte is written is the number its bytes spell (R53). -/
theorem bufElem_of_bytes (s : State) {j m : Nat} {bs : List Byte} (hl : bs.length = m)
    (h : ∀ k (hk : k < bs.length), bufGet s.buf (j * m + k) = some bs[k]) : s.bufElem j m = ofBytesLE bs := by
  rw [State.bufElem]
  congr 1
  apply List.ext_getElem
  · simp [hl]
  · intro k h1 h2
    simp [State.bufByte, h k h2]

/-- Reading an element just stored (R53): the value's low `M` bytes. -/
theorem bufElem_storeElem (s : State) (j m v : Nat) (h : s.buf = storeElem buf j m v) : s.bufElem j m = v % 256 ^ m := by
  rw [bufElem_of_bytes s (bytesLE_length m v) (fun k hk => ?_), ofBytesLE_bytesLE]
  rw [h, bufGet_storeElem_same _ _ (by simpa [bytesLE_length] using hk)]

end Sys2Proof.Machine
end

