-- ==== Sys2Proof/Laws/Chunk.lean ====
section
/-! SUPPORT. The laws of the chunker's arithmetic and of element bytes. -/

namespace Sys2Proof

theorem Params.eight_le_maxChunk (p : Params) : 8 ≤ p.maxChunk := Nat.le_add_right 8 _

theorem Params.bufBytes_le (p : Params) : p.bufBytes ≤ 524280 := by
  have := p.bufCellsLess1.isLt
  simp only [Params.bufBytes]; omega

end Sys2Proof

namespace Sys2Proof.Machine

theorem chunkLen_le_rem (rem c m : Nat) : chunkLen rem c m ≤ rem := by
  unfold chunkLen; split <;> omega

theorem chunkLen_le_max (rem c m : Nat) : chunkLen rem c m ≤ c := by
  unfold chunkLen; split <;> omega

theorem dvd_chunkLen {rem c m : Nat} (hm : 0 < m) : m ∣ chunkLen rem c m := by
  unfold chunkLen
  split
  · exact Nat.dvd_sub_mod _
  · have : m = 1 := by omega
    subst this; exact Nat.one_dvd _

theorem legalSize.le_eight {m : Nat} (h : legalSize m) : m ≤ 8 := by
  unfold legalSize at h; omega

/-- A chunk is never empty while bytes remain (R124, R125). -/
theorem chunkLen_pos {rem c m : Nat} (hm : m ≤ c) (hc : 0 < c) (hd : m ∣ rem) (hr : 0 < rem) :
    0 < chunkLen rem c m := by
  unfold chunkLen
  split
  · have h1 : m ≤ min rem c := by
      have := Nat.le_of_dvd hr hd; omega
    have h2 : min rem c % m < m := Nat.mod_lt _ (by omega)
    omega
  · omega

/-- The sizes a transfer is accepted with (R120, R122, R252). -/
theorem transferSize_eq_some {p : Params} {e : BitVec 4} {c : BitVec 16} {m l : Nat}
    (h : transferSize p e c = some (m, l)) : effSize e = some m ∧ l = m * c.toNat ∧ l ≤ p.bufBytes := by
  unfold transferSize at h
  split at h
  · cases h
  · split at h
    · cases h
    · simp only [Option.some.injEq, Prod.mk.injEq] at h
      obtain ⟨rfl, rfl⟩ := h
      exact ⟨‹_›, rfl, by omega⟩

theorem effSize_legal {e : BitVec 4} {m : Nat} (h : effSize e = some m) : legalSize m := by
  revert h
  unfold legalSize
  have : ∀ e : BitVec 4, ∀ m, effSize e = some m → (m = 0 ∨ m = 1 ∨ m = 2 ∨ m = 4 ∨ m = 8) := by
    intro e m h
    simp only [effSize] at h
    split at h
    · simp at h; omega
    · split at h
      · rename_i h2
        simp at h; subst h
        rcases h2 with h2 | h2 | h2 | h2 | h2 <;> subst h2 <;> simp
      · cases h
  exact this e m

theorem transferSize_sized {p : Params} {e : BitVec 4} {c : BitVec 16} {m l : Nat}
    (h : transferSize p e c = some (m, l)) : legalSize m ∧ l ≤ p.bufBytes ∧ m ∣ l := by
  obtain ⟨h1, rfl, h3⟩ := transferSize_eq_some h
  exact ⟨effSize_legal h1, h3, Nat.dvd_mul_right ..⟩

theorem wireWidth_pos {m : Nat} (wd : WideMode) (h : 0 < m) : 0 < wireWidth m wd := by
  unfold wireWidth; split <;> omega

theorem wireWidth_le_eight {m : Nat} (wd : WideMode) (h : m ≤ 8) : wireWidth m wd ≤ 8 := by
  unfold wireWidth; split <;> omega

/-- The wire bytes of a chunk of whole elements: W per element (R101, R196). -/
theorem wireLen_eq {m : Nat} (wd : WideMode) (hm : legalSize m) (n : Nat) :
    wireLen (wireWidth m wd) (m * n) = wireWidth m wd * n := by
  have h3 : m ≠ 3 := by unfold legalSize at hm; omega
  by_cases h : m = 4 ∧ wd ≠ .plain
  · have hw : wireWidth m wd = 3 := by rw [wireWidth, if_pos h]
    rw [hw, h.1, wireLen, if_pos rfl]; omega
  · have hw : wireWidth m wd = m := by rw [wireWidth, if_neg h]
    rw [hw, wireLen, if_neg h3]

theorem wireLen_pos {m cl : Nat} (wd : WideMode) (hm : legalSize m) (hd : m ∣ cl) (hc : 0 < cl) :
    0 < wireLen (wireWidth m wd) cl := by
  obtain ⟨n, rfl⟩ := hd
  rw [wireLen_eq wd hm]
  have h1 : 0 < m := Nat.pos_of_mul_pos_right hc
  have h2 : 0 < n := Nat.pos_of_mul_pos_left hc
  exact Nat.mul_pos (wireWidth_pos wd h1) h2

/-- A request never asks for more than the chunk's memory bytes (R126). -/
theorem wireLen_le {m cl : Nat} (wd : WideMode) (hm : legalSize m) (hd : m ∣ cl) :
    wireLen (wireWidth m wd) cl ≤ cl := by
  obtain ⟨n, rfl⟩ := hd
  rw [wireLen_eq wd hm]
  exact Nat.mul_le_mul_right n (by unfold wireWidth; split <;> omega)

theorem ofBytesLE_append (xs ys : List Byte) :
    ofBytesLE (xs ++ ys) = ofBytesLE xs + 256 ^ xs.length * ofBytesLE ys := by
  induction xs with
  | nil => simp [ofBytesLE]
  | cons x xs ih =>
    simp only [List.cons_append, ofBytesLE, ih, List.length_cons, Nat.pow_succ']; ring

/-- One more byte arrives, most significant byte first (R131, R137). -/
theorem unmarshal_msb_snoc (bs : List Byte) (b : Byte) :
    unmarshal (bs ++ [b]) .msbFirst = unmarshal bs .msbFirst * 256 + b.toNat := by
  simp only [unmarshal, List.reverse_append, List.reverse_singleton, List.singleton_append, ofBytesLE]; ring

/-- One more byte arrives, least significant byte first (R131, R137). -/
theorem unmarshal_lsb_snoc (bs : List Byte) (b : Byte) :
    unmarshal (bs ++ [b]) .lsbFirst = unmarshal bs .lsbFirst + b.toNat * 256 ^ bs.length := by
  simp only [unmarshal, ofBytesLE_append, ofBytesLE]; ring

/-- ACC after absorbing a byte holds the bytes so far (R137). -/
theorem absorbAcc_unmarshal (o : ByteOrder) (bs : List Byte) (b : Byte) :
    absorbAcc o (BitVec.ofNat 64 (unmarshal bs o)) bs.length b = BitVec.ofNat 64 (unmarshal (bs ++ [b]) o) := by
  apply BitVec.eq_of_toNat_eq
  cases o
  · rw [unmarshal_msb_snoc]
    simp [absorbAcc, BitVec.toNat_add, BitVec.toNat_mul, Nat.add_mod, Nat.mul_mod]
  · rw [unmarshal_lsb_snoc]
    have h : (256 : Nat) ^ bs.length = 2 ^ (8 * bs.length) := by rw [Nat.pow_mul]
    simp [absorbAcc, BitVec.toNat_add, BitVec.toNat_mul, Nat.add_mod, Nat.mul_mod, h]

end Sys2Proof.Machine
end

