-- ==== Sys2Proof/Laws/Sequencer.lean ====
section
/-! SUPPORT. What runs of the sequencer reach: the write transaction of one chunk and the drain of one read chunk, each as
one update (D25: the state machine refines the pseudocode). -/

namespace Sys2Proof.Machine

/-- Some number of sequencer transitions leads from `s` to `t`. -/
def Reaches (s t : State) : Prop := ∃ n, seqRun n s = t

theorem seqRun_add (a b : Nat) (s : State) : seqRun (a + b) s = seqRun b (seqRun a s) := by
  induction a generalizing s with
  | zero => simp [seqRun]
  | succ a ih => rw [Nat.succ_add, seqRun, ih, seqRun]

theorem Reaches.refl (s : State) : Reaches s s := ⟨0, rfl⟩

theorem Reaches.trans {s t u : State} (h1 : Reaches s t) (h2 : Reaches t u) : Reaches s u := by
  obtain ⟨a, rfl⟩ := h1
  obtain ⟨b, rfl⟩ := h2
  exact ⟨a + b, seqRun_add a b s⟩

theorem Reaches.step (s : State) : Reaches s (seqStep s) := ⟨1, rfl⟩

theorem Reaches.of_step {s t : State} (h : seqStep s = t) : Reaches s t := h ▸ Reaches.step s

/-- The bytes of whole elements, one by one (R100, R136). -/
theorem flatMap_marshal (f : Nat → Nat) (m n : Nat) (hm : 0 < m) (o : ByteOrder) :
    ((List.range n).flatMap fun i => marshal (f i) m o) =
      (List.range (m * n)).map fun k => (marshal (f (k / m)) m o).getD (k % m) 0 := by
  induction n with
  | zero => simp
  | succ n ih =>
    rw [List.range_succ, List.flatMap_append, ih, Nat.mul_succ, List.range_add, List.map_append]
    congr 1
    apply List.ext_getElem
    · simp [marshal_length]
    · intro k h1 h2
      simp [marshal_length] at h1 h2
      have h3 : (m * n + k) / m = n := by
        rw [Nat.mul_add_div hm, Nat.div_eq_of_lt h2]; omega
      have h4 : (m * n + k) % m = k := by
        rw [Nat.mul_add_mod, Nat.mod_eq_of_lt h2]
      simp [h3, h4, marshal_length, h2]

/-- The payload of a chunk is its payload bytes in order (R136). -/
theorem chunkPayload_eq (s : State) (hm : 0 < s.seq.m) (hc : s.seq.m ∣ s.seq.cl) (hs : s.seq.m ∣ s.seq.sent) :
    s.chunkPayload = (List.range s.seq.cl).map s.payloadByte := by
  obtain ⟨n, hn⟩ := hc
  obtain ⟨j, hj⟩ := hs
  have h1 : s.seq.cl / s.seq.m = n := by rw [hn, Nat.mul_div_cancel_left _ hm]
  have h2 : s.seq.sent / s.seq.m = j := by rw [hj, Nat.mul_div_cancel_left _ hm]
  rw [State.chunkPayload, h1, h2, flatMap_marshal (fun i => s.bufElem (j + i) s.seq.m) _ _ hm, ← hn]
  apply List.map_congr_left
  intro k _
  have h3 : (s.seq.sent + k) / s.seq.m = j + k / s.seq.m := by rw [hj, Nat.mul_add_div hm]
  have h4 : (s.seq.sent + k) % s.seq.m = k % s.seq.m := by rw [hj, Nat.mul_add_mod]
  simp only [State.payloadByte, h3]

/-- `s` with `k` payload bytes handed over, in TX_DATA or past it. -/
def txDataAt (s : State) (k : Nat) : State :=
  { s with
    trace := s.trace ++ ((List.range k).map s.payloadByte).map .txWrite
    seq := { s.seq with idx := k, st := if k < s.seq.cl then .txData else .txClose } }

theorem txDataAt_step (s : State) {k : Nat} (hk : k < s.seq.cl) : seqStep (txDataAt s k) = txDataAt s (k + 1) := by
  have h1 : (txDataAt s k).seq.st = .txData := by simp [txDataAt, hk]
  rw [seqStep, h1]
  apply State.ext
  case trace => simp [stepTxData, txDataAt, List.range_succ]; rfl
  all_goals rfl

theorem txDataAt_reaches (s : State) {k : Nat} (hk : k ≤ s.seq.cl) : Reaches (txDataAt s 0) (txDataAt s k) := by
  induction k with
  | zero => exact Reaches.refl _
  | succ k ih => exact (ih (by omega)).trans (Reaches.of_step (txDataAt_step s (by omega)))

/-- The sequencer from TX_OPEN hands over a whole write transaction and stands in TX_CLOSE (R136, R139). -/
theorem reaches_fillTx (s : State) (hst : s.seq.st = .txOpen)
    (h : s.seq.cl = 0 ∨ (0 < s.seq.m ∧ s.seq.m ∣ s.seq.cl ∧ s.seq.m ∣ s.seq.sent ∧ s.seq.idx = 0)) :
    Reaches s (fillTx s) := by
  -- the address phase leads to the state after it
  have key : Reaches s { s with
      trace := s.trace ++ (.txBegin s.descr.busaddr :: s.addrBytes.map .txWrite)
      seq := { s.seq with st := s.seq.afterAddr } } := by
    have e1 : seqStep s = stepTxOpen s := by rw [seqStep, hst]
    rcases hr : s.descr.regw with _ | _ | _
    · refine Reaches.of_step ?_
      rw [e1]
      simp [stepTxOpen, State.emit, State.goto, hr, State.addrBytes, addrPhase]
    · refine (Reaches.of_step e1).trans (Reaches.of_step ?_)
      simp [stepTxOpen, State.emit, State.goto, seqStep, stepTxAddr0, State.addrBytes, addrPhase, State.descr] at *
      simp [hr, Latches.afterAddr]
    · refine (Reaches.of_step e1).trans ?_
      cases ho : s.descr.reglsb <;>
      · refine (Reaches.step _).trans (Reaches.of_step ?_)
        simp [stepTxOpen, State.emit, State.goto, seqStep, stepTxAddr0, stepTxAddr1, State.addrBytes, addrPhase,
          State.descr] at *
        simp [hr, ho, Latches.afterAddr]
  refine key.trans ?_
  rcases h with h | ⟨hm, hc, hs, hi⟩
  · refine ⟨0, ?_⟩
    simp [seqRun, fillTx, h, Latches.afterAddr, State.chunkPayload]
  · set u : State := { s with
      trace := s.trace ++ (.txBegin s.descr.busaddr :: s.addrBytes.map .txWrite)
      seq := { s.seq with st := s.seq.afterAddr } } with hu
    have h1 : u = txDataAt u 0 := by
      simp [hu, txDataAt, Latches.afterAddr, hi]
    have h2 := txDataAt_reaches u (k := u.seq.cl) (Nat.le_refl _)
    rw [← h1] at h2
    have h3 : txDataAt u u.seq.cl = fillTx s := by
      have h4 : (List.range s.seq.cl).map u.payloadByte = s.chunkPayload := by
        rw [chunkPayload_eq s hm hc hs]; rfl
      have h5 : u.seq.cl = s.seq.cl := rfl
      rw [txDataAt, h5, h4]
      simp [hu, fillTx, hi]
    rwa [h3] at h2

theorem storeReceived_snoc (d : Descriptor) (m w n j : Nat) (bs : List Byte) (buf : List Host.Cell) :
    storeReceived d m w (n + 1) j bs buf =
      storeElem (storeReceived d m w n j bs buf) (j + n) m (receivedValue w d ((bs.drop (w * n)).take w)) := by
  induction n generalizing j bs buf with
  | zero => simp [storeReceived]
  | succ n ih =>
    rw [storeReceived, ih, storeReceived]
    congr 1
    · omega
    · rw [List.drop_drop, Nat.mul_succ, Nat.add_comm]

theorem storeReceived_append (d : Descriptor) (m w n j : Nat) (bs xs : List Byte) (buf : List Host.Cell)
    (h : w * n ≤ bs.length) :
    storeReceived d m w n j (bs ++ xs) buf = storeReceived d m w n j bs buf := by
  induction n generalizing j bs buf with
  | zero => rfl
  | succ n ih =>
    rw [Nat.mul_succ] at h
    rw [storeReceived, storeReceived, List.take_append_of_le_length (by omega),
      List.drop_append_of_le_length (by omega), ih _ _ _ (by simp; omega)]

/-- `s`, in RX_DRAIN with a fresh chunk, after `k` received bytes. -/
def drainAt (s : State) (k : Nat) : State :=
  let q := s.seq
  let bs := s.port.bytes.take k
  { s with
    port := { s.port with bytes := s.port.bytes.drop k }
    trace := s.trace ++ bs.map .rxRead
    buf := storeReceived s.descr q.m q.w (k / q.w) (q.sent / q.m) bs s.buf
    seq := { q with
      idx := k
      acc := BitVec.ofNat 64 (unmarshal (bs.drop (q.w * (k / q.w))) s.descr.datalsb)
      sent := if k = q.req then q.sent + q.cl else q.sent
      st := if k = q.req then .planRx else .rxDrain } }

/-- A byte that does not complete its element only goes into ACC (R137). -/
theorem absorb_within (s : State) (b : Byte) (pre : List Byte) (hl : pre.length = s.seq.idx % s.seq.w)
    (ha : s.seq.acc = BitVec.ofNat 64 (unmarshal pre s.descr.datalsb)) (hk : s.seq.idx % s.seq.w ≠ s.seq.w - 1) :
    absorb s b = s.withAcc (BitVec.ofNat 64 (unmarshal (pre ++ [b]) s.descr.datalsb)) := by
  rw [absorb, if_neg hk, ha, ← hl, absorbAcc_unmarshal]

/-- The byte that completes its element stores the element its bytes unmarshal to (R137). -/
theorem absorb_last (s : State) (b : Byte) (pre : List Byte) (hl : pre.length = s.seq.idx % s.seq.w)
    (ha : s.seq.acc = BitVec.ofNat 64 (unmarshal pre s.descr.datalsb)) (hk : s.seq.idx % s.seq.w = s.seq.w - 1)
    (hw : 0 < s.seq.w) (hw8 : s.seq.w ≤ 8) :
    absorb s b =
      (s.withElem (s.seq.sent / s.seq.m + s.seq.idx / s.seq.w) (receivedValue s.seq.w s.descr (pre ++ [b]))).withAcc
        0 := by
  have h1 : (pre ++ [b]).length = s.seq.w := by simp; omega
  have h2 : unmarshal (pre ++ [b]) s.descr.datalsb < 2 ^ 64 :=
    calc unmarshal _ _ < 256 ^ s.seq.w := by rw [← h1]; exact unmarshal_lt _ _
      _ ≤ 256 ^ 8 := Nat.pow_le_pow_right (by norm_num) hw8
      _ = 2 ^ 64 := by norm_num
  rw [absorb, if_pos hk, ha, ← hl, absorbAcc_unmarshal, BitVec.toNat_ofNat, Nat.mod_eq_of_lt h2, receivedValue]

theorem drainAt_step (s : State) {k : Nat} (hw : 0 < s.seq.w) (hw8 : s.seq.w ≤ 8) (hk : k < s.port.bytes.length)
    (hr : k < s.seq.req) : seqStep (drainAt s k) = drainAt s (k + 1) := by
  have hkr : k ≠ s.seq.req := by omega
  have hst : (drainAt s k).seq.st = .rxDrain := by simp [drainAt, hkr]
  have hb : (drainAt s k).port.bytes = s.port.bytes[k] :: s.port.bytes.drop (k + 1) := List.drop_eq_getElem_cons hk
  have ht : s.port.bytes.take (k + 1) = s.port.bytes.take k ++ [s.port.bytes[k]] := List.take_succ_eq_append_getElem hk
  have hl : (s.port.bytes.take k).length = k := by simp; omega
  have hdm := Nat.div_add_mod k s.seq.w
  have hmod : k % s.seq.w < s.seq.w := Nat.mod_lt _ hw
  have hpre : ((s.port.bytes.take k).drop (s.seq.w * (k / s.seq.w))).length = k % s.seq.w := by
    simp only [List.length_drop, hl]; omega
  have hdrop : (s.port.bytes.take (k + 1)).drop (s.seq.w * (k / s.seq.w)) =
      (s.port.bytes.take k).drop (s.seq.w * (k / s.seq.w)) ++ [s.port.bytes[k]] := by
    rw [ht, List.drop_append_of_le_length (by omega)]
  have hs : seqStep (drainAt s k) = (absorb ((drainAt s k).tookByte s.port.bytes[k] (s.port.bytes.drop (k + 1)))
      s.port.bytes[k]).countReceived := by
    rw [seqStep, hst]; simp only [stepRxDrain, hb]
  have htr : s.trace ++ (s.port.bytes.take k).map .rxRead ++ [.rxRead s.port.bytes[k]] =
      s.trace ++ (s.port.bytes.take (k + 1)).map .rxRead := by
    rw [ht, List.map_append, List.append_assoc, List.map_singleton]
  have hseq : (drainAt s k).seq = { s.seq with
      idx := k, st := .rxDrain,
      acc := BitVec.ofNat 64 (unmarshal ((s.port.bytes.take k).drop (s.seq.w * (k / s.seq.w))) s.descr.datalsb) } := by
    simp only [drainAt, hkr, if_false]
  have hend : (k + 1 < s.seq.req) = ¬ (k + 1 = s.seq.req) := by simp only [eq_iff_iff]; omega
  rw [hs]
  by_cases hlast : k % s.seq.w = s.seq.w - 1
  · have hk1 : k + 1 = s.seq.w * (k / s.seq.w + 1) := by rw [Nat.mul_succ]; omega
    have hdiv : (k + 1) / s.seq.w = k / s.seq.w + 1 := by rw [hk1, Nat.mul_div_cancel_left _ hw]
    rw [absorb_last ((drainAt s k).tookByte s.port.bytes[k] (s.port.bytes.drop (k + 1))) _
      ((s.port.bytes.take k).drop (s.seq.w * (k / s.seq.w))) hpre rfl hlast hw hw8]
    have hbuf : storeReceived s.descr s.seq.m s.seq.w ((k + 1) / s.seq.w) (s.seq.sent / s.seq.m)
        (s.port.bytes.take (k + 1)) s.buf =
        storeElem (storeReceived s.descr s.seq.m s.seq.w (k / s.seq.w) (s.seq.sent / s.seq.m) (s.port.bytes.take k) s.buf)
          (s.seq.sent / s.seq.m + k / s.seq.w) s.seq.m (receivedValue s.seq.w s.descr
            ((s.port.bytes.take k).drop (s.seq.w * (k / s.seq.w)) ++ [s.port.bytes[k]])) := by
      have hwhole : ((s.port.bytes.take k).drop (s.seq.w * (k / s.seq.w)) ++ [s.port.bytes[k]]).length ≤ s.seq.w := by
        rw [List.length_append, hpre, List.length_singleton]; omega
      rw [hdiv, storeReceived_snoc, hdrop, List.take_of_length_le hwhole, ht,
        storeReceived_append _ _ _ _ _ _ _ _ (by rw [hl]; omega)]
    have hacc : BitVec.ofNat 64 (unmarshal ((s.port.bytes.take (k + 1)).drop (s.seq.w * ((k + 1) / s.seq.w)))
        s.descr.datalsb) = 0 := by
      rw [hdiv, ← hk1, List.drop_of_length_le (by simp)]
      cases s.descr.datalsb <;> rfl
    conv_rhs => rw [drainAt, hbuf, hacc]
    apply State.ext
    case trace => exact htr
    case buf =>
      simp only [State.countReceived_buf, State.withAcc_buf, State.withElem_buf, State.tookByte_buf,
        State.tookByte_seq, State.tookByte_descr, hseq]
      rfl
    case seq =>
      simp only [State.countReceived_seq, State.withAcc_seq, State.withElem_seq, State.tookByte_seq, hseq, hend, ite_not]
    all_goals rfl
  · have hdiv : (k + 1) / s.seq.w = k / s.seq.w := by
      have h : k + 1 = s.seq.w * (k / s.seq.w) + (k % s.seq.w + 1) := by omega
      have h2 : (k % s.seq.w + 1) / s.seq.w = 0 := Nat.div_eq_of_lt (by omega)
      conv_lhs => rw [h, Nat.mul_add_div hw, h2, Nat.add_zero]
    rw [absorb_within ((drainAt s k).tookByte s.port.bytes[k] (s.port.bytes.drop (k + 1))) _
      ((s.port.bytes.take k).drop (s.seq.w * (k / s.seq.w))) hpre rfl hlast]
    have hbuf : storeReceived s.descr s.seq.m s.seq.w (k / s.seq.w) (s.seq.sent / s.seq.m)
        (s.port.bytes.take (k + 1)) s.buf =
        storeReceived s.descr s.seq.m s.seq.w (k / s.seq.w) (s.seq.sent / s.seq.m) (s.port.bytes.take k) s.buf := by
      rw [ht, storeReceived_append _ _ _ _ _ _ _ _ (by rw [hl]; omega)]
    conv_rhs => rw [drainAt, hdiv, hbuf, hdrop]
    apply State.ext
    case trace => exact htr
    case seq =>
      simp only [State.countReceived_seq, State.withAcc_seq, State.tookByte_seq, hseq, hend, ite_not]
      rfl
    all_goals rfl

/-- The sequencer drains a requested chunk (R136, R137, R190): it takes REQ bytes, or all the port gives if they are
fewer, and then stands where `drainChunk` says. -/
theorem reaches_drainChunk (s : State) (hst : s.seq.st = .rxDrain) (hw : 0 < s.seq.w) (hw8 : s.seq.w ≤ 8)
    (hi : s.seq.idx = 0) (ha : s.seq.acc = 0) (hr : 0 < s.seq.req) : Reaches s (drainChunk s) := by
  have h0 : drainAt s 0 = s := by
    have : BitVec.ofNat 64 (unmarshal [] s.descr.datalsb) = 0 := by cases s.descr.datalsb <;> rfl
    have h : (0 : Nat) ≠ s.seq.req := by omega
    apply State.ext
    case seq => apply Latches.ext <;> simp_all [drainAt]
    all_goals simp [drainAt, storeReceived]
  have h1 : ∀ k, k ≤ s.port.bytes.length → k ≤ s.seq.req → Reaches s (drainAt s k) := by
    intro k
    induction k with
    | zero => intros; rw [h0]; exact Reaches.refl _
    | succ k ih =>
      intro hk1 hk2
      exact (ih (by omega) (by omega)).trans (Reaches.of_step (drainAt_step s hw hw8 (by omega) (by omega)))
  have h2 := h1 (s.port.bytes.take s.seq.req).length (by simp) (by simp)
  have h3 : drainAt s (s.port.bytes.take s.seq.req).length = drainChunk s := by
    have e1 : s.port.bytes.take (s.port.bytes.take s.seq.req).length = s.port.bytes.take s.seq.req := by
      rw [List.length_take, List.take_eq_take_iff]; omega
    have e2 : s.port.bytes.drop (s.port.bytes.take s.seq.req).length = s.port.bytes.drop s.seq.req := by
      rw [List.length_take]
      rcases Nat.le_total s.seq.req s.port.bytes.length with h | h
      · rw [Nat.min_eq_left h]
      · rw [Nat.min_eq_right h, List.drop_of_length_le h, List.drop_of_length_le (Nat.le_refl _)]
    simp only [drainAt, drainChunk, e1, e2]
  rwa [h3] at h2

end Sys2Proof.Machine
end

