-- ==== Sys2Proof/Laws/Ops.lean ====
section
/-! SUPPORT. One lemma per shared operation that says once everything it can do. Later proofs cite these instead of
unfolding the operation. -/

namespace Sys2Proof.Machine

/-- A meaning answers a next state exactly in IDLE (R135). -/
theorem whenIdle_eq_next {s t u : State} : s.whenIdle t = .next u ↔ s.seq.st = .idle ∧ t = u := by
  unfold State.whenIdle
  split <;> simp_all

theorem whenIdle_of_idle {s t : State} (h : s.seq.st = .idle) : s.whenIdle t = .next t := if_pos h

theorem whenIdle_of_busy {s t : State} (h : s.seq.st ≠ .idle) : s.whenIdle t = .refused .commandWhileBusy := if_neg h

/-- Everything TX_CLOSE can do (R136, R210, R244). -/
theorem stepTxClose_cases (s : State) :
    (s.port.codes = [] ∧ stepTxClose s = s) ∨
    (∃ c cs, s.port.codes = c :: cs ∧
      ((s.probe = true ∧ c = 0 ∧ stepTxClose s = (s.tookCode c cs).probeOver.succeed 0) ∨
       (s.probe = true ∧ c ≠ 0 ∧ stepTxClose s = (s.tookCode c cs).probeOver.fail .transactionError) ∨
       (s.probe = false ∧ c ≠ 0 ∧ stepTxClose s = (s.tookCode c cs).countError.fail .transactionError) ∨
       (s.probe = false ∧ c = 0 ∧ s.seq.kind = .w ∧ s.seq.sent + s.seq.cl < s.seq.l ∧
          stepTxClose s = (s.tookCode c cs).advance.goto .planTx) ∨
       (s.probe = false ∧ c = 0 ∧ s.seq.kind = .w ∧ s.seq.l ≤ s.seq.sent + s.seq.cl ∧
          stepTxClose s = (s.tookCode c cs).advance.succeed 0) ∨
       (s.probe = false ∧ c = 0 ∧ s.seq.kind = .ra ∧ stepTxClose s = (s.tookCode c cs).toData) ∨
       (s.probe = false ∧ c = 0 ∧ s.seq.kind = .rd ∧ stepTxClose s = s.tookCode c cs))) := by
  unfold stepTxClose
  split
  · exact .inl ⟨‹_›, rfl⟩
  · rename_i c cs hc
    refine .inr ⟨c, cs, hc, ?_⟩
    cases hp : s.probe
    · by_cases h0 : c = 0
      · simp only [h0, afterClose, State.tookCode_seq]
        cases hk : s.seq.kind
        · by_cases hl : s.seq.sent + s.seq.cl < s.seq.l
          · simp [hl]
          · simp [hl, Nat.not_lt.mp hl]
        · simp
        · simp
      · simp [h0]
    · by_cases h0 : c = 0 <;> simp [h0]

/-- Everything RX_REQ can do (R136, R194, R244). -/
theorem stepRxReq_cases (s : State) :
    (s.port.avails = [] ∧ stepRxReq s = s) ∨
    (∃ a as, s.port.avails = a :: as ∧
      ((a < s.seq.req ∧ stepRxReq s = (s.tookAvail a as).countError.fail .shortTransfer) ∨
       (s.seq.req ≤ a ∧ stepRxReq s = (s.tookAvail a as).goto .rxDrain))) := by
  unfold stepRxReq
  split
  · exact .inl ⟨‹_›, rfl⟩
  · rename_i a as ha
    refine .inr ⟨a, as, ha, ?_⟩
    by_cases h : a < s.seq.req
    · exact .inl ⟨h, by simp [h]⟩
    · exact .inr ⟨Nat.not_lt.mp h, by simp [h]⟩

/-- Everything PLAN_RX can do (R136). -/
theorem stepPlanRx_cases (s : State) :
    (s.seq.l ≤ s.seq.sent ∧ stepPlanRx s = s.succeed 0) ∨ (s.seq.sent < s.seq.l ∧ stepPlanRx s = planRx s) := by
  unfold stepPlanRx
  split
  · exact .inl ⟨‹_›, rfl⟩
  · exact .inr ⟨by omega, rfl⟩

/-- Everything one pass of the WRITE loop can do: stop with the command ended or waiting, or go on with the next chunk
(R139). -/
theorem writeLoop_succ (fuel : Nat) (s : State) :
    writeLoop (fuel + 1) s =
      if (stepTxClose (fillTx (planTx s))).seq.st = .planTx then writeLoop fuel (stepTxClose (fillTx (planTx s)))
      else stepTxClose (fillTx (planTx s)) := rfl

/-- A pass of the WRITE loop goes on exactly after a chunk closed with code 0 that was not the last (R139, R173). -/
theorem stepTxClose_planTx {s : State} (hst : s.seq.st = .txClose) (h : (stepTxClose s).seq.st = .planTx) :
    ∃ cs, s.port.codes = 0 :: cs ∧ s.probe = false ∧ s.seq.kind = .w ∧ s.seq.sent + s.seq.cl < s.seq.l ∧
      stepTxClose s = (s.tookCode 0 cs).advance.goto .planTx := by
  rcases stepTxClose_cases s with ⟨-, e⟩ | ⟨c, cs, hc, ⟨-, -, e⟩ | ⟨-, -, e⟩ | ⟨-, -, e⟩ | ⟨hp, h0, hk, hl, e⟩ |
    ⟨-, -, -, -, e⟩ | ⟨-, -, -, e⟩ | ⟨-, -, -, e⟩⟩
  · rw [e, hst] at h; cases h
  · rw [e] at h; simp at h
  · rw [e] at h; simp at h
  · rw [e] at h; simp at h
  · subst h0; exact ⟨cs, hc, hp, hk, hl, e⟩
  · rw [e] at h; simp at h
  · rw [e] at h; simp at h
  · rw [e] at h; simp [hst] at h

/-- A pass of the READ loop (R190 step 4). -/
theorem readLoop_succ (fuel : Nat) (s : State) :
    readLoop (fuel + 1) s =
      if s.seq.l ≤ s.seq.sent then s.succeed 0
      else if (stepRxReq (planRx s)).seq.st = .rxDrain then
        if (drainChunk (stepRxReq (planRx s))).seq.st = .planRx then readLoop fuel (drainChunk (stepRxReq (planRx s)))
        else drainChunk (stepRxReq (planRx s))
      else stepRxReq (planRx s) := rfl

/-- The request of a planned chunk is granted exactly when the port answers at least REQ (R194). -/
theorem stepRxReq_rxDrain {s : State} (hst : s.seq.st = .rxReq) (h : (stepRxReq s).seq.st = .rxDrain) :
    ∃ a as, s.port.avails = a :: as ∧ s.seq.req ≤ a ∧ stepRxReq s = (s.tookAvail a as).goto .rxDrain := by
  rcases stepRxReq_cases s with ⟨-, e⟩ | ⟨a, as, ha, ⟨-, e⟩ | ⟨hr, e⟩⟩
  · rw [e, hst] at h; cases h
  · rw [e] at h; simp at h
  · exact ⟨a, as, ha, hr, e⟩

theorem seqStep_planTx {s : State} (h : s.seq.st = .planTx) : seqStep s = planTx s := by rw [seqStep, h]

theorem seqStep_txClose {s : State} (h : s.seq.st = .txClose) : seqStep s = stepTxClose s := by rw [seqStep, h]

theorem seqStep_planRx {s : State} (h : s.seq.st = .planRx) : seqStep s = stepPlanRx s := by rw [seqStep, h]

theorem seqStep_rxReq {s : State} (h : s.seq.st = .rxReq) : seqStep s = stepRxReq s := by rw [seqStep, h]

/-- What absorbing a byte leaves unchanged; of the latches it writes only ACC, of BUF at most one element (R137). -/
theorem absorb_frame (s : State) (b : Byte) :
    (absorb s b).cfg = s.cfg ∧ (absorb s b).desc = s.desc ∧ (absorb s b).errcnt = s.errcnt ∧
      (absorb s b).res = s.res ∧ (absorb s b).probe = s.probe ∧ (absorb s b).host = s.host ∧
      (absorb s b).port = s.port ∧ (absorb s b).trace = s.trace ∧ (absorb s b).draws = s.draws ∧
      (∃ acc, (absorb s b).seq = { s.seq with acc := acc }) ∧
      ((absorb s b).buf = s.buf ∨
        ∃ v, (absorb s b).buf = storeElem s.buf (s.seq.sent / s.seq.m + s.seq.idx / s.seq.w) s.seq.m v) := by
  unfold absorb
  split
  · exact ⟨rfl, rfl, rfl, rfl, rfl, rfl, rfl, rfl, rfl, ⟨_, rfl⟩, .inr ⟨_, rfl⟩⟩
  · exact ⟨rfl, rfl, rfl, rfl, rfl, rfl, rfl, rfl, rfl, ⟨_, rfl⟩, .inl rfl⟩

/-- Everything RX_DRAIN can do (R136, R137, R244). -/
theorem stepRxDrain_cases (s : State) :
    (s.port.bytes = [] ∧ stepRxDrain s = s) ∨
    (∃ b bs, s.port.bytes = b :: bs ∧ stepRxDrain s = (absorb (s.tookByte b bs) b).countReceived) := by
  unfold stepRxDrain
  split
  · exact .inl ⟨‹_›, rfl⟩
  · exact .inr ⟨_, _, ‹_›, rfl⟩

/-- Everything a step can do: stay, execute a command, answer an illegal word, store, reset, or one transition. -/
theorem step_cases {s t : State} (h : Sys2Proof.Machine.step s = .next t) :
    (s.seq.st = .idle ∧ s.host = [] ∧ t = s) ∨
    (∃ cw rest i, s.seq.st = .idle ∧ s.host = .command cw :: rest ∧ decode cw = .legal i ∧
      exec i { s with host := rest } = .next t) ∨
    (∃ cw rest why, s.seq.st = .idle ∧ s.host = .command cw :: rest ∧ decode cw = .illegal why ∧
      t = illegalCommand { s with host := rest }) ∨
    (∃ a b rest, s.seq.st = .idle ∧ s.host = .store a b :: rest ∧ a < s.cfg.bufBytes ∧
      t = { s with host := rest, buf := bufSet s.buf a b }) ∨
    (∃ rest, s.seq.st = .idle ∧ s.host = .reset :: rest ∧ t = hostReset { s with host := rest }) ∨
    (s.seq.st ≠ .idle ∧ s.host.head? ≠ some .reset ∧ t = seqStep s) := by
  unfold Sys2Proof.Machine.step fetch at h
  by_cases hst : s.seq.st = .idle
  · rw [if_pos hst] at h
    unfold hostMove at h
    cases hh : s.host with
    | nil => rw [hh] at h; cases h; exact .inl ⟨hst, rfl, rfl⟩
    | cons mv rest =>
      rw [hh] at h
      cases mv with
      | command cw =>
        cases hd : decode cw with
        | legal i => simp only [hd] at h; exact .inr (.inl ⟨cw, rest, i, hst, rfl, hd, h⟩)
        | illegal why =>
          simp only [hd] at h; cases h
          exact .inr (.inr (.inl ⟨cw, rest, why, hst, rfl, hd, rfl⟩))
      | store a b =>
        simp only [hostStore] at h
        split at h
        · cases h; exact .inr (.inr (.inr (.inl ⟨a, b, rest, hst, rfl, ‹_›, rfl⟩)))
        · cases h
      | reset =>
        cases h; exact .inr (.inr (.inr (.inr (.inl ⟨rest, hst, rfl, rfl⟩))))
  · rw [if_neg hst] at h
    simp only [busyStep] at h
    split at h
    · cases h
    · cases h; exact .inr (.inr (.inr (.inr (.inr ⟨hst, ‹_›, rfl⟩))))

theorem portRun_append (c : Nat) (p : PortPhase) (xs ys : List Event) :
    portRun c p (xs ++ ys) = (portRun c p xs).bind fun q => portRun c q ys := by
  induction xs generalizing p with
  | nil => simp [portRun]
  | cons x xs ih =>
    simp only [List.cons_append, portRun]
    cases portNext c p x with
    | none => rfl
    | some q => exact ih q

end Sys2Proof.Machine
end

