-- ==== Sys2Proof/Laws/PerInstr.lean ====
section
/-! SUPPORT. One per-instruction family: the opcode nibble of each command's word (`30_encoding.md` R85). -/

namespace Sys2Proof.Laws.OpcodeNibble

/-- The opcode of R85. -/
def opcode : Instr → BitVec 4
  | .configure _ => 1
  | .release => 2
  | .write _ _ _ _ => 3
  | .read _ _ _ => 4
  | .probe => 5
  | .errcount => 6
  | .clrerr => 7

/-- `CW[63:60]` of a command's word is its opcode (R81, R85). -/
def Statement (i : Instr) : Prop := opField (encode i) = opcode i

theorem opField_encodeX (op : BitVec 4) (ns : Bool) (e : BitVec 4) (ra : RegAddr) (c : BitVec 16) :
    opField (encodeX op ns e ra c) = op := by
  apply BitVec.eq_of_getLsbD_eq
  intro i hi
  simp only [opField, encodeX, BitVec.getLsbD_extractLsb', BitVec.getLsbD_append]
  have h1 : ¬ 60 + i < 16 := by omega
  have h2 : ¬ 60 + i - 16 < 16 := by omega
  have h3 : ¬ 60 + i - 16 - 16 < 16 := by omega
  have h4 : ¬ 60 + i - 16 - 16 - 16 < 4 := by omega
  have h5 : ¬ 60 + i - 16 - 16 - 16 - 4 < 4 := by omega
  have h6 : ¬ 60 + i - 16 - 16 - 16 - 4 - 4 < 3 := by omega
  have h7 : ¬ 60 + i - 16 - 16 - 16 - 4 - 4 - 3 < 1 := by omega
  have h8 : 60 + i - 16 - 16 - 16 - 4 - 4 - 3 - 1 = i := by omega
  simp only [h1, h2, h3, h4, h5, h6, h7, h8, hi, decide_true, Bool.true_and, if_false]

theorem configure (dflags : Word32) : Statement (.configure dflags) := by
  apply BitVec.eq_of_getLsbD_eq
  intro i hi
  have h1 : ¬ 60 + i < 32 := by omega
  have h2 : ¬ 60 + i - 32 < 28 := by omega
  have h3 : 60 + i - 32 - 28 = i := by omega
  simp only [opField, encode, BitVec.getLsbD_extractLsb', BitVec.getLsbD_append, opcode, h1, h2, h3, hi, decide_true,
    Bool.true_and, if_false]
  rfl

theorem release : Statement .release := by unfold Statement; decide

theorem write (ns : Bool) (esize : BitVec 4) (regaddr : RegAddr) (count : BitVec 16) :
    Statement (.write ns esize regaddr count) := opField_encodeX 3 ns esize regaddr count

theorem read (esize : BitVec 4) (regaddr : RegAddr) (count : BitVec 16) : Statement (.read esize regaddr count) :=
  opField_encodeX 4 false esize regaddr count

theorem probe : Statement .probe := by unfold Statement; decide

theorem errcount : Statement .errcount := by unfold Statement; decide

theorem clrerr : Statement .clrerr := by unfold Statement; decide

end Sys2Proof.Laws.OpcodeNibble
end

