-- ==== Sys2Proof/Tests/Slice0.lean ====
section
/-! SUPPORT. The model's own tests, on the vectors of `spec/95_test_vectors.md`, and for each statement with hypotheses a
state and operands that meet them. -/

namespace Sys2Proof.Tests

open Sys2Proof.Machine

/-- `MAX_CHUNK = 32`, `ERRCNT_W = 16`, `BUF_BYTES = 256`, the example values of R7. -/
def cfg : Params := { chunkOver8 := 24, errWidthLess1 := 15, bufCellsLess1 := 31 }

/-- `CONFIGURE 0x48, REG1` (V-D2). -/
def reg1 : Descriptor :=
  { busaddr := 0x48, regw := .one, reglsb := .msbFirst, datalsb := .msbFirst, nostop := .stop, wide := .plain }

/-- `CONFIGURE 0x48, SIGNED24` (V-D4). -/
def signed24 : Descriptor := { reg1 with regw := .none, wide := .signed24 }

/-- An idle block with the given descriptor, BUF bytes from address 0 on, and port answers. -/
def idleWith (d : Option Descriptor) (bytes : List Byte) (port : Port) : State :=
  { State.resetWith cfg with desc := d, buf := bufSetBytes [] 0 bytes, port := port }

/-- The next state of an outcome. -/
def nextOf (o : Host.Outcome State Fault Refusal) : Option State :=
  match o with
  | .next t => some t
  | .fault _ => none
  | .refused _ => none

/-! ## WellFormed: each check refuses an ill-formed command -/

theorem test_refuses_dflags_bit7 : (Instr.configure 0xC8).wellFormed cfg = false := by decide
theorem test_refuses_dflags_bit15 : (Instr.configure 0x8048).wellFormed cfg = false := by decide
theorem test_refuses_regw3 : (Instr.configure 0x348).wellFormed cfg = false := by decide
theorem test_refuses_wide3 : (Instr.configure 0x6048).wellFormed cfg = false := by decide
theorem test_refuses_esize5 :
    (Instr.write false 5 0x10 1).wellFormed cfg = false ∧ (Instr.read 15 0x10 1).wellFormed cfg = false := by decide
theorem test_refuses_too_long :
    (Instr.write false 8 0 33).wellFormed cfg = false ∧ (Instr.read 3 0 65).wellFormed cfg = false := by decide
theorem test_accepts_longest :
    (Instr.write false 8 0 32).wellFormed cfg = true ∧ (Instr.read 3 0 64).wellFormed cfg = true ∧
      (Instr.configure 0x80000148).wellFormed cfg = true := by decide

/-! ## Decode: words of section 2.1 of the vectors -/

theorem test_decode_configure : decode 0x100000000000361D = .legal (.configure 0x361D) := by decide
theorem test_decode_release : decode 0x2000000000000000 = .legal .release := by decide
theorem test_decode_write : decode 0x304000200000000A = .legal (.write false 4 0x20 10) := by decide
theorem test_decode_write_ns : decode 0x3800001000000000 = .legal (.write true 0 0x10 0) := by decide
theorem test_decode_read : decode 0x408000F700000001 = .legal (.read 8 0xF7 1) := by decide
theorem test_decode_exists : decode 0x5000000000000000 = .legal .probe := by decide
theorem test_decode_errcount : decode 0x6000000000000000 = .legal .errcount := by decide
theorem test_decode_clrerr : decode 0x7000000000000000 = .legal .clrerr := by decide
/-- V-I1 to V-I10. -/
theorem test_decode_illegal :
    [0x0000000000000000#64, 0x8000000000000000#64, 0xF000000000000000#64, 0x2000000000000001#64, 0x6000000100000000#64,
      0x4810000000000001#64, 0x3110001000000001#64, 0x3011001000000001#64, 0x3010001000010001#64,
      0x1000000100000148#64].map (fun w => (decode w).instr?) = List.replicate 10 none := by decide
theorem test_encode_write : encode (.write false 8 0xFFF8 2) = 0x3080FFF800000002#64 := by decide

/-! ## The pure functions: sections 2.2 to 2.4 -/

theorem test_chunk_plan : chunkPlan 80 30 8 = [24, 24, 24, 8] ∧ writePlan 0 32 4 = [0] ∧ chunkPlan 0 32 4 = [] := by
  decide
theorem test_chunk_addr_wraps : chunkAddr 0xFFF8 8 = 0 := by decide
theorem test_marshal : marshal 0xDEADBEEF 4 .msbFirst = [0xDE, 0xAD, 0xBE, 0xEF] ∧
    unmarshal [0x12, 0x34, 0x56] .lsbFirst = 0x563412 := by decide
theorem test_wide24 : wide24 0x800000 .signed24 = 0xFF800000 ∧ wide24 0x800000 .unsigned24 = 0x00800000 := by decide

/-! ## One command each -/

/-- V-C1 -/
theorem test_configure_stores :
    (nextOf (exec (.configure 0x148) (idleWith none [] ⟨[], [], []⟩))).map (fun t => (t.descWord, t.res.packed)) =
      some (0x80000148, 0x800000000) := by decide
/-- V-C2 with R23: BUSADDR 0x1D, REGW 2, REGLSB 1, DATALSB 0, NOSTOP 1, WIDE 1, the fields that 0x361D spells bit by
bit; and DATALSB 1 alone with WIDE 2. -/
theorem test_configure_fields :
    ((nextOf (exec (.configure 0x361D) (idleWith none [] ⟨[], [], []⟩))).map (fun t => (t.desc, t.descWord)) =
      some (some ⟨0x1D, .two, .lsbFirst, .msbFirst, .noStop, .signed24⟩, 0x8000361D)) ∧
    ((nextOf (exec (.configure 0x4800) (idleWith none [] ⟨[], [], []⟩))).map (fun t => t.desc) =
      some (some ⟨0, .none, .msbFirst, .lsbFirst, .stop, .unsigned24⟩)) := by decide
/-- V-C5 -/
theorem test_configure_refuses_regw3 :
    (nextOf (exec (.configure 0x348) (idleWith (some reg1) [] ⟨[], [], []⟩))).map (fun t => (t.descWord, t.res.packed)) =
      some (0x80000148, 0x400000000) := by decide
/-- V-C3 -/
theorem test_release :
    (nextOf (exec .release (idleWith (some reg1) [] ⟨[], [], []⟩))).map (fun t => (t.descWord, t.res.packed)) =
      some (0, 0x800000000) := by decide
/-- S6 -/
theorem test_write_msb_first :
    (nextOf (exec (.write false 2 0x10 1) (idleWith (some reg1) [0x34, 0x12] ⟨[0], [], []⟩))).map (fun t => t.trace) =
      some [.txBegin 0x48, .txWrite 0x10, .txWrite 0x12, .txWrite 0x34, .txEnd true 0] := by decide
/-- V-E8: the counter wraps. -/
theorem test_write_fails_and_wraps :
    (nextOf (exec (.write false 1 0 1)
      { idleWith (some reg1) [0] ⟨[1], [], []⟩ with errcnt := 65535 })).map (fun t => (t.errcnt, t.res.packed)) =
      some (0, 0x200000000) := by decide
/-- S8 -/
theorem test_read_wide :
    (nextOf (exec (.read 4 0 1) (idleWith (some signed24) [] ⟨[], [3], [0xFF, 0, 0]⟩))).map
      (fun t => (t.bufElem 0 4, t.trace)) =
      some (0xFFFF0000, [.rxRequest 0x48 3 3, .rxRead 0xFF, .rxRead 0, .rxRead 0]) := by decide
/-- V-RD7 -/
theorem test_read_short :
    (nextOf (exec (.read 2 0x75 1) (idleWith (some reg1) [7] ⟨[0], [1], [5]⟩))).map
      (fun t => (t.trace, t.buf, t.errcnt)) =
      some ([.txBegin 0x48, .txWrite 0x75, .txEnd true 0, .rxRequest 0x48 2 1], [(0, 7)], 1) := by decide
/-- R270, U3 (assumption 3): the reset input forgets BUF and draws what is unwritten anew. -/
theorem test_reset_draws_anew :
    (nextOf (Sys2Proof.Machine.step { idleWith none [7] ⟨[], [], []⟩ with host := [.reset] })).map
      (fun t => (t.buf, t.draws)) = some ([], 1) := by decide
/-- V-E2 -/
theorem test_exists_absent :
    (nextOf (exec .probe { idleWith (some reg1) [] ⟨[5], [], []⟩ with errcnt := 7 })).map
      (fun t => (t.trace, t.res.packed, t.errcnt)) =
      some ([.txBegin 0x48, .txEnd true 5], 0x200000000, 7) := by decide
/-- V-E3 -/
theorem test_exists_uninitialized :
    (nextOf (exec .probe (idleWith none [] ⟨[5], [], []⟩))).map (fun t => (t.trace, t.res.packed)) =
      some ([], 0x100000000) := by decide
/-- V-E5 -/
theorem test_errcount :
    (nextOf (exec .errcount { idleWith none [] ⟨[], [], []⟩ with errcnt := 3 })).map (fun t => t.res.packed) =
      some 0x800000003 := by decide
/-- V-E6 -/
theorem test_clrerr :
    (nextOf (exec .clrerr { idleWith none [] ⟨[], [], []⟩ with errcnt := 3 })).map
      (fun t => (t.errcnt, t.res.packed)) = some (0, 0x800000000) := by decide
/-- V-A11: WR_S16 stores the low byte first. -/
theorem test_accessor_stores :
    (Pseudo.wr .wrS16 0x10 (-2)).expand =
      some [.store 0 0xFE, .store 1 0xFF, .command 0x3020001000000001] := by decide
/-- V-A4 -/
theorem test_accessor_value :
    (ReadAccessor.rdS16.value (idleWith none [0x01, 0x80] ⟨[], [], []⟩)).toInt = -32767 := by decide

/-! ## The hypotheses of the statements can be met -/

/-- An idle block that has `reg1`, BUF filled with 40 bytes, and the given port answers. -/
def ready (port : Port) : State := idleWith (some reg1) ((List.range 40).map (BitVec.ofNat 8)) port

/-- A WRITE that waits for its TxEnd. -/
def waitingWrite : State := (nextOf (exec (.write false 1 0 1) (ready ⟨[], [], []⟩))).getD (ready ⟨[], [], []⟩)

theorem witness_OpcodeMapMatchAndMask :
    opField 0x0000000000000000 = 0 ∧ 8 ≤ (opField 0x8000000000000000).toNat ∧
      8 ≤ (opField 0xFFFFFFFFFFFFFFFF).toNat := by decide
theorem witness_EncodeOfDecode : decode 0x3080FFF800000002 = .legal (.write false 8 0xFFF8 2) := by decide
/-- A word the host hands over, and one the stand-in for it places. -/
theorem witness_StepRunsDecodedCommand :
    let s := { ready ⟨[], [], []⟩ with host := [.command 0x2000000000000000, .reset] }
    (s.seq.st = .idle ∧ s.host = .command 0x2000000000000000 :: [.reset] ∧
      decode 0x2000000000000000 = .legal .release) ∧
      decodeTableWord 64 0x3020001000000001 = some (.write false 2 0x10 1) := by decide
theorem witness_IllegalWordAnsweredBadCommand :
    let s := { ready ⟨[], [], []⟩ with host := [.command 0x4810000000000001] }
    s.seq.st = .idle ∧ s.host = .command 0x4810000000000001 :: [] ∧
      decode 0x4810000000000001 = .illegal (.reservedField 4 .ns) := by decide
theorem witness_IdleWithoutMoveDoesNothing : (ready ⟨[], [], []⟩).seq.st = .idle ∧ (ready ⟨[], [], []⟩).host = [] := by
  decide
theorem witness_HostStoreWritesOneByte :
    let s := { ready ⟨[], [], []⟩ with host := [.store 255 7] }
    let u := { ready ⟨[], [], []⟩ with host := [.store 256 7] }
    (s.seq.st = .idle ∧ s.host = .store 255 7 :: [] ∧ 255 < s.cfg.bufBytes) ∧
      (u.seq.st = .idle ∧ u.host = .store 256 7 :: [] ∧ ¬ 256 < u.cfg.bufBytes) := by decide
theorem witness_ResetValues :
    let s := { ready ⟨[1], [], []⟩ with host := [.reset] }
    s.seq.st = .idle ∧ s.host = .reset :: [] := by decide
theorem witness_ResetForgetsBuffer :
    let s := { ready ⟨[1], [], []⟩ with host := [.reset, .store 0 1] }
    s.seq.st = .idle ∧ s.host = .reset :: [.store 0 1] ∧ s.buf ≠ [] := by decide
theorem witness_BusyStepIsOneTransition :
    (acceptWrite (ready ⟨[], [], []⟩) false 0 1 1).seq.st ≠ .idle ∧
      (acceptWrite (ready ⟨[], [], []⟩) false 0 1 1).host.head? ≠ some .reset := by decide
theorem witness_WaitingChangesNothing : waitingWrite.waiting = true ∧ waitingWrite.host.head? ≠ some .reset := by decide
/-- A reset while the engine runs, and one while it waits. -/
theorem witness_BusyRefusesCommandAndReset :
    let s := { acceptWrite (ready ⟨[], [], []⟩) false 0 1 1 with host := [.reset] }
    let u := { waitingWrite with host := [.reset] }
    (s.seq.st ≠ .idle ∧ s.waiting = false ∧ s.host = .reset :: []) ∧
      (u.seq.st ≠ .idle ∧ u.waiting = true ∧ u.host = .reset :: []) := by decide

/-- Each way a DFLAGS is illegal, and the legal one with bit 31 set. -/
theorem witness_ConfigureStoresDescriptor :
    (ready ⟨[], [], []⟩).seq.st = .idle ∧ (0x80#32).extractLsb' 7 1 ≠ 0 ∧ (0x40000000#32).extractLsb' 15 16 ≠ 0 ∧
      (0x300#32).extractLsb' 8 2 = 3 ∧ (0x6000#32).extractLsb' 13 2 = 3 ∧
      ¬ ((0x80005E7F#32).extractLsb' 7 1 ≠ 0 ∨ (0x80005E7F#32).extractLsb' 15 16 ≠ 0 ∨
        (0x80005E7F#32).extractLsb' 8 2 = 3 ∨ (0x80005E7F#32).extractLsb' 13 2 = 3) := by decide
/-- Later commands without a CONFIGURE, a WRITE and a READ among them. -/
theorem witness_ReleaseClearsDescriptor :
    (ready ⟨[], [], []⟩).seq.st = .idle ∧ (ready ⟨[], [], []⟩).desc ≠ none ∧
      ∀ f, Instr.configure f ∉ [Instr.write false 2 0x10 1, .errcount, .read 1 0 1, .release] :=
  ⟨by decide, by decide, by intro f; simp⟩
theorem witness_SessionKeepsDescriptor :
    ∃ t, Sys2Proof.Machine.step { ready ⟨[], [], []⟩ with host := [.command 0x2000000000000000] } = .next t ∧
      t.desc ≠ (ready ⟨[], [], []⟩).desc := ⟨_, rfl, by decide⟩

/-- An answer 0, an answer 3, and an uninitialized block. -/
theorem witness_ExistsReportsAnswer :
    ((ready ⟨[0], [], []⟩).seq.st = .idle ∧ (ready ⟨[0], [], []⟩).desc = some reg1 ∧
      (ready ⟨[0], [], []⟩).port.codes = 0 :: []) ∧ (ready ⟨[3, 1], [], []⟩).port.codes = 3 :: [1] ∧
      ((idleWith none [] ⟨[0], [], []⟩).seq.st = .idle ∧ (idleWith none [] ⟨[0], [], []⟩).desc = none) := by decide
theorem witness_ExistsWaitsForAnswer :
    (ready ⟨[], [1], []⟩).seq.st = .idle ∧ (ready ⟨[], [1], []⟩).desc = some reg1 ∧
      (ready ⟨[], [1], []⟩).port.codes = [] := by decide
theorem witness_ErrcountReadsCounter :
    let s := { ready ⟨[], [], []⟩ with errcnt := 65535 }
    s.seq.st = .idle ∧ s.errcnt < 2 ^ s.cfg.errcntW := by decide
theorem witness_ClrerrClearsCounter :
    (ready ⟨[], [], []⟩).seq.st = .idle ∧
      ∃ t, exec (.write false 1 0 1) (ready ⟨[2], [], []⟩) = .next t ∧ t.errcnt = 1 ∧
        Instr.write false 1 0 1 ≠ .clrerr := ⟨by decide, _, rfl, by decide⟩

/-- A failing close, a short answer, and a transition that is neither. -/
theorem witness_TransitionCountsFailedTransaction :
    let close := { waitingWrite with port := { codes := [2], avails := [], bytes := [] } }
    let short := planRx (acceptRead (ready ⟨[], [0], []⟩) 0 1 1)
    (close.seq.st = .txClose ∧ close.probe = false ∧ close.port.codes = 2 :: [] ∧ 2 ≠ 0) ∧
      (short.seq.st = .rxReq ∧ short.port.avails = 0 :: [] ∧ 0 < short.seq.req) ∧
      (acceptWrite (ready ⟨[], [], []⟩) false 0 1 1).seq.st = .planTx := by decide

/-- A failing WRITE and an EXISTS. -/
theorem witness_CommandAddsItsFailures :
    (ready ⟨[2], [], []⟩).errcnt < 2 ^ (ready ⟨[2], [], []⟩).cfg.errcntW ∧
      (∃ t, exec (.write false 1 0 1) (ready ⟨[2], [], []⟩) = .next t ∧ t.errcnt = 1) ∧
      ∃ t, exec .probe (ready ⟨[2], [], []⟩) = .next t ∧ t.errcnt = 0 :=
  ⟨by decide, ⟨_, rfl, by decide⟩, ⟨_, rfl, by decide⟩⟩
theorem witness_ChunkPlanLaws :
    (8 ≤ 8 ∧ legalSize 8 ∧ 8 ∣ 16) ∧ (8 ≤ 30 ∧ legalSize 4 ∧ 4 ∣ 36) ∧ (8 ≤ 32 ∧ legalSize 0 ∧ 0 ∣ 0) := by
  unfold legalSize; decide
theorem witness_AddressPhaseBytes :
    signed24.regw = .none ∧ reg1.regw = .one ∧
      ({ reg1 with regw := .two } : Descriptor).reglsb = .msbFirst ∧
      ({ reg1 with regw := .two, reglsb := .lsbFirst } : Descriptor).reglsb = .lsbFirst := by decide
theorem witness_AdvancedAddressWraps :
    reg1.regw = .one ∧ ({ reg1 with regw := .two } : Descriptor).regw = .two ∧
      ({ reg1 with regw := .two } : Descriptor).reglsb = .msbFirst ∧
      ({ reg1 with regw := .two, reglsb := .lsbFirst } : Descriptor).reglsb = .lsbFirst := by decide
theorem witness_MarshalRoundTrip :
    0xDEADBEEF < 256 ^ 4 ∧ legalSize 4 ∧ (4 ≠ 4 ∨ reg1.wide = .plain) ∧ (legalSize 8 ∧ (8 ≠ 4 ∨ signed24.wide = .plain)) := by
  unfold legalSize; decide
theorem witness_WideExpansion :
    (0x800000#24).getLsbD 23 = true ∧ (0x7FFFFF#24).getLsbD 23 = false ∧ signed24.wide ≠ .plain := by decide
theorem witness_AccumulatorHoldsUnmarshal : (List.replicate 8 (0xFF : Byte)).length ≤ 8 := by decide

/-- An uninitialized block, and a command that never answers NOT_INITIALIZED. -/
theorem witness_UninitializedFailsFast :
    (idleWith none [] ⟨[0], [], []⟩).seq.st = .idle ∧ (idleWith none [] ⟨[0], [], []⟩).desc = none ∧
      ∃ t, exec .errcount (idleWith none [] ⟨[0], [], []⟩) = .next t := ⟨by decide, by decide, _, rfl⟩

/-- An illegal size, a transfer one element too long, an illegal DFLAGS on an uninitialized block. -/
theorem witness_IllegalOperandAnsweredBadCommand :
    (ready ⟨[], [], []⟩).seq.st = .idle ∧ (ready ⟨[], [], []⟩).desc ≠ none ∧
      (Instr.write false 5 0x10 1).wellFormed (ready ⟨[], [], []⟩).cfg = false ∧
      (Instr.read 8 0 33).wellFormed (ready ⟨[], [], []⟩).cfg = false ∧
      (Instr.configure 0x348).wellFormed (idleWith none [] ⟨[], [], []⟩).cfg = false := by decide

/-- 40 bytes in two chunks, and the longest transfer. -/
theorem witness_WriteSucceeds :
    let s := ready ⟨[0, 0, 5], [], []⟩
    s.seq.st = .idle ∧ s.desc = some reg1 ∧ effSize 4 = some 4 ∧ 4 * (10#16).toNat ≤ s.cfg.bufBytes ∧
      s.port.codes = List.replicate (writePlan (4 * (10#16).toNat) s.cfg.maxChunk 4).length 0 ++ [5] ∧
      8 * (32#16).toNat = s.cfg.bufBytes := by decide
theorem witness_WriteStopsAtFirstFailure :
    let s := ready ⟨[0, 2, 5], [], []⟩
    s.seq.st = .idle ∧ s.desc = some reg1 ∧ effSize 4 = some 4 ∧ 4 * (10#16).toNat ≤ s.cfg.bufBytes ∧
      1 < (writePlan (4 * (10#16).toNat) s.cfg.maxChunk 4).length ∧ 2 ≠ 0 ∧
      s.port.codes = List.replicate 1 0 ++ 2 :: [5] := by decide
theorem witness_WriteWaitsForAnswer :
    let s := ready ⟨[0], [], []⟩
    s.seq.st = .idle ∧ s.desc = some reg1 ∧ effSize 4 = some 4 ∧ 4 * (10#16).toNat ≤ s.cfg.bufBytes ∧
      1 < (writePlan (4 * (10#16).toNat) s.cfg.maxChunk 4).length ∧ s.port.codes = List.replicate 1 0 := by decide
/-- ESIZE 0 with a COUNT, and COUNT 0 with a size, with and without a register address. -/
theorem witness_ZeroLengthWrite :
    let s := ready ⟨[2], [], []⟩
    s.seq.st = .idle ∧ s.desc = some reg1 ∧ effSize 0 = some 0 ∧ 0 * (33#16).toNat = 0 ∧ effSize 4 = some 4 ∧
      4 * (0#16).toNat = 0 ∧ s.port.codes = 2 :: [] ∧
      (let u := idleWith (some signed24) [] ⟨[0], [], []⟩
       u.seq.st = .idle ∧ u.desc = some signed24 ∧ u.port.codes = 0 :: [] ∧ signed24.regw = .none) := by decide
theorem witness_WriteIgnoresWideAndNostop :
    (ready ⟨[0], [], []⟩).seq.st = .idle ∧ (ready ⟨[0], [], []⟩).desc = some reg1 := by decide
theorem witness_WriteFrame :
    ∃ t, exec (.write true 4 0x20 10) (ready ⟨[0, 0], [], []⟩) = .next t := ⟨_, rfl⟩

/-- 40 bytes in two granted requests, after an address-set phase and without one; wide elements. -/
theorem witness_ReadSucceeds :
    let bs : List Byte := List.replicate 40 0xA5
    let s := ready ⟨[0, 9], [32, 9, 6], bs ++ [1, 2]⟩
    let u := idleWith (some signed24) [] ⟨[9], [3], [0xFF, 0, 0]⟩
    (s.seq.st = .idle ∧ s.desc = some reg1 ∧ effSize 4 = some 4 ∧ 4 * (10#16).toNat ≤ s.cfg.bufBytes ∧
      s.port.codes = (if reg1.regw = .none then [9] else 0 :: [9]) ∧ s.port.avails = [32, 9] ++ [6] ∧
      List.Forall₂ (fun cl a => wireLen (wireWidth 4 reg1.wide) cl ≤ a)
        (chunkPlan (4 * (10#16).toNat) s.cfg.maxChunk 4) [32, 9] ∧
      s.port.bytes = bs ++ [1, 2] ∧ bs.length = wireWidth 4 reg1.wide * (10#16).toNat) ∧
    (u.seq.st = .idle ∧ u.desc = some signed24 ∧ effSize 3 = some 4 ∧ 4 * (1#16).toNat ≤ u.cfg.bufBytes ∧
      u.port.codes = (if signed24.regw = .none then [9] else 0 :: [9]) ∧ u.port.avails = [3] ++ [] ∧
      List.Forall₂ (fun cl a => wireLen (wireWidth 4 signed24.wide) cl ≤ a)
        (chunkPlan (4 * (1#16).toNat) u.cfg.maxChunk 4) [3] ∧
      u.port.bytes = [0xFF, 0, 0] ++ [] ∧ [(0xFF : Byte), 0, 0].length = wireWidth 4 signed24.wide * (1#16).toNat) := by
  decide
theorem witness_ReadStopsAtAddressSet :
    let s := ready ⟨[2, 9], [1], [5]⟩
    s.seq.st = .idle ∧ s.desc = some reg1 ∧ effSize 1 = some 1 ∧ 1 * (1#16).toNat ≤ s.cfg.bufBytes ∧
      reg1.regw ≠ .none ∧ 2 ≠ 0 ∧ s.port.codes = 2 :: [9] := by decide
/-- A short answer to the second request. -/
theorem witness_ReadStopsAtShortAnswer :
    let bs : List Byte := List.replicate 32 0xA5
    let s := ready ⟨[0], [32, 7, 6], bs ++ [1]⟩
    let plan := chunkPlan (4 * (10#16).toNat) s.cfg.maxChunk 4
    s.seq.st = .idle ∧ s.desc = some reg1 ∧ effSize 4 = some 4 ∧ 4 * (10#16).toNat ≤ s.cfg.bufBytes ∧
      s.port.codes = (if reg1.regw = .none then [] else 0 :: []) ∧
      (∃ hk : 1 < plan.length, 7 < wireLen (wireWidth 4 reg1.wide) plan[1]) ∧ s.port.avails = [32] ++ 7 :: [6] ∧
      List.Forall₂ (fun cl x => wireLen (wireWidth 4 reg1.wide) cl ≤ x) (plan.take 1) [32] ∧
      s.port.bytes = bs ++ [1] ∧ bs.length = wireWidth 4 reg1.wide * ((plan.take 1).sum / 4) := by decide
/-- No answer to the address-set phase; none to the second request; none to an RxRead of the second chunk, in the middle
of an element. -/
theorem witness_ReadWaitsForAnswer :
    let bs : List Byte := List.replicate 32 0xA5
    let part : List Byte := List.replicate 6 0x5A
    let s := ready ⟨[], [32], [5]⟩
    let t := ready ⟨[0, 9], [32], bs ++ [1]⟩
    let u := ready ⟨[0, 9], [32, 8, 6], bs ++ part⟩
    let plan := chunkPlan (4 * (10#16).toNat) s.cfg.maxChunk 4
    let w := wireWidth 4 reg1.wide
    (s.seq.st = .idle ∧ s.desc = some reg1 ∧ effSize 4 = some 4 ∧ 4 * (10#16).toNat ≤ s.cfg.bufBytes ∧
      reg1.regw ≠ .none ∧ s.port.codes = []) ∧
    (t.seq.st = .idle ∧ t.desc = some reg1 ∧ t.cfg = s.cfg ∧ 1 < plan.length ∧
      t.port.codes = (if reg1.regw = .none then [9] else 0 :: [9]) ∧ t.port.avails = [32] ∧
      List.Forall₂ (fun cl a => wireLen w cl ≤ a) (plan.take 1) [32] ∧ t.port.bytes = bs ++ [1] ∧
      bs.length = w * ((plan.take 1).sum / 4)) ∧
    (u.seq.st = .idle ∧ u.desc = some reg1 ∧ u.cfg = s.cfg ∧
      u.port.codes = (if reg1.regw = .none then [9] else 0 :: [9]) ∧ u.port.avails = [32] ++ 8 :: [6] ∧
      (∃ hk : 1 < plan.length, wireLen w plan[1] ≤ 8 ∧ part.length < wireLen w plan[1]) ∧
      u.port.bytes = bs ++ part) := by decide
/-- 40 bytes in two chunks, with the address-set phase's answer and the two requests' after the WRITE's; and a zero-length
pair without a register address. -/
theorem witness_WriteThenReadReturnsElements :
    let s := ready ⟨[0, 0, 0, 9], [32, 8, 6], []⟩
    let u := idleWith (some signed24) [] ⟨[0, 9], [6], []⟩
    (s.seq.st = .idle ∧ s.desc = some reg1 ∧ effSize 4 = some 4 ∧ 4 * (10#16).toNat ≤ s.cfg.bufBytes ∧
      (4 ≠ 4 ∨ reg1.wide = .plain) ∧
      s.port.codes = List.replicate (writePlan (4 * (10#16).toNat) s.cfg.maxChunk 4).length 0 ++
        (if reg1.regw = .none then [9] else 0 :: [9]) ∧
      s.port.avails = [32, 8] ++ [6] ∧
      List.Forall₂ (fun cl a => cl ≤ a) (chunkPlan (4 * (10#16).toNat) s.cfg.maxChunk 4) [32, 8]) ∧
    (u.seq.st = .idle ∧ u.desc = some signed24 ∧ effSize 0 = some 0 ∧ 0 * (7#16).toNat ≤ u.cfg.bufBytes ∧
      (0 ≠ 4 ∨ signed24.wide = .plain) ∧
      u.port.codes = List.replicate (writePlan (0 * (7#16).toNat) u.cfg.maxChunk 0).length 0 ++
        (if signed24.regw = .none then [9] else 0 :: [9]) ∧
      u.port.avails = [] ++ [6] ∧
      List.Forall₂ (fun cl a => cl ≤ a) (chunkPlan (0 * (7#16).toNat) u.cfg.maxChunk 0) []) := by decide
/-- With a register address and without one. -/
theorem witness_ZeroLengthRead :
    let s := ready ⟨[0, 9], [1], [5]⟩
    let u := idleWith (some signed24) [] ⟨[9], [], []⟩
    (s.seq.st = .idle ∧ s.desc = some reg1 ∧ effSize 4 = some 4 ∧ 4 * (0#16).toNat = 0 ∧
      s.port.codes = (if reg1.regw = .none then [9] else 0 :: [9])) ∧ reg1.regw ≠ .none ∧
    (u.seq.st = .idle ∧ u.desc = some signed24 ∧ effSize 0 = some 0 ∧ 0 * (7#16).toNat = 0 ∧
      u.port.codes = (if signed24.regw = .none then [9] else 0 :: [9])) ∧ signed24.regw = .none := by decide
theorem witness_ReadFrame :
    ∃ t, exec (.read 2 0x75 1) (ready ⟨[0], [2], [1, 2]⟩) = .next t ∧ effSize 2 = some 2 ∧ 2 * (1#16).toNat ≤ 2 :=
  ⟨_, rfl, by decide, by decide⟩
theorem witness_WriteIsSequencerRun :
    let s := ready ⟨[0, 0], [], []⟩
    s.seq.st = .idle ∧ s.desc = some reg1 ∧ effSize 4 = some 4 ∧ 4 * (10#16).toNat ≤ s.cfg.bufBytes := by decide
theorem witness_ReadIsSequencerRun :
    let s := ready ⟨[0], [1], [5]⟩
    s.seq.st = .idle ∧ s.desc = some reg1 ∧ effSize 1 = some 1 ∧ 1 * (1#16).toNat ≤ s.cfg.bufBytes := by decide

/-- A state for each arm, reached from an accepted command: the WRITE of one byte under a two-byte address, its close with
an answer and without; the close of an EXISTS; the READ's request and drain, each with an answer and without. -/
theorem witness_TransitionEmitsItsEvent :
    let wide := { reg1 with regw := .two }
    let write := acceptWrite (idleWith (some wide) [7] ⟨[2], [], []⟩) false 0x0128 1 1
    let probe := openProbe (ready ⟨[3], [], []⟩)
    let read := acceptReadPlain (ready ⟨[], [1], [5]⟩) 0 1 1
    (ready ⟨[], [], []⟩).seq.st = .idle ∧ write.seq.st = .planTx ∧ (seqRun 1 write).seq.st = .txOpen ∧
      (seqRun 2 write).seq.st = .txAddr0 ∧ (seqRun 3 write).seq.st = .txAddr1 ∧ (seqRun 4 write).seq.st = .txData ∧
      ((seqRun 5 write).seq.st = .txClose ∧ (seqRun 5 write).probe = false ∧ (seqRun 5 write).port.codes = 2 :: []) ∧
      (waitingWrite.seq.st = .txClose ∧ waitingWrite.port.codes = []) ∧
      (probe.seq.st = .txClose ∧ probe.probe = true ∧ probe.port.codes = 3 :: []) ∧
      read.seq.st = .planRx ∧
      ((seqRun 1 read).seq.st = .rxReq ∧ (seqRun 1 read).port.avails = 1 :: []) ∧
      (let s := seqRun 1 (acceptReadPlain (ready ⟨[], [], []⟩) 0 1 1); s.seq.st = .rxReq ∧ s.port.avails = []) ∧
      ((seqRun 2 read).seq.st = .rxDrain ∧ (seqRun 2 read).port.bytes = 5 :: []) ∧
      (let s := seqRun 2 (acceptReadPlain (ready ⟨[], [1], []⟩) 0 1 1); s.seq.st = .rxDrain ∧ s.port.bytes = []) := by
  decide

/-- A command that ends, one that waits, and ERRCOUNT with a value. -/
theorem witness_CommandEndsOrWaits :
    (ready ⟨[], [], []⟩).seq.st = .idle ∧ waitingWrite.waiting = true ∧ Instr.release ≠ .errcount := by decide
/-- Idle with a stored byte, with the last address of BUF unwritten, just outside BUF; and a block that is not idle. -/
theorem witness_PackedResultWord :
    let s := ready ⟨[], [], []⟩
    s.seq.st = .idle ∧ (39 < s.cfg.bufBytes ∧ bufGet s.buf 39 = some 39) ∧
      (255 < s.cfg.bufBytes ∧ bufGet s.buf 255 = none) ∧ s.cfg.bufBytes ≤ 256 ∧ waitingWrite.seq.st ≠ .idle := by decide

/-- An idle block with a filled BUF and a WRITE handed over meets the invariant, and its step is a next state. -/
theorem witness_StepKeepsInvariant :
    let s := { ready ⟨[0], [], []⟩ with host := [.command 0x3010006B00000001] }
    s.Inv ∧ ∃ t, Sys2Proof.Machine.step s = .next t ∧ t.trace.length = 4 := by
  refine ⟨⟨by decide, by decide, by decide, .inl rfl, ?_, rfl, rfl⟩, _, rfl, by decide⟩
  unfold Latches.fits; decide
theorem witness_StepKeepsCanonicalBuf :
    let s := { ready ⟨[0], [], []⟩ with host := [.store 3 9] }
    Memory.wf s.buf = true ∧ ∃ t, Sys2Proof.Machine.step s = .next t ∧ t.buf ≠ s.buf := ⟨by decide, _, rfl, by decide⟩
theorem witness_StepOnlyAddsEvents :
    ∃ t, Sys2Proof.Machine.step { ready ⟨[0], [], []⟩ with host := [.command 0x5000000000000000] } = .next t ∧
      t.trace = [.txBegin 0x48, .txEnd true 0] := ⟨_, rfl, by decide⟩
/-- A row's range at its boundaries. -/
theorem witness_WriteAccessorExpands :
    let row : WriteAccessor × BitVec 4 × Int × Int := (.wrS8, 1, -128, 127)
    row ∈ ([(.wrU8, 1, 0, 255), (.wrS8, 1, -128, 127)] : List (WriteAccessor × BitVec 4 × Int × Int)) ∧
      (row.2.2.1 ≤ -128 ∧ -128 ≤ row.2.2.2) ∧ (row.2.2.1 ≤ 127 ∧ 127 ≤ row.2.2.2) ∧
      ¬ (row.2.2.1 ≤ 128 ∧ 128 ≤ row.2.2.2) ∧ ¬ (row.2.2.1 ≤ -129 ∧ -129 ≤ row.2.2.2) := by decide
/-- An unsigned row, and a signed one on both sides of the sign. -/
theorem witness_ReadAccessorValue :
    let low := idleWith none [0xFF, 0x7F] ⟨[], [], []⟩
    let high := idleWith none [0x00, 0x80] ⟨[], [], []⟩
    (ReadAccessor.rdU16, (2 : BitVec 4), false).2.2 = false ∧ (ReadAccessor.rdS16, (2 : BitVec 4), true).2.2 = true ∧
      low.bufElem 0 2 < 2 ^ 15 ∧ ¬ high.bufElem 0 2 < 2 ^ 15 := by decide
/-- Typed: the largest COUNT (of a buffer over 65535 bytes) and one too large; a size that does not divide. Raw: one too
large. Implicit: a size in the table and the size 3, which is not. -/
theorem witness_SourceCallBecomesTriple :
    (1 < 131070 ∧ ((2 = 1 ∨ 2 = 2 ∨ 2 = 3 ∨ 2 = 4 ∨ 2 = 8) ∧ 2 ∣ 131070 ∧ 131070 / 2 < 65536)) ∧
      ¬ ((2 = 1 ∨ 2 = 2 ∨ 2 = 3 ∨ 2 = 4 ∨ 2 = 8) ∧ 2 ∣ 131072 ∧ 131072 / 2 < 65536) ∧
      ¬ ((8 = 1 ∨ 8 = 2 ∨ 8 = 3 ∨ 8 = 4 ∨ 8 = 8) ∧ 8 ∣ 36 ∧ 36 / 8 < 65536) ∧ 65536 ≤ 65536 ∧
      ((8#4) = 1 ∨ (8#4) = 2 ∨ (8#4) = 4 ∨ (8#4) = 8) ∧ (3 ≠ 1 ∧ 3 ≠ 2 ∧ 3 ≠ 4 ∧ 3 ≠ 8) := by decide

end Sys2Proof.Tests
end

section
/-! SUPPORT. What no operation of the block undoes: the parameters it was built with (R7) and the events it has emitted
(R10, assumption 14). One lemma per operation, up to `step`. -/

namespace Sys2Proof.Machine

/-- From `s` to `t` the parameters are kept and the trace has only grown. -/
def OnlyAddsEvents (s t : State) : Prop := t.cfg = s.cfg ∧ ∃ es, t.trace = s.trace ++ es

theorem OnlyAddsEvents.of_trace_eq {s t : State} (hc : t.cfg = s.cfg) (ht : t.trace = s.trace) : OnlyAddsEvents s t :=
  ⟨hc, [], by rw [ht, List.append_nil]⟩

theorem OnlyAddsEvents.refl (s : State) : OnlyAddsEvents s s := .of_trace_eq rfl rfl

theorem OnlyAddsEvents.trans {s t u : State} (h1 : OnlyAddsEvents s t) (h2 : OnlyAddsEvents t u) :
    OnlyAddsEvents s u := by
  obtain ⟨hc1, es1, ht1⟩ := h1
  obtain ⟨hc2, es2, ht2⟩ := h2
  exact ⟨hc2.trans hc1, es1 ++ es2, by rw [ht2, ht1, List.append_assoc]⟩

/-! ### The sequencer -/

theorem planTx_onlyAddsEvents (s : State) : OnlyAddsEvents s (planTx s) := .of_trace_eq rfl rfl

theorem stepTxClose_onlyAddsEvents (s : State) : OnlyAddsEvents s (stepTxClose s) := by
  rcases stepTxClose_cases s with ⟨-, e⟩ | ⟨c, cs, -, ⟨-, -, e⟩ | ⟨-, -, e⟩ | ⟨-, -, e⟩ | ⟨-, -, -, -, e⟩ |
    ⟨-, -, -, -, e⟩ | ⟨-, -, -, e⟩ | ⟨-, -, -, e⟩⟩ <;> rw [e]
  case inl => exact .refl s
  all_goals exact ⟨rfl, [.txEnd s.stopValue c], rfl⟩

theorem stepRxReq_onlyAddsEvents (s : State) : OnlyAddsEvents s (stepRxReq s) := by
  rcases stepRxReq_cases s with ⟨-, e⟩ | ⟨a, as, -, ⟨-, e⟩ | ⟨-, e⟩⟩ <;> rw [e]
  case inl => exact .refl s
  all_goals exact ⟨rfl, [.rxRequest s.descr.busaddr s.seq.req a], rfl⟩

theorem planRx_onlyAddsEvents (s : State) : OnlyAddsEvents s (planRx s) := .of_trace_eq rfl rfl

theorem stepPlanRx_onlyAddsEvents (s : State) : OnlyAddsEvents s (stepPlanRx s) := by
  rcases stepPlanRx_cases s with ⟨-, e⟩ | ⟨-, e⟩ <;> rw [e]
  · exact .of_trace_eq rfl rfl
  · exact planRx_onlyAddsEvents s

theorem stepRxDrain_onlyAddsEvents (s : State) : OnlyAddsEvents s (stepRxDrain s) := by
  rcases stepRxDrain_cases s with ⟨-, e⟩ | ⟨b, bs, -, e⟩ <;> rw [e]
  · exact .refl s
  · obtain ⟨hcfg, -, -, -, -, -, -, htrace, -⟩ := absorb_frame (s.tookByte b bs) b
    exact ⟨hcfg, [.rxRead b], htrace⟩

theorem seqStep_onlyAddsEvents (s : State) : OnlyAddsEvents s (seqStep s) := by
  unfold seqStep
  cases s.seq.st with
  | idle => exact .refl s
  | planTx => exact planTx_onlyAddsEvents s
  | txOpen | txAddr0 | txAddr1 | txData => exact ⟨rfl, _, rfl⟩
  | txClose => exact stepTxClose_onlyAddsEvents s
  | planRx => exact stepPlanRx_onlyAddsEvents s
  | rxReq => exact stepRxReq_onlyAddsEvents s
  | rxDrain => exact stepRxDrain_onlyAddsEvents s

/-! ### The transfer loops -/

theorem fillTx_onlyAddsEvents (s : State) : OnlyAddsEvents s (fillTx s) := ⟨rfl, _, rfl⟩

theorem drainChunk_onlyAddsEvents (s : State) : OnlyAddsEvents s (drainChunk s) := ⟨rfl, _, rfl⟩

theorem writeLoop_onlyAddsEvents (fuel : Nat) (s : State) : OnlyAddsEvents s (writeLoop fuel s) := by
  induction fuel generalizing s with
  | zero => exact .refl s
  | succ fuel ih =>
    have hchunk : OnlyAddsEvents s (stepTxClose (fillTx (planTx s))) :=
      ((planTx_onlyAddsEvents s).trans (fillTx_onlyAddsEvents _)).trans (stepTxClose_onlyAddsEvents _)
    rw [writeLoop_succ]
    split
    · exact hchunk.trans (ih _)
    · exact hchunk

theorem readLoop_onlyAddsEvents (fuel : Nat) (s : State) : OnlyAddsEvents s (readLoop fuel s) := by
  induction fuel generalizing s with
  | zero => exact .refl s
  | succ fuel ih =>
    have hreq : OnlyAddsEvents s (stepRxReq (planRx s)) :=
      (planRx_onlyAddsEvents s).trans (stepRxReq_onlyAddsEvents _)
    have hchunk := hreq.trans (drainChunk_onlyAddsEvents _)
    rw [readLoop_succ]
    split
    · exact .of_trace_eq rfl rfl
    · split
      · split
        · exact hchunk.trans (ih _)
        · exact hchunk
      · exact hreq

theorem acceptRead_onlyAddsEvents (s : State) (ra : RegAddr) (m l : Nat) : OnlyAddsEvents s (acceptRead s ra m l) := by
  unfold acceptRead
  split <;> exact .of_trace_eq rfl rfl

theorem runRead_onlyAddsEvents (s : State) : OnlyAddsEvents s (runRead s) := by
  have haddr : OnlyAddsEvents s (if s.seq.st = .txOpen then stepTxClose (fillTx s) else s) := by
    split
    · exact (fillTx_onlyAddsEvents s).trans (stepTxClose_onlyAddsEvents _)
    · exact .refl s
  have hloop (t : State) : OnlyAddsEvents t (if t.seq.st = .planRx then readLoop (s.seq.l + 1) t else t) := by
    split
    · exact readLoop_onlyAddsEvents _ t
    · exact .refl t
  exact haddr.trans (hloop _)

/-! ### The commands and the step -/

theorem execConfigure_onlyAddsEvents {dflags : Word32} {s t : State} (h : execConfigure dflags s = .next t) :
    OnlyAddsEvents s t := by
  obtain ⟨-, rfl⟩ := whenIdle_eq_next.mp h
  split <;> exact .of_trace_eq rfl rfl

theorem execWrite_onlyAddsEvents {ns : Bool} {e : BitVec 4} {ra : RegAddr} {c : BitVec 16} {s t : State}
    (h : execWrite ns e ra c s = .next t) : OnlyAddsEvents s t := by
  obtain ⟨-, rfl⟩ := whenIdle_eq_next.mp h
  split
  · exact .of_trace_eq rfl rfl
  · split
    · exact .of_trace_eq rfl rfl
    · exact .trans (.of_trace_eq rfl rfl) (writeLoop_onlyAddsEvents _ _)

theorem execRead_onlyAddsEvents {e : BitVec 4} {ra : RegAddr} {c : BitVec 16} {s t : State}
    (h : execRead e ra c s = .next t) : OnlyAddsEvents s t := by
  obtain ⟨-, rfl⟩ := whenIdle_eq_next.mp h
  split
  · exact .of_trace_eq rfl rfl
  · split
    · exact .of_trace_eq rfl rfl
    · exact (acceptRead_onlyAddsEvents _ _ _ _).trans (runRead_onlyAddsEvents _)

theorem execProbe_onlyAddsEvents {s t : State} (h : execProbe s = .next t) : OnlyAddsEvents s t := by
  obtain ⟨-, rfl⟩ := whenIdle_eq_next.mp h
  split
  · exact .of_trace_eq rfl rfl
  · have hopen : OnlyAddsEvents s (openProbe s) := ⟨rfl, _, rfl⟩
    exact hopen.trans (stepTxClose_onlyAddsEvents _)

theorem exec_onlyAddsEvents {i : Instr} {s t : State} (h : exec i s = .next t) : OnlyAddsEvents s t := by
  cases i with
  | configure dflags => exact execConfigure_onlyAddsEvents h
  | write ns e ra c => exact execWrite_onlyAddsEvents h
  | read e ra c => exact execRead_onlyAddsEvents h
  | probe => exact execProbe_onlyAddsEvents h
  | release | errcount | clrerr =>
    obtain ⟨-, rfl⟩ := whenIdle_eq_next.mp h
    exact .of_trace_eq rfl rfl

theorem step_onlyAddsEvents {s t : State} (h : Sys2Proof.Machine.step s = .next t) : OnlyAddsEvents s t := by
  rcases step_cases h with ⟨-, -, rfl⟩ | ⟨cw, rest, i, -, -, -, hexec⟩ | ⟨cw, rest, why, -, -, -, rfl⟩ |
    ⟨a, b, rest, -, -, -, rfl⟩ | ⟨rest, -, -, rfl⟩ | ⟨-, -, rfl⟩
  · exact .refl _
  · have hmove : OnlyAddsEvents s { s with host := rest } := .of_trace_eq rfl rfl
    exact hmove.trans (exec_onlyAddsEvents hexec)
  · exact .of_trace_eq rfl rfl
  · exact .of_trace_eq rfl rfl
  · exact .of_trace_eq rfl rfl
  · exact seqStep_onlyAddsEvents s

/-- Settles O56: every case of a step keeps the parameters and extends the trace. -/
theorem stepOnlyAddsEvents : Obligations.StepOnlyAddsEvents := fun _ _ h => step_onlyAddsEvents h

end Sys2Proof.Machine
end

section
/-! SUPPORT. The invariant at reset (R38), for every configuration. -/

namespace Sys2Proof.Machine

theorem Latches.reset_fits : Latches.reset.fits := by
  simp [Latches.fits, Latches.reset]

/-- The state after reset meets the invariant whatever the parameters are: BUF lists nothing, RES is at its reset value,
the block is idle with the probe's flag down, and nothing has been emitted (R38). -/
theorem State.resetWith_inv (p : Params) : (State.resetWith p).Inv := by
  have herrcnt : 0 < 2 ^ p.errcntW := Nat.two_pow_pos _
  have hres : Result.reset.lawful := .inl rfl
  exact ⟨rfl, rfl, herrcnt, hres, Latches.reset_fits, rfl, rfl⟩

/-- Settles O54: `State.reset` is `State.resetWith` at the platform's parameters. -/
theorem resetHasInvariant : Obligations.ResetHasInvariant :=
  ⟨State.resetWith_inv Config.platform, State.resetWith_inv⟩

end Sys2Proof.Machine
end

section
/-! SUPPORT. The sizes of a running transfer, and the chunk the sequencer is at (R21, R122 to R126, R136). -/

namespace Sys2Proof.Machine

section
variable {s : State}

/-- A transfer with bytes still to go has elements of at least one byte (R120, R122). -/
theorem State.sized.size_pos (hz : s.sized) (hlt : s.seq.sent < s.seq.l) : 0 < s.seq.m := by
  obtain ⟨-, -, hml, -, -⟩ := hz
  refine Nat.pos_of_ne_zero fun hm => ?_
  rw [hm, Nat.zero_dvd] at hml
  omega

theorem State.chunked.le_rest (hc : s.chunked) : s.seq.cl ≤ s.seq.l - s.seq.sent := by
  rw [hc]; exact chunkLen_le_rem _ _ _

theorem State.chunked.le_maxChunk (hc : s.chunked) : s.seq.cl ≤ s.cfg.maxChunk := by
  rw [hc]; exact chunkLen_le_max _ _ _

theorem State.chunked.size_dvd (hc : s.chunked) (hz : s.sized) (hlt : s.seq.sent < s.seq.l) : s.seq.m ∣ s.seq.cl := by
  rw [hc]; exact dvd_chunkLen (hz.size_pos hlt)

theorem State.chunked.pos (hc : s.chunked) (hz : s.sized) (hlt : s.seq.sent < s.seq.l) : 0 < s.seq.cl := by
  obtain ⟨hm, -, hml, -, hms⟩ := hz
  have hmax := s.cfg.eight_le_maxChunk
  rw [hc]
  exact chunkLen_pos (hm.le_eight.trans hmax) (by omega) (Nat.dvd_sub hml hms) (by omega)

/-- The sizes still hold when the chunk counts in SENT (R136). -/
theorem State.sized.advance (hz : s.sized) (hc : s.chunked) (hlt : s.seq.sent < s.seq.l) : s.advance.sized := by
  have hmc := hc.size_dvd hz hlt
  have hle := hc.le_rest
  obtain ⟨hm, hl, hml, hsl, hms⟩ := hz
  exact ⟨hm, hl, hml, show s.seq.sent + s.seq.cl ≤ s.seq.l by omega, Nat.dvd_add hms hmc⟩

/-- A planned read chunk asks for at least one byte, and for no more than its memory bytes (R101, R126). -/
theorem State.reading.request_pos (hr : s.reading) (hc : s.chunked) (hlt : s.seq.sent < s.seq.l) :
    0 < wireLen s.seq.w s.seq.cl := by
  obtain ⟨-, -, hz, -, hw⟩ := hr
  rw [hw]
  exact wireLen_pos _ hz.1 (hc.size_dvd hz hlt) (hc.pos hz hlt)

theorem State.reading.request_le (hr : s.reading) (hc : s.chunked) (hlt : s.seq.sent < s.seq.l) :
    wireLen s.seq.w s.seq.cl ≤ s.seq.cl := by
  obtain ⟨-, -, hz, -, hw⟩ := hr
  rw [hw]
  exact wireLen_le _ hz.1 (hc.size_dvd hz hlt)

/-- The element a received byte belongs to lies inside the transfer (R137, R190). -/
theorem State.reading.element_le (hr : s.reading) (hc : s.chunked) (hlt : s.seq.sent < s.seq.l)
    (hi : s.seq.idx < wireLen s.seq.w s.seq.cl) :
    (s.seq.sent / s.seq.m + s.seq.idx / s.seq.w) * s.seq.m + s.seq.m ≤ s.seq.l := by
  obtain ⟨-, -, hz, -, hw⟩ := hr
  obtain ⟨n, hn⟩ := hc.size_dvd hz hlt
  obtain ⟨j, hj⟩ := hz.2.2.2.2
  have hm := hz.size_pos hlt
  have hle := hc.le_rest
  rw [hn, hw, wireLen_eq _ hz.1, ← hw] at hi
  have hk : s.seq.idx / s.seq.w < n := Nat.div_lt_of_lt_mul hi
  have hsent : s.seq.sent / s.seq.m = j := by rw [hj, Nat.mul_div_cancel_left _ hm]
  calc (s.seq.sent / s.seq.m + s.seq.idx / s.seq.w) * s.seq.m + s.seq.m
      = s.seq.m * j + s.seq.m * (s.seq.idx / s.seq.w + 1) := by rw [hsent]; ring
    _ ≤ s.seq.m * j + s.seq.m * n := by gcongr; exact hk
    _ ≤ s.seq.l := by omega

end

end Sys2Proof.Machine
end

section
/-! SUPPORT. What one transition of the sequencer leaves unchanged, and what it can write, from every state. -/

namespace Sys2Proof.Machine

/-- What no transition of the sequencer writes: the parameters, DESC, the host's moves, the draws, and the sizes of the
running transfer. -/
structure SameSetup (s t : State) : Prop where
  cfg : t.cfg = s.cfg
  desc : t.desc = s.desc
  host : t.host = s.host
  draws : t.draws = s.draws
  l : t.seq.l = s.seq.l

theorem SameSetup.refl (s : State) : SameSetup s s := ⟨rfl, rfl, rfl, rfl, rfl⟩

theorem SameSetup.trans {s t u : State} (h1 : SameSetup s t) (h2 : SameSetup t u) : SameSetup s u :=
  ⟨h2.cfg.trans h1.cfg, h2.desc.trans h1.desc, h2.host.trans h1.host, h2.draws.trans h1.draws, h2.l.trans h1.l⟩

theorem stepTxClose_sameSetup (s : State) : SameSetup s (stepTxClose s) := by
  rcases stepTxClose_cases s with ⟨-, e⟩ | ⟨c, cs, -, ⟨-, -, e⟩ | ⟨-, -, e⟩ | ⟨-, -, e⟩ | ⟨-, -, -, -, e⟩ |
    ⟨-, -, -, -, e⟩ | ⟨-, -, -, e⟩ | ⟨-, -, -, e⟩⟩ <;> rw [e] <;> exact ⟨rfl, rfl, rfl, rfl, rfl⟩

theorem stepRxReq_sameSetup (s : State) : SameSetup s (stepRxReq s) := by
  rcases stepRxReq_cases s with ⟨-, e⟩ | ⟨a, as, -, ⟨-, e⟩ | ⟨-, e⟩⟩ <;> rw [e] <;> exact ⟨rfl, rfl, rfl, rfl, rfl⟩

theorem stepPlanRx_sameSetup (s : State) : SameSetup s (stepPlanRx s) := by
  rcases stepPlanRx_cases s with ⟨-, e⟩ | ⟨-, e⟩ <;> rw [e] <;> exact ⟨rfl, rfl, rfl, rfl, rfl⟩

theorem stepRxDrain_sameSetup (s : State) : SameSetup s (stepRxDrain s) := by
  rcases stepRxDrain_cases s with ⟨-, e⟩ | ⟨b, bs, -, e⟩ <;> rw [e]
  · exact .refl s
  · obtain ⟨hcfg, hdesc, -, -, -, hhost, -, -, hdraws, ⟨acc, hseq⟩, -⟩ := absorb_frame (s.tookByte b bs) b
    exact ⟨hcfg, hdesc, hhost, hdraws, by rw [State.countReceived_seq, hseq]; rfl⟩

theorem seqStep_sameSetup (s : State) : SameSetup s (seqStep s) := by
  unfold seqStep
  cases s.seq.st with
  | idle => exact .refl s
  | planTx | txOpen | txAddr0 | txAddr1 | txData => exact ⟨rfl, rfl, rfl, rfl, rfl⟩
  | txClose => exact stepTxClose_sameSetup s
  | planRx => exact stepPlanRx_sameSetup s
  | rxReq => exact stepRxReq_sameSetup s
  | rxDrain => exact stepRxDrain_sameSetup s

/-- What only the read path writes: BUF, the port's answers to RxRequest and RxRead, REQ and ACC (R136, R170). -/
structure KeepsReadPath (s t : State) : Prop where
  buf : t.buf = s.buf
  avails : t.port.avails = s.port.avails
  bytes : t.port.bytes = s.port.bytes
  req : t.seq.req = s.seq.req
  acc : t.seq.acc = s.seq.acc

theorem KeepsReadPath.refl (s : State) : KeepsReadPath s s := ⟨rfl, rfl, rfl, rfl, rfl⟩

theorem KeepsReadPath.trans {s t u : State} (h1 : KeepsReadPath s t) (h2 : KeepsReadPath t u) : KeepsReadPath s u :=
  ⟨h2.buf.trans h1.buf, h2.avails.trans h1.avails, h2.bytes.trans h1.bytes, h2.req.trans h1.req,
    h2.acc.trans h1.acc⟩

theorem stepTxClose_keepsReadPath (s : State) : KeepsReadPath s (stepTxClose s) := by
  rcases stepTxClose_cases s with ⟨-, e⟩ | ⟨c, cs, -, ⟨-, -, e⟩ | ⟨-, -, e⟩ | ⟨-, -, e⟩ | ⟨-, -, -, -, e⟩ |
    ⟨-, -, -, -, e⟩ | ⟨-, -, -, e⟩ | ⟨-, -, -, e⟩⟩ <;> rw [e] <;> exact ⟨rfl, rfl, rfl, rfl, rfl⟩

theorem stepRxReq_buf (s : State) : (stepRxReq s).buf = s.buf := by
  rcases stepRxReq_cases s with ⟨-, e⟩ | ⟨a, as, -, ⟨-, e⟩ | ⟨-, e⟩⟩ <;> rw [e] <;> rfl

theorem stepPlanRx_buf (s : State) : (stepPlanRx s).buf = s.buf := by
  rcases stepPlanRx_cases s with ⟨-, e⟩ | ⟨-, e⟩ <;> rw [e] <;> rfl

/-- A received byte completes at most one element, the one it belongs to (R137). -/
theorem stepRxDrain_buf (s : State) :
    (stepRxDrain s).buf = s.buf ∨
      ∃ v, (stepRxDrain s).buf = storeElem s.buf (s.seq.sent / s.seq.m + s.seq.idx / s.seq.w) s.seq.m v := by
  rcases stepRxDrain_cases s with ⟨-, e⟩ | ⟨b, bs, -, e⟩ <;> rw [e]
  · exact .inl rfl
  · obtain ⟨-, -, -, -, -, -, -, -, -, -, hbuf⟩ := absorb_frame (s.tookByte b bs) b
    exact hbuf

/-- A transition writes BUF only in RX_DRAIN, and there at most one element (R136, R137). -/
theorem seqStep_buf (s : State) :
    (seqStep s).buf = s.buf ∨
      s.seq.st = .rxDrain ∧
        ∃ v, (seqStep s).buf = storeElem s.buf (s.seq.sent / s.seq.m + s.seq.idx / s.seq.w) s.seq.m v := by
  unfold seqStep
  cases s.seq.st with
  | idle | planTx | txOpen | txAddr0 | txAddr1 | txData => exact .inl rfl
  | txClose => exact .inl (stepTxClose_keepsReadPath s).buf
  | planRx => exact .inl (stepPlanRx_buf s)
  | rxReq => exact .inl (stepRxReq_buf s)
  | rxDrain => exact (stepRxDrain_buf s).imp id fun hstore => ⟨rfl, hstore⟩

/-- How a step of a running command leaves it: still running with RES and ERRCNT as they were, or ended with a RES of
R93, ERRCNT counted up at most once and only on a failure (R33, R141). -/
inductive Progress (s t : State) : Prop
  | runs (hst : t.seq.st ≠ .idle) (hres : t.res = s.res) (herr : t.errcnt = s.errcnt)
  | succeeds (hst : t.seq.st = .idle) (hres : t.res = Result.success 0) (herr : t.errcnt = s.errcnt)
  | fails (c : Cause) (hc : c ≠ .none) (hst : t.seq.st = .idle) (hres : t.res = Result.failure c)
      (herr : t.errcnt = s.errcnt ∨ t.errcnt = nextErrcnt s.cfg s.errcnt)

theorem Latches.afterAddr_ne_idle (q : Latches) : q.afterAddr ≠ .idle := by
  unfold Latches.afterAddr; split <;> nofun

theorem stepTxOpen_st_ne_idle (s : State) : (stepTxOpen s).seq.st ≠ .idle := by
  simp only [stepTxOpen, State.goto_seq]
  split
  · exact s.seq.afterAddr_ne_idle
  · nofun

theorem stepTxAddr0_st_ne_idle (s : State) : (stepTxAddr0 s).seq.st ≠ .idle := by
  simp only [stepTxAddr0, State.goto_seq]
  split
  · nofun
  · exact s.seq.afterAddr_ne_idle

theorem State.countPayload_st_ne_idle (s : State) : s.countPayload.seq.st ≠ .idle := by
  simp only [State.countPayload_seq]; split <;> nofun

theorem State.countReceived_st_ne_idle (s : State) : s.countReceived.seq.st ≠ .idle := by
  simp only [State.countReceived_seq]; split <;> nofun

theorem stepTxClose_progress {s : State} (hst : s.seq.st ≠ .idle) : Progress s (stepTxClose s) := by
  rcases stepTxClose_cases s with ⟨-, e⟩ | ⟨c, cs, -, ⟨-, -, e⟩ | ⟨-, -, e⟩ | ⟨-, -, e⟩ | ⟨-, -, -, -, e⟩ |
    ⟨-, -, -, -, e⟩ | ⟨-, -, -, e⟩ | ⟨-, -, -, e⟩⟩ <;> rw [e]
  · exact .runs hst rfl rfl
  · exact .succeeds rfl rfl rfl
  · exact .fails .transactionError nofun rfl rfl (.inl rfl)
  · exact .fails .transactionError nofun rfl rfl (.inr rfl)
  · exact .runs nofun rfl rfl
  · exact .succeeds rfl rfl rfl
  · exact .runs nofun rfl rfl
  · exact .runs hst rfl rfl

theorem stepRxReq_progress {s : State} (hst : s.seq.st ≠ .idle) : Progress s (stepRxReq s) := by
  rcases stepRxReq_cases s with ⟨-, e⟩ | ⟨a, as, -, ⟨-, e⟩ | ⟨-, e⟩⟩ <;> rw [e]
  · exact .runs hst rfl rfl
  · exact .fails .shortTransfer nofun rfl rfl (.inr rfl)
  · exact .runs nofun rfl rfl

theorem stepPlanRx_progress (s : State) : Progress s (stepPlanRx s) := by
  rcases stepPlanRx_cases s with ⟨-, e⟩ | ⟨-, e⟩ <;> rw [e]
  · exact .succeeds rfl rfl rfl
  · exact .runs nofun rfl rfl

theorem stepRxDrain_progress {s : State} (hst : s.seq.st ≠ .idle) : Progress s (stepRxDrain s) := by
  rcases stepRxDrain_cases s with ⟨-, e⟩ | ⟨b, bs, -, e⟩ <;> rw [e]
  · exact .runs hst rfl rfl
  · obtain ⟨-, -, herr, hres, -⟩ := absorb_frame (s.tookByte b bs) b
    exact .runs (State.countReceived_st_ne_idle _) hres herr

theorem seqStep_progress {s : State} (hst : s.seq.st ≠ .idle) : Progress s (seqStep s) := by
  unfold seqStep
  cases hs : s.seq.st with
  | idle => exact absurd hs hst
  | planTx => exact .runs nofun rfl rfl
  | txOpen => exact .runs (stepTxOpen_st_ne_idle s) rfl rfl
  | txAddr0 => exact .runs (stepTxAddr0_st_ne_idle s) rfl rfl
  | txAddr1 => exact .runs s.seq.afterAddr_ne_idle rfl rfl
  | txData => exact .runs (State.countPayload_st_ne_idle _) rfl rfl
  | txClose => exact stepTxClose_progress hst
  | planRx => exact stepPlanRx_progress s
  | rxReq => exact stepRxReq_progress hst
  | rxDrain => exact stepRxDrain_progress hst

/-- RES stays lawful when a transition ends the command (R93). -/
theorem Result.success_lawful (v : Word32) : (Result.success v).lawful := .inr (.inl ⟨rfl, rfl⟩)

theorem Result.failure_lawful {c : Cause} (hc : c ≠ .none) : (Result.failure c).lawful := .inr (.inr ⟨rfl, hc, rfl⟩)

theorem nextErrcnt_lt (p : Params) (n : Nat) : nextErrcnt p n < 2 ^ p.errcntW := Nat.mod_lt _ (Nat.two_pow_pos _)

theorem Progress.res_lawful {s t : State} (hp : Progress s t) (h : s.res.lawful) : t.res.lawful := by
  cases hp with
  | runs hst hres herr => rwa [hres]
  | succeeds hst hres herr => rw [hres]; exact Result.success_lawful 0
  | fails c hc hst hres herr => rw [hres]; exact Result.failure_lawful hc

theorem Progress.errcnt_lt {s t : State} (hp : Progress s t) (h : s.errcnt < 2 ^ s.cfg.errcntW) :
    t.errcnt < 2 ^ s.cfg.errcntW := by
  cases hp with
  | runs hst hres herr => rwa [herr]
  | succeeds hst hres herr => rwa [herr]
  | fails c hc hst hres herr =>
    rcases herr with herr | herr <;> rw [herr]
    · exact h
    · exact nextErrcnt_lt _ _

end Sys2Proof.Machine
end

section
/-! SUPPORT. Every transition of the sequencer keeps the latches in agreement with ST (R35, R136). -/

namespace Sys2Proof.Machine

section
variable {s : State}

/-- A write transaction of the running transfer of which no payload byte has been handed over: of a WRITE with its chunk
planned, or of the address-set phase of a READ (R136). -/
def State.unsent (s : State) : Prop := (s.writing ∧ s.chunked ∧ s.seq.idx = 0) ∨ s.addressing

/-- The address phase leads to TX_DATA exactly when the chunk has payload (R136). -/
theorem State.unsent.afterAddr_cases (h : s.unsent) :
    (s.writing ∧ s.chunked ∧ s.seq.idx = 0 ∧ 0 < s.seq.cl ∧ s.seq.afterAddr = .txData) ∨
      ((s.writing ∧ s.chunked ∨ s.addressing) ∧ s.seq.afterAddr = .txClose) := by
  rcases h with ⟨hw, hc, hi⟩ | ha
  · by_cases hcl : 0 < s.seq.cl
    · exact .inl ⟨hw, hc, hi, hcl, if_pos hcl⟩
    · exact .inr ⟨.inl ⟨hw, hc⟩, if_neg hcl⟩
  · obtain ⟨-, -, -, -, -, -, hcl, -⟩ := id ha
    exact .inr ⟨.inr ha, if_neg (by omega)⟩

theorem State.unsent.afterAddr_seqInv (h : s.unsent) (es : List Event) : ((s.emit es).goto s.seq.afterAddr).seqInv := by
  rcases h.afterAddr_cases with ⟨hw, hc, hi, hcl, e⟩ | ⟨hs, e⟩ <;> rw [e]
  · exact ⟨hw, hc, show s.seq.idx < s.seq.cl by omega⟩
  · exact .inr hs

/-- A planned chunk of a WRITE ends inside the transfer (R124). -/
theorem State.writing.chunk_le (hw : s.writing) (hc : s.chunked) : s.seq.sent + s.seq.cl ≤ s.seq.l := by
  obtain ⟨-, -, ⟨-, -, -, hsl, -⟩, -⟩ := hw
  have := hc.le_rest
  omega

theorem planTx_seqInv (hw : s.writing) : (planTx s).seqInv := .inl ⟨hw, rfl, rfl⟩

theorem stepTxOpen_seqInv (h : s.unsent) : (stepTxOpen s).seqInv := by
  unfold stepTxOpen
  split
  · exact h.afterAddr_seqInv _
  · exact ⟨h, ‹_›⟩

theorem stepTxAddr0_seqInv (h : s.unsent) : (stepTxAddr0 s).seqInv := by
  unfold stepTxAddr0
  split
  · exact ⟨h, ‹_›⟩
  · exact h.afterAddr_seqInv _

theorem stepTxData_seqInv (hw : s.writing) (hc : s.chunked) : (stepTxData s).seqInv := by
  by_cases hlast : s.seq.idx + 1 < s.seq.cl
  · have hst : (stepTxData s).seq.st = .txData := if_pos hlast
    rw [State.seqInv, hst]
    exact ⟨hw, hc, hlast⟩
  · have hst : (stepTxData s).seq.st = .txClose := if_neg hlast
    rw [State.seqInv, hst]
    exact .inr (.inl ⟨hw, hc⟩)

/-- The running write transaction: of an EXISTS, of a WRITE or of an address-set phase (R136, R210). -/
theorem State.seqInv.closing (hq : s.seqInv) (hst : s.seq.st = .txClose) :
    (s.desc ≠ none ∧ s.probe = true) ∨ (s.writing ∧ s.chunked) ∨ s.addressing := by
  rwa [State.seqInv, hst] at hq

/-- Which of a WRITE's and an address-set phase's the running transaction is, KIND tells (R35). -/
theorem State.seqInv.closing_by_kind (hq : s.seqInv) (hst : s.seq.st = .txClose) (hp : s.probe = false) :
    (s.seq.kind = .w ∧ s.writing ∧ s.chunked) ∨ (s.seq.kind = .ra ∧ s.addressing) := by
  rcases hq.closing hst with ⟨-, hp'⟩ | ⟨hw, hc⟩ | ha
  · rw [hp] at hp'
    cases hp'
  · obtain ⟨-, -, -, hk, -⟩ := id hw
    exact .inl ⟨hk, hw, hc⟩
  · obtain ⟨-, -, -, hk, -⟩ := id ha
    exact .inr ⟨hk, ha⟩

theorem State.seqInv.closing_write (hq : s.seqInv) (hst : s.seq.st = .txClose) (hp : s.probe = false)
    (hk : s.seq.kind = .w) : s.writing ∧ s.chunked := by
  rcases hq.closing_by_kind hst hp with ⟨-, h⟩ | ⟨hra, -⟩
  · exact h
  · cases hk.symm.trans hra

theorem State.seqInv.closing_address_set (hq : s.seqInv) (hst : s.seq.st = .txClose) (hp : s.probe = false)
    (hk : s.seq.kind = .ra) : s.addressing := by
  rcases hq.closing_by_kind hst hp with ⟨hw, -⟩ | ⟨-, h⟩
  · cases hk.symm.trans hw
  · exact h

/-- No write transaction belongs to the data phase of a READ (R136). -/
theorem State.seqInv.kind_ne_rd (hq : s.seqInv) (hst : s.seq.st = .txClose) (hp : s.probe = false) :
    s.seq.kind ≠ .rd := by
  intro hk
  rcases hq.closing_by_kind hst hp with ⟨hw, -⟩ | ⟨hra, -⟩
  · cases hk.symm.trans hw
  · cases hk.symm.trans hra

theorem stepTxClose_seqInv (hst : s.seq.st = .txClose) (hq : s.seqInv) : (stepTxClose s).seqInv := by
  rcases stepTxClose_cases s with ⟨-, e⟩ | ⟨c, cs, -, ⟨-, -, e⟩ | ⟨-, -, e⟩ | ⟨hp, -, e⟩ | ⟨hp, -, hk, hlt, e⟩ |
    ⟨hp, -, hk, hle, e⟩ | ⟨hp, -, hk, e⟩ | ⟨hp, -, hk, e⟩⟩ <;> rw [e]
  · exact hq
  · exact (rfl : false = false)
  · exact (rfl : false = false)
  · exact hp
  · obtain ⟨⟨hd, -, hz, -, hwm, -⟩, hc⟩ := hq.closing_write hst hp hk
    exact ⟨hd, hp, hz.advance hc (by omega), hk, hwm, .inl hlt⟩
  · exact hp
  · obtain ⟨hd, -, hz, -, hw, -⟩ := hq.closing_address_set hst hp hk
    exact ⟨hd, hp, hz, rfl, hw⟩
  · exact absurd hk (hq.kind_ne_rd hst hp)

theorem stepPlanRx_seqInv (hr : s.reading) : (stepPlanRx s).seqInv := by
  rcases stepPlanRx_cases s with ⟨-, e⟩ | ⟨hlt, e⟩ <;> rw [e]
  · exact hr.2.1
  · exact ⟨hr, hlt, rfl, rfl, rfl⟩

/-- A read chunk is planned: its request is the one R136 computes, and `SENT < L`. -/
def State.requesting (s : State) : Prop :=
  s.reading ∧ s.seq.sent < s.seq.l ∧ s.chunked ∧ s.seq.req = wireLen s.seq.w s.seq.cl

theorem State.requesting.req_pos (h : s.requesting) : 0 < s.seq.req := by
  obtain ⟨hr, hlt, hc, hreq⟩ := h
  rw [hreq]; exact hr.request_pos hc hlt

theorem State.requesting.req_le (h : s.requesting) : s.seq.req ≤ s.seq.cl := by
  obtain ⟨hr, hlt, hc, hreq⟩ := h
  rw [hreq]; exact hr.request_le hc hlt

theorem State.requesting.req_le_maxChunk (h : s.requesting) : s.seq.req ≤ s.cfg.maxChunk :=
  h.req_le.trans h.2.2.1.le_maxChunk

theorem State.requesting.chunk_le (h : s.requesting) : s.seq.sent + s.seq.cl ≤ s.seq.l := by
  obtain ⟨-, hlt, hc, -⟩ := h
  have := hc.le_rest
  omega

theorem State.requesting.element_le (h : s.requesting) (hi : s.seq.idx < s.seq.req) :
    (s.seq.sent / s.seq.m + s.seq.idx / s.seq.w) * s.seq.m + s.seq.m ≤ s.seq.l := by
  obtain ⟨hr, hlt, hc, hreq⟩ := h
  rw [hreq] at hi; exact hr.element_le hc hlt hi

/-- ST and the planned chunk, in the two states that have one (R136). -/
theorem State.seqInv.requested (hq : s.seqInv) (hst : s.seq.st = .rxReq) : s.requesting ∧ s.seq.idx = 0 := by
  rw [State.seqInv, hst] at hq
  obtain ⟨hr, hlt, hc, hreq, hi⟩ := hq
  exact ⟨⟨hr, hlt, hc, hreq⟩, hi⟩

theorem State.seqInv.draining (hq : s.seqInv) (hst : s.seq.st = .rxDrain) : s.requesting ∧ s.seq.idx < s.seq.req := by
  rw [State.seqInv, hst] at hq
  obtain ⟨hr, hlt, hc, hreq, hi⟩ := hq
  exact ⟨⟨hr, hlt, hc, hreq⟩, hi⟩

theorem stepRxReq_seqInv (hst : s.seq.st = .rxReq) (hq : s.seqInv) : (stepRxReq s).seqInv := by
  obtain ⟨hreq, hi⟩ := hq.requested hst
  have hpos := hreq.req_pos
  obtain ⟨hr, hlt, hc, he⟩ := hreq
  rcases stepRxReq_cases s with ⟨-, e⟩ | ⟨a, as, -, ⟨-, e⟩ | ⟨-, e⟩⟩ <;> rw [e]
  · exact hq
  · exact hr.2.1
  · exact ⟨hr, hlt, hc, he, show s.seq.idx < s.seq.req by omega⟩

/-- What a received byte does to the latches: it counts in IDX, and the chunk's last one counts the chunk in SENT
(R136). -/
theorem stepRxDrain_seq {b : Byte} {bs : List Byte} (hb : s.port.bytes = b :: bs) :
    ∃ acc, (stepRxDrain s).seq = { s.seq with
      idx := s.seq.idx + 1
      sent := if s.seq.idx + 1 < s.seq.req then s.seq.sent else s.seq.sent + s.seq.cl
      st := if s.seq.idx + 1 < s.seq.req then .rxDrain else .planRx
      acc := acc } := by
  rcases stepRxDrain_cases s with ⟨hnil, -⟩ | ⟨b', bs', -, e⟩
  · rw [hnil] at hb; cases hb
  · obtain ⟨-, -, -, -, -, -, -, -, -, ⟨acc, hseq⟩, -⟩ := absorb_frame (s.tookByte b' bs') b'
    exact ⟨acc, by rw [e, State.countReceived_seq, hseq]; rfl⟩

theorem stepRxDrain_probe (s : State) : (stepRxDrain s).probe = s.probe := by
  rcases stepRxDrain_cases s with ⟨-, e⟩ | ⟨b, bs, -, e⟩ <;> rw [e]
  obtain ⟨-, -, -, -, hp, -⟩ := absorb_frame (s.tookByte b bs) b
  exact hp

theorem stepRxDrain_seqInv (hst : s.seq.st = .rxDrain) (hq : s.seqInv) : (stepRxDrain s).seqInv := by
  cases hb : s.port.bytes with
  | nil => rwa [stepRxDrain, hb]
  | cons b bs =>
    obtain ⟨⟨hr, hlt, hc, hreq⟩, -⟩ := hq.draining hst
    obtain ⟨acc, hseq⟩ := stepRxDrain_seq hb
    have hset := stepRxDrain_sameSetup s
    have hprobe := stepRxDrain_probe s
    have hdescr : (stepRxDrain s).descr = s.descr := by rw [State.descr, hset.desc, State.descr]
    obtain ⟨hd, hp, hz, hk, hw⟩ := id hr
    have hadv := hz.advance hc hlt
    by_cases hlast : s.seq.idx + 1 < s.seq.req
    · simp only [State.seqInv, State.reading, State.sized, State.chunked, hseq, hset.desc, hset.cfg, hprobe, hdescr,
        if_pos hlast]
      exact ⟨⟨hd, hp, hz, hk, hw⟩, hlt, hc, hreq, hlast⟩
    · simp only [State.seqInv, State.reading, State.sized, hseq, hset.desc, hset.cfg, hprobe, hdescr, if_neg hlast]
      exact ⟨hd, hp, hadv, hk, hw⟩

/-- The latches agree with ST after every transition (R35, R136). -/
theorem seqStep_seqInv (hq : s.seqInv) : (seqStep s).seqInv := by
  have h := hq
  unfold seqStep
  rw [State.seqInv] at h
  cases hst : s.seq.st <;> simp only [hst] at h
  case idle => exact hq
  case planTx => exact planTx_seqInv h
  case txOpen => exact stepTxOpen_seqInv h
  case txAddr0 => exact stepTxAddr0_seqInv h.1
  case txAddr1 => exact State.unsent.afterAddr_seqInv h.1 _
  case txData => exact stepTxData_seqInv h.1 h.2.1
  case txClose => exact stepTxClose_seqInv hst hq
  case planRx => exact stepPlanRx_seqInv h
  case rxReq => exact stepRxReq_seqInv hst hq
  case rxDrain => exact stepRxDrain_seqInv hst hq

end

end Sys2Proof.Machine
end

section
/-! SUPPORT. Every transition of the sequencer keeps the latches in their widths (R35) and the port trace legal
(R95 to R101, R126), and so keeps the whole invariant. -/

namespace Sys2Proof.Machine

section
variable {s : State}

/-! ### The widths of the latches -/

theorem planTx_fits (hf : s.seq.fits) : (planTx s).seq.fits := by
  obtain ⟨hm, hw, hl, hs, -, hr, -⟩ := hf
  have := chunkLen_le_rem (s.seq.l - s.seq.sent) s.cfg.maxChunk s.seq.m
  exact ⟨hm, hw, hl, hs, show chunkLen _ _ _ < 2 ^ 20 by omega, hr, Nat.two_pow_pos 20⟩

theorem stepTxData_fits (hf : s.seq.fits) (hi : s.seq.idx < s.seq.cl) : (stepTxData s).seq.fits := by
  obtain ⟨hm, hw, hl, hs, hc, hr, -⟩ := hf
  exact ⟨hm, hw, hl, hs, hc, hr, show s.seq.idx + 1 < 2 ^ 20 by omega⟩

theorem State.advance_fits (hf : s.seq.fits) (hle : s.seq.sent + s.seq.cl ≤ s.seq.l) : s.advance.seq.fits := by
  obtain ⟨hm, hw, hl, -, hc, hr, hi⟩ := hf
  exact ⟨hm, hw, hl, show s.seq.sent + s.seq.cl < 2 ^ 20 by omega, hc, hr, hi⟩

theorem stepTxClose_fits (hst : s.seq.st = .txClose) (hq : s.seqInv) (hf : s.seq.fits) : (stepTxClose s).seq.fits := by
  rcases stepTxClose_cases s with ⟨-, e⟩ | ⟨c, cs, -, ⟨-, -, e⟩ | ⟨-, -, e⟩ | ⟨-, -, e⟩ | ⟨-, -, -, hlt, e⟩ |
    ⟨hp, -, hk, -, e⟩ | ⟨-, -, -, e⟩ | ⟨-, -, -, e⟩⟩ <;> rw [e]
  case inr.inr.inr.inr.inl => exact State.advance_fits hf hlt.le
  case inr.inr.inr.inr.inr.inl =>
    obtain ⟨hw, hc⟩ := hq.closing_write hst hp hk
    exact State.advance_fits hf (hw.chunk_le hc)
  all_goals exact hf

theorem stepPlanRx_fits (hr : s.reading) (hf : s.seq.fits) : (stepPlanRx s).seq.fits := by
  rcases stepPlanRx_cases s with ⟨-, e⟩ | ⟨hlt, e⟩ <;> rw [e]
  · exact hf
  · have hreq : (planRx s).requesting := ⟨hr, hlt, rfl, rfl⟩
    have hle : (planRx s).seq.req ≤ (planRx s).seq.cl := hreq.req_le
    have hcl : s.seq.sent + (planRx s).seq.cl ≤ s.seq.l := hreq.chunk_le
    obtain ⟨hm, hw, hl, hs, -, -, -⟩ := hf
    exact ⟨hm, hw, hl, hs, by omega, by omega, Nat.two_pow_pos 20⟩

theorem stepRxReq_fits (hf : s.seq.fits) : (stepRxReq s).seq.fits := by
  rcases stepRxReq_cases s with ⟨-, e⟩ | ⟨a, as, -, ⟨-, e⟩ | ⟨-, e⟩⟩ <;> rw [e] <;> exact hf

theorem stepRxDrain_fits (hst : s.seq.st = .rxDrain) (hq : s.seqInv) (hf : s.seq.fits) :
    (stepRxDrain s).seq.fits := by
  cases hb : s.port.bytes with
  | nil => rwa [stepRxDrain, hb]
  | cons b bs =>
    obtain ⟨hreq, hi⟩ := hq.draining hst
    have hle := hreq.chunk_le
    obtain ⟨acc, hseq⟩ := stepRxDrain_seq hb
    obtain ⟨hm, hw, hl, hs, hc, hr, -⟩ := hf
    have hsent : (if s.seq.idx + 1 < s.seq.req then s.seq.sent else s.seq.sent + s.seq.cl) < 2 ^ 20 := by
      split <;> omega
    rw [hseq]
    exact ⟨hm, hw, hl, hsent, hc, hr, show s.seq.idx + 1 < 2 ^ 20 by omega⟩

theorem seqStep_fits (hq : s.seqInv) (hf : s.seq.fits) : (seqStep s).seq.fits := by
  have h := hq
  unfold seqStep
  rw [State.seqInv] at h
  cases hst : s.seq.st <;> simp only [hst] at h
  case idle | txOpen | txAddr0 | txAddr1 => exact hf
  case planTx => exact planTx_fits hf
  case txData => exact stepTxData_fits hf h.2.2
  case txClose => exact stepTxClose_fits hst hq hf
  case planRx => exact stepPlanRx_fits h hf
  case rxReq => exact stepRxReq_fits hf
  case rxDrain => exact stepRxDrain_fits hst hq hf

/-! ### The port trace -/

/-- The phase after one more event. -/
theorem portPhase_of_event {s t : State} {p q : PortPhase} {e : Event} (hp : s.portPhase = some p)
    (hc : t.cfg = s.cfg) (ht : t.trace = s.trace ++ [e]) (hn : portNext s.cfg.maxChunk p e = some q) :
    t.portPhase = some q := by
  rw [State.portPhase] at hp ⊢
  rw [hc, ht, portRun_append, hp, Option.bind_some]
  simp only [portRun, hn]

theorem portNext_txWrite {c n : Nat} (b : Byte) (h : n < c + 2) :
    portNext c (.writing n) (.txWrite b) = some (.writing (n + 1)) := if_pos h

theorem portNext_rxRequest {c n : Nat} (a7 : BusAddr) (avail : Nat) (h1 : 1 ≤ n) (h2 : n ≤ c) :
    portNext c (.closed 0) (.rxRequest a7 n avail) = some (.closed (if avail < n then 0 else n)) := if_pos ⟨h1, h2⟩

/-- After the address phase the trace stands where TX_DATA or TX_CLOSE wants it (R100, R136). -/
theorem State.unsent.afterAddr_portInv (h : s.unsent) {es : List Event}
    (hp : (s.emit es).portPhase = some (.writing s.descr.regw.bytes)) :
    ((s.emit es).goto s.seq.afterAddr).portInv := by
  rcases h.afterAddr_cases with ⟨-, -, hi, -, e⟩ | ⟨-, e⟩ <;> rw [e]
  · show (s.emit es).portPhase = some (.writing (s.descr.regw.bytes + s.seq.idx))
    rw [hp, hi, Nat.add_zero]
  · exact ⟨_, hp⟩

theorem stepTxOpen_portInv (h : s.unsent) (hp : s.portPhase = some (.closed 0)) : (stepTxOpen s).portInv := by
  have hopen : (s.emit [.txBegin s.descr.busaddr]).portPhase = some (.writing 0) := portPhase_of_event hp rfl rfl rfl
  unfold stepTxOpen
  split
  · refine h.afterAddr_portInv ?_
    rw [hopen, ‹s.descr.regw = .none›, RegWidth.bytes]
  · exact hopen

theorem stepTxAddr0_portInv (h : s.unsent) (hw : s.descr.regw ≠ .none) (hp : s.portPhase = some (.writing 0)) :
    (stepTxAddr0 s).portInv := by
  have hwrite : (s.emit [.txWrite (s.addrBytes.getD 0 0)]).portPhase = some (.writing 1) :=
    portPhase_of_event hp rfl rfl (portNext_txWrite _ (by omega))
  unfold stepTxAddr0
  split
  · exact hwrite
  · refine h.afterAddr_portInv ?_
    have hone : s.descr.regw = .one := by
      cases hr : s.descr.regw with
      | none => exact absurd hr hw
      | one => rfl
      | two => exact absurd hr ‹_›
    rw [hwrite, hone, RegWidth.bytes]

theorem stepTxAddr1_portInv (h : s.unsent) (hw : s.descr.regw = .two) (hp : s.portPhase = some (.writing 1)) :
    (stepTxAddr1 s).portInv := by
  have hwrite : (s.emit [.txWrite (s.addrBytes.getD 1 0)]).portPhase = some (.writing 2) :=
    portPhase_of_event hp rfl rfl (portNext_txWrite _ (by omega))
  refine h.afterAddr_portInv ?_
  rw [hwrite, hw, RegWidth.bytes]

theorem RegWidth.bytes_le_two (r : RegWidth) : r.bytes ≤ 2 := by
  cases r <;> simp [RegWidth.bytes]

/-- A transaction takes at most `MAX_CHUNK` payload bytes after its address bytes (R126). -/
theorem stepTxData_portInv (hc : s.chunked) (hi : s.seq.idx < s.seq.cl)
    (hp : s.portPhase = some (.writing (s.descr.regw.bytes + s.seq.idx))) : (stepTxData s).portInv := by
  have hbytes := s.descr.regw.bytes_le_two
  have hmax := hc.le_maxChunk
  have hwrite : (stepTxData s).portPhase = some (.writing (s.descr.regw.bytes + s.seq.idx + 1)) :=
    portPhase_of_event hp rfl rfl (portNext_txWrite _ (by omega))
  by_cases hlast : s.seq.idx + 1 < s.seq.cl
  · have hst : (stepTxData s).seq.st = .txData := if_pos hlast
    rw [State.portInv, hst]
    exact hwrite
  · have hst : (stepTxData s).seq.st = .txClose := if_neg hlast
    rw [State.portInv, hst]
    exact ⟨_, hwrite⟩

/-- Every TxEnd that has returned leaves the port outside a transaction (R95). -/
theorem stepTxClose_portInv (hst : s.seq.st = .txClose) (hq : s.seqInv) (hp : s.portInv) : (stepTxClose s).portInv := by
  have hwriting := hp
  rw [State.portInv, hst] at hwriting
  obtain ⟨n, hn⟩ := hwriting
  have hclosed (c : Nat) (cs : List Nat) : (s.tookCode c cs).portPhase = some (.closed 0) :=
    portPhase_of_event hn rfl rfl rfl
  rcases stepTxClose_cases s with ⟨-, e⟩ | ⟨c, cs, -, ⟨-, -, e⟩ | ⟨-, -, e⟩ | ⟨-, -, e⟩ | ⟨-, -, -, -, e⟩ |
    ⟨-, -, -, -, e⟩ | ⟨-, -, -, e⟩ | ⟨hpr, -, hk, e⟩⟩ <;> rw [e]
  case inl => exact hp
  case inr.inr.inr.inr.inr.inr.inr => exact absurd hk (hq.kind_ne_rd hst hpr)
  all_goals exact hclosed c cs

theorem stepPlanRx_portInv (hp : s.portPhase = some (.closed 0)) : (stepPlanRx s).portInv := by
  rcases stepPlanRx_cases s with ⟨-, e⟩ | ⟨-, e⟩ <;> rw [e] <;> exact hp

/-- A request asks for 1 to `MAX_CHUNK` bytes; a granted one is drained next (R98, R126, R194). -/
theorem stepRxReq_portInv (hst : s.seq.st = .rxReq) (hq : s.seqInv) (hp : s.portInv) : (stepRxReq s).portInv := by
  obtain ⟨hreq, hi⟩ := hq.requested hst
  have hclosed := hp
  rw [State.portInv, hst] at hclosed
  have hphase (a : Nat) (as : List Nat) :
      (s.tookAvail a as).portPhase = some (.closed (if a < s.seq.req then 0 else s.seq.req)) :=
    portPhase_of_event hclosed rfl rfl (portNext_rxRequest _ _ hreq.req_pos hreq.req_le_maxChunk)
  rcases stepRxReq_cases s with ⟨-, e⟩ | ⟨a, as, -, ⟨hshort, e⟩ | ⟨hgrant, e⟩⟩ <;> rw [e]
  · exact hp
  · have := hphase a as
    rwa [if_pos hshort] at this
  · have := hphase a as
    rw [if_neg (by omega)] at this
    show (s.tookAvail a as).portPhase = some (.closed (s.seq.req - s.seq.idx))
    rw [this, hi, Nat.sub_zero]

/-- A received byte is one of the granted ones (R99). -/
theorem stepRxDrain_portInv (hst : s.seq.st = .rxDrain) (hq : s.seqInv) (hp : s.portInv) :
    (stepRxDrain s).portInv := by
  cases hb : s.port.bytes with
  | nil => rwa [stepRxDrain, hb]
  | cons b bs =>
    obtain ⟨hreq, hi⟩ := hq.draining hst
    obtain ⟨k, hk⟩ : ∃ k, s.seq.req - s.seq.idx = k + 1 := ⟨s.seq.req - s.seq.idx - 1, by omega⟩
    have hgranted := hp
    rw [State.portInv, hst] at hgranted
    simp only [hk] at hgranted
    have htrace : (stepRxDrain s).trace = s.trace ++ [.rxRead b] := by
      obtain ⟨-, -, -, -, -, -, -, htr, -⟩ := absorb_frame (s.tookByte b bs) b
      rw [stepRxDrain, hb]
      exact htr
    have hread : (stepRxDrain s).portPhase = some (.closed k) :=
      portPhase_of_event hgranted (stepRxDrain_sameSetup s).cfg htrace rfl
    obtain ⟨acc, hseq⟩ := stepRxDrain_seq hb
    by_cases hlast : s.seq.idx + 1 < s.seq.req
    · simp only [State.portInv, hseq, if_pos hlast]
      rw [hread, show s.seq.req - (s.seq.idx + 1) = k by omega]
    · simp only [State.portInv, hseq, if_neg hlast]
      rw [hread, show k = 0 by omega]

theorem seqStep_portInv (hq : s.seqInv) (hp : s.portInv) : (seqStep s).portInv := by
  have h := hq
  have hphase := hp
  unfold seqStep
  rw [State.seqInv] at h
  rw [State.portInv] at hphase
  cases hst : s.seq.st <;> simp only [hst] at h hphase
  case idle => exact hp
  case planTx => exact hphase
  case txOpen => exact stepTxOpen_portInv h hphase
  case txAddr0 => exact stepTxAddr0_portInv h.1 h.2 hphase
  case txAddr1 => exact stepTxAddr1_portInv h.1 h.2 hphase
  case txData => exact stepTxData_portInv h.2.1 h.2.2 hphase
  case txClose => exact stepTxClose_portInv hst hq hp
  case planRx => exact stepPlanRx_portInv hphase
  case rxReq => exact stepRxReq_portInv hst hq hp
  case rxDrain => exact stepRxDrain_portInv hst hq hp

/-! ### BUF, and the whole invariant -/

theorem seqStep_wf (h : Memory.wf s.buf = true) : Memory.wf (seqStep s).buf = true := by
  rcases seqStep_buf s with e | ⟨-, v, e⟩ <;> rw [e]
  · exact h
  · exact storeElem_wf _ _ _ h

/-- A transition writes no byte of BUF at or above `L` (R34, R190). -/
theorem seqStep_buf_above (hq : s.seqInv) {a : Nat} (ha : s.seq.l ≤ a) :
    bufGet (seqStep s).buf a = bufGet s.buf a := by
  rcases seqStep_buf s with e | ⟨hst, v, e⟩ <;> rw [e]
  obtain ⟨hreq, hi⟩ := hq.draining hst
  exact bufGet_storeElem_other _ _ (.inr ((hreq.element_le hi).trans ha))

theorem seqStep_inRange (hq : s.seqInv) (h : bufInRange s.cfg s.buf = true) :
    bufInRange s.cfg (seqStep s).buf = true := by
  rcases seqStep_buf s with e | ⟨hst, v, e⟩ <;> rw [e]
  · exact h
  · obtain ⟨hreq, hi⟩ := hq.draining hst
    have hle := hreq.element_le hi
    obtain ⟨⟨-, -, ⟨-, hl, -⟩, -⟩, -⟩ := hreq
    exact storeElem_inRange _ (hle.trans hl) h

/-- Every transition of the sequencer keeps the invariant (R136). -/
theorem seqStep_inv (h : s.Inv) : (seqStep s).Inv := by
  by_cases hst : s.seq.st = .idle
  · have hstay : seqStep s = s := by rw [seqStep, hst]
    rwa [hstay]
  · obtain ⟨hwf, hrange, herr, hres, hfits, hseq, hport⟩ := h
    have hcfg := (seqStep_sameSetup s).cfg
    have hprogress := seqStep_progress hst
    exact ⟨seqStep_wf hwf, hcfg ▸ seqStep_inRange hseq hrange, hcfg ▸ hprogress.errcnt_lt herr,
      hprogress.res_lawful hres, seqStep_fits hseq hfits, seqStep_seqInv hseq, seqStep_portInv hseq hport⟩

end

end Sys2Proof.Machine
end

section
/-! SUPPORT. The transfers of WRITE and READ are runs of the sequencer (D25), which end or wait for the port. -/

namespace Sys2Proof.Machine

/-- What every transition keeps, every run keeps. -/
theorem Reaches.keeps {P : State → Prop} (hstep : ∀ s, P s → P (seqStep s)) {s t : State} (hr : Reaches s t)
    (hs : P s) : P t := by
  obtain ⟨n, rfl⟩ := hr
  induction n generalizing s with
  | zero => exact hs
  | succ n ih => exact ih (hstep s hs)

theorem Reaches.inv {s t : State} (hr : Reaches s t) (h : s.Inv) : t.Inv :=
  hr.keeps (P := State.Inv) (fun _ => seqStep_inv) h

theorem Reaches.seqInv {s t : State} (hr : Reaches s t) (h : s.seqInv) : t.seqInv :=
  hr.keeps (P := State.seqInv) (fun _ => seqStep_seqInv) h

theorem Reaches.sameSetup {s t : State} (hr : Reaches s t) : SameSetup s t :=
  hr.keeps (P := SameSetup s) (fun u h => h.trans (seqStep_sameSetup u)) (.refl s)

section
variable {s : State}

/-! ### One write transaction -/

/-- The sequencer from TX_OPEN hands over the whole write transaction (R136, R139, R192). -/
theorem State.unsent.reaches_fillTx (h : s.unsent) (hst : s.seq.st = .txOpen) : Reaches s (fillTx s) := by
  refine Sys2Proof.Machine.reaches_fillTx s hst ?_
  rcases h with ⟨⟨-, -, hz, -, -, hlt⟩, hc, hi⟩ | ⟨-, -, -, -, -, -, hcl, -⟩
  · rcases hlt with hlt | hl
    · exact .inr ⟨hz.size_pos hlt, hc.size_dvd hz hlt, hz.2.2.2.2, hi⟩
    · have := hc.le_rest
      exact .inl (by omega)
  · exact .inl hcl

/-- The same, closed: one pass through TX_CLOSE. -/
theorem State.unsent.reaches_close (h : s.unsent) (hst : s.seq.st = .txOpen) :
    Reaches s (stepTxClose (fillTx s)) :=
  (h.reaches_fillTx hst).trans (.of_step (seqStep_txClose rfl))

theorem State.unsent.seqInv (h : s.unsent) (hst : s.seq.st = .txOpen) : s.seqInv := by
  rw [State.seqInv, hst]; exact h

/-- After TX_CLOSE the command has ended or waits, or the transfer goes on: a WRITE with its next chunk, a READ with its
data phase (R136, R244). -/
theorem stepTxClose_outcome (hst : s.seq.st = .txClose) (hq : s.seqInv) :
    (stepTxClose s).seq.st = .idle ∨ (stepTxClose s).waiting = true ∨
      (s.seq.kind = .w ∧ (stepTxClose s).seq.st = .planTx) ∨ (s.seq.kind = .ra ∧ (stepTxClose s).seq.st = .planRx) := by
  rcases stepTxClose_cases s with ⟨hc, e⟩ | ⟨c, cs, -, ⟨-, -, e⟩ | ⟨-, -, e⟩ | ⟨-, -, e⟩ | ⟨-, -, hk, -, e⟩ |
    ⟨-, -, -, -, e⟩ | ⟨-, -, hk, e⟩ | ⟨hp, -, hk, e⟩⟩ <;> rw [e]
  · exact .inr (.inl (by rw [State.waiting, hst]; exact List.isEmpty_iff.mpr hc))
  · exact .inl rfl
  · exact .inl rfl
  · exact .inl rfl
  · exact .inr (.inr (.inl ⟨hk, rfl⟩))
  · exact .inl rfl
  · exact .inr (.inr (.inr ⟨hk, rfl⟩))
  · exact absurd hk (hq.kind_ne_rd hst hp)

/-! ### WRITE -/

/-- One pass of the WRITE loop is a run of the sequencer (R139). -/
theorem State.writing.reaches_chunk (hw : s.writing) (hst : s.seq.st = .planTx) :
    Reaches s (stepTxClose (fillTx (planTx s))) := by
  have hunsent : (planTx s).unsent := .inl ⟨hw, rfl, rfl⟩
  exact (Reaches.of_step (seqStep_planTx hst)).trans (hunsent.reaches_close rfl)

theorem State.seqInv.writing (hq : s.seqInv) (hst : s.seq.st = .planTx) : s.writing := by
  rwa [State.seqInv, hst] at hq

theorem State.writing.seqInv (hw : s.writing) (hst : s.seq.st = .planTx) : s.seqInv := by
  rwa [State.seqInv, hst]

theorem writeLoop_reaches (fuel : Nat) {s : State} (hw : s.writing) (hst : s.seq.st = .planTx) :
    Reaches s (writeLoop fuel s) := by
  induction fuel generalizing s with
  | zero => exact .refl s
  | succ fuel ih =>
    have hchunk := hw.reaches_chunk hst
    rw [writeLoop_succ]
    split
    · exact hchunk.trans (ih ((hchunk.seqInv (hw.seqInv hst)).writing ‹_›) ‹_›)
    · exact hchunk

/-- With a pass for every byte to go, the WRITE loop stops where the command has ended or waits (R139, R244). -/
theorem writeLoop_ends {fuel : Nat} {s : State} (hw : s.writing) (hst : s.seq.st = .planTx)
    (hfuel : s.seq.l - s.seq.sent < fuel) :
    (writeLoop fuel s).seq.st = .idle ∨ (writeLoop fuel s).waiting = true := by
  induction fuel generalizing s with
  | zero => omega
  | succ fuel ih =>
    have hchunk := hw.reaches_chunk hst
    have hunsent : (planTx s).unsent := .inl ⟨hw, rfl, rfl⟩
    have hfill : (fillTx (planTx s)).seqInv := (hunsent.reaches_fillTx rfl).seqInv (hunsent.seqInv rfl)
    have hkind : s.seq.kind = .w := hw.2.2.2.1
    rw [writeLoop_succ]
    split
    · rename_i hnext
      obtain ⟨cs, -, -, -, hlt, e⟩ := stepTxClose_planTx rfl hnext
      refine ih ((hchunk.seqInv (hw.seqInv hst)).writing hnext) hnext ?_
      have hle : s.seq.sent + (planTx s).seq.cl < s.seq.l := hlt
      have hpos : 0 < (planTx s).seq.cl :=
        State.chunked.pos (s := planTx s) rfl hw.2.2.1 (show s.seq.sent < s.seq.l by omega)
      rw [e]
      show s.seq.l - (s.seq.sent + (planTx s).seq.cl) < fuel
      omega
    · rename_i hstop
      rcases stepTxClose_outcome rfl hfill with h | h | ⟨-, h⟩ | ⟨h, -⟩
      · exact .inl h
      · exact .inr h
      · exact absurd h hstop
      · cases hkind.symm.trans h

/-! ### READ -/

theorem State.seqInv.reading (hq : s.seqInv) (hst : s.seq.st = .planRx) : s.reading := by
  rwa [State.seqInv, hst] at hq

theorem State.reading.seqInv (hr : s.reading) (hst : s.seq.st = .planRx) : s.seqInv := by
  rwa [State.seqInv, hst]

/-- A chunk of a READ up to the port's answer to its request is a run of the sequencer (R136, R194). -/
theorem reaches_request (hst : s.seq.st = .planRx) (hlt : s.seq.sent < s.seq.l) :
    Reaches s (stepRxReq (planRx s)) := by
  have hplan : seqStep s = planRx s := by rw [seqStep_planRx hst, stepPlanRx, if_neg (by omega)]
  exact (Reaches.of_step hplan).trans (.of_step (seqStep_rxReq rfl))

/-- The drain of a granted chunk is a run of the sequencer (R136, R137, R195). -/
theorem State.reading.reaches_drain (hr : s.reading) (hlt : s.seq.sent < s.seq.l)
    (hgrant : (stepRxReq (planRx s)).seq.st = .rxDrain) :
    Reaches (stepRxReq (planRx s)) (drainChunk (stepRxReq (planRx s))) := by
  obtain ⟨a, as, -, -, e⟩ := stepRxReq_rxDrain rfl hgrant
  have hreq : (planRx s).requesting := ⟨hr, hlt, rfl, rfl⟩
  obtain ⟨-, -, hz, -, hw⟩ := hr
  have hwpos : 0 < s.seq.w := hw ▸ wireWidth_pos _ (hz.size_pos hlt)
  have hw8 : s.seq.w ≤ 8 := hw ▸ wireWidth_le_eight _ hz.1.le_eight
  rw [e]
  exact reaches_drainChunk _ rfl hwpos hw8 rfl rfl hreq.req_pos

theorem readLoop_reaches (fuel : Nat) {s : State} (hr : s.reading) (hst : s.seq.st = .planRx) :
    Reaches s (readLoop fuel s) := by
  induction fuel generalizing s with
  | zero => exact .refl s
  | succ fuel ih =>
    rw [readLoop_succ]
    split
    · exact .of_step (by rw [seqStep_planRx hst, stepPlanRx, if_pos ‹_›])
    · have hlt : s.seq.sent < s.seq.l := by omega
      have hrequest := reaches_request hst hlt
      split
      · have hchunk := hrequest.trans (hr.reaches_drain hlt ‹_›)
        split
        · exact hchunk.trans (ih ((hchunk.seqInv (hr.seqInv hst)).reading ‹_›) ‹_›)
        · exact hchunk
      · exact hrequest

/-- A drained chunk either counts in SENT or waits for a byte the port has not given (R190, R244). -/
theorem drainChunk_outcome (s : State) :
    ((drainChunk s).seq.st = .planRx ∧ (drainChunk s).seq.sent = s.seq.sent + s.seq.cl) ∨
      (drainChunk s).waiting = true := by
  by_cases hall : (s.port.bytes.take s.seq.req).length = s.seq.req
  · exact .inl ⟨if_pos hall, if_pos hall⟩
  · have hst : (drainChunk s).seq.st = .rxDrain := if_neg hall
    have hempty : (drainChunk s).port.bytes = [] := by
      rw [List.length_take] at hall
      exact List.drop_of_length_le (by omega)
    exact .inr (by rw [State.waiting, hst, hempty]; rfl)

/-- A request that is not granted ends the command or waits for its answer (R194, R244). -/
theorem stepRxReq_outcome (hst : s.seq.st = .rxReq) :
    (stepRxReq s).seq.st = .idle ∨ (stepRxReq s).waiting = true ∨ (stepRxReq s).seq.st = .rxDrain := by
  rcases stepRxReq_cases s with ⟨ha, e⟩ | ⟨a, as, -, ⟨-, e⟩ | ⟨-, e⟩⟩ <;> rw [e]
  · exact .inr (.inl (by rw [State.waiting, hst]; exact List.isEmpty_iff.mpr ha))
  · exact .inl rfl
  · exact .inr (.inr rfl)

/-- With a pass for every byte to go, the READ loop stops where the command has ended or waits (R190, R244). -/
theorem readLoop_ends {fuel : Nat} {s : State} (hr : s.reading) (hst : s.seq.st = .planRx)
    (hfuel : s.seq.l - s.seq.sent < fuel) :
    (readLoop fuel s).seq.st = .idle ∨ (readLoop fuel s).waiting = true := by
  induction fuel generalizing s with
  | zero => omega
  | succ fuel ih =>
    rw [readLoop_succ]
    split
    · exact .inl rfl
    · have hlt : s.seq.sent < s.seq.l := by omega
      have hpos : 0 < (planRx s).seq.cl := State.chunked.pos (s := planRx s) rfl hr.2.2.1 hlt
      split
      · rename_i hgrant
        have hchunk := (reaches_request hst hlt).trans (hr.reaches_drain hlt hgrant)
        obtain ⟨a, as, -, -, e⟩ := stepRxReq_rxDrain rfl hgrant
        rcases drainChunk_outcome (stepRxReq (planRx s)) with ⟨hnext, hsent⟩ | hwait
        · rw [if_pos hnext]
          refine ih ((hchunk.seqInv (hr.seqInv hst)).reading hnext) hnext ?_
          rw [hsent, e]
          show s.seq.l - (s.seq.sent + (planRx s).seq.cl) < fuel
          omega
        · split
          · rename_i hnext
            rw [State.waiting, hnext] at hwait
            cases hwait
          · exact .inr hwait
      · rename_i hstop
        rcases stepRxReq_outcome (s := planRx s) rfl with h | h | h
        · exact .inl h
        · exact .inr h
        · exact absurd h hstop

/-- A READ with a register address first closes its address-set phase (R192). -/
theorem runRead_of_txOpen (hst : s.seq.st = .txOpen) :
    runRead s =
      if (stepTxClose (fillTx s)).seq.st = .planRx then readLoop (s.seq.l + 1) (stepTxClose (fillTx s))
      else stepTxClose (fillTx s) := by
  rw [runRead, if_pos hst]

/-- A READ without one begins with its chunks (R192). -/
theorem runRead_of_planRx (hst : s.seq.st = .planRx) : runRead s = readLoop (s.seq.l + 1) s := by
  have hplain : s.seq.st ≠ .txOpen := by rw [hst]; nofun
  rw [runRead, if_neg hplain]
  exact if_pos hst

/-- The transfer of a READ is a run of the sequencer that ends or waits, with and without an address-set phase (R190,
R192). -/
theorem runRead_reaches (h : (s.seq.st = .txOpen ∧ s.addressing) ∨ (s.seq.st = .planRx ∧ s.reading)) :
    Reaches s (runRead s) ∧ ((runRead s).seq.st = .idle ∨ (runRead s).waiting = true) := by
  rcases h with ⟨hst, ha⟩ | ⟨hst, hr⟩
  · have hunsent : s.unsent := .inr ha
    have hclose := hunsent.reaches_close hst
    have hfill : (fillTx s).seqInv := (hunsent.reaches_fillTx hst).seqInv (hunsent.seqInv hst)
    have hkind : s.seq.kind = .ra := ha.2.2.2.1
    rw [runRead_of_txOpen hst]
    split
    · rename_i hdata
      have hreading := (hclose.seqInv (hunsent.seqInv hst)).reading hdata
      have hl : (stepTxClose (fillTx s)).seq.l = s.seq.l := hclose.sameSetup.l
      exact ⟨hclose.trans (readLoop_reaches _ hreading hdata), readLoop_ends hreading hdata (by omega)⟩
    · rename_i hstop
      refine ⟨hclose, ?_⟩
      rcases stepTxClose_outcome rfl hfill with h | h | ⟨h, -⟩ | ⟨-, h⟩
      · exact .inl h
      · exact .inr h
      · cases hkind.symm.trans h
      · exact absurd h hstop
  · rw [runRead_of_planRx hst]
    exact ⟨readLoop_reaches _ hr hst, readLoop_ends hr hst (by omega)⟩

end

end Sys2Proof.Machine
end

section
/-! SUPPORT. Everything a command can do from IDLE (R135, R252): answer at once, or be accepted and run the sequencer to
where it has ended or waits for the port. -/

namespace Sys2Proof.Machine

/-- The commands that end without a port event, and the state each ends in (R160, R161, R211, R212, R252). -/
inductive AnswersAtOnce (s : State) : Instr → State → Prop
  | refused (i : Instr) {c : Cause} (hc : c ≠ .none) : AnswersAtOnce s i (s.fail c)
  | configure {f : Word32} {d : Descriptor} (hf : Descriptor.ofFlags f = some d) :
      AnswersAtOnce s (.configure f) (({ s with desc := some d }).succeed 0)
  | release : AnswersAtOnce s .release (({ s with desc := none }).succeed 0)
  | errcount : AnswersAtOnce s .errcount (s.succeed (errcntValue s.errcnt))
  | clrerr : AnswersAtOnce s .clrerr (({ s with errcnt := 0 }).succeed 0)

/-- The commands that go to the port, and the state each is accepted in (R136, R210). -/
inductive Accepts (s : State) : Instr → State → Prop
  | write {ns : Bool} {e : BitVec 4} {ra : RegAddr} {c : BitVec 16} {m l : Nat} (hd : s.desc ≠ none)
      (hz : transferSize s.cfg e c = some (m, l)) : Accepts s (.write ns e ra c) (acceptWrite s ns ra m l)
  | read {e : BitVec 4} {ra : RegAddr} {c : BitVec 16} {m l : Nat} (hd : s.desc ≠ none)
      (hz : transferSize s.cfg e c = some (m, l)) : Accepts s (.read e ra c) (acceptRead s ra m l)
  | probe (hd : s.desc ≠ none) : Accepts s .probe (openProbe s)

section
variable {s t u : State} {i : Instr}

/-! ### Acceptance -/

theorem acceptWrite_writing {ns : Bool} {e : BitVec 4} {ra : RegAddr} {c : BitVec 16} {m l : Nat} (hd : s.desc ≠ none)
    (hz : transferSize s.cfg e c = some (m, l)) : (acceptWrite s ns ra m l).writing := by
  obtain ⟨hm, hl, hml⟩ := transferSize_sized hz
  exact ⟨hd, rfl, ⟨hm, hl, hml, Nat.zero_le l, Nat.dvd_zero m⟩, rfl, rfl, (Nat.eq_zero_or_pos l).symm⟩

theorem acceptRead_of_none (hr : s.descr.regw = .none) (ra : RegAddr) (m l : Nat) :
    acceptRead s ra m l = acceptReadPlain s ra m l := if_pos hr

theorem acceptRead_of_addressed (hr : s.descr.regw ≠ .none) (ra : RegAddr) (m l : Nat) :
    acceptRead s ra m l = acceptReadAddressed s ra m l := if_neg hr

/-- An accepted READ begins with its address-set phase or, without a register address, with its data phase (R192). -/
theorem acceptRead_begins {e : BitVec 4} {ra : RegAddr} {c : BitVec 16} {m l : Nat} (hd : s.desc ≠ none)
    (hz : transferSize s.cfg e c = some (m, l)) :
    ((acceptRead s ra m l).seq.st = .txOpen ∧ (acceptRead s ra m l).addressing) ∨
      ((acceptRead s ra m l).seq.st = .planRx ∧ (acceptRead s ra m l).reading) := by
  obtain ⟨hm, hl, hml⟩ := transferSize_sized hz
  by_cases hr : s.descr.regw = .none
  · rw [acceptRead_of_none hr]
    exact .inr ⟨rfl, hd, rfl, ⟨hm, hl, hml, Nat.zero_le l, Nat.dvd_zero m⟩, rfl, rfl⟩
  · rw [acceptRead_of_addressed hr]
    exact .inl ⟨rfl, hd, rfl, ⟨hm, hl, hml, Nat.zero_le l, Nat.dvd_zero m⟩, rfl, rfl, rfl, rfl, hr⟩

/-- Of the registers a command's acceptance writes the latches alone. -/
structure OnlyOpens (s u : State) : Prop where
  cfg : u.cfg = s.cfg
  desc : u.desc = s.desc
  errcnt : u.errcnt = s.errcnt
  res : u.res = s.res
  buf : u.buf = s.buf
  host : u.host = s.host
  port : u.port = s.port

theorem acceptRead_onlyOpens (s : State) (ra : RegAddr) (m l : Nat) : OnlyOpens s (acceptRead s ra m l) := by
  unfold acceptRead; split <;> exact ⟨rfl, rfl, rfl, rfl, rfl, rfl, rfl⟩

theorem acceptRead_draws (s : State) (ra : RegAddr) (m l : Nat) : (acceptRead s ra m l).draws = s.draws := by
  unfold acceptRead; split <;> rfl

theorem acceptRead_l (s : State) (ra : RegAddr) (m l : Nat) : (acceptRead s ra m l).seq.l = l := by
  unfold acceptRead; split <;> rfl

theorem Accepts.onlyOpens (h : Accepts s i u) : OnlyOpens s u := by
  cases h with
  | write hd hz => exact ⟨rfl, rfl, rfl, rfl, rfl, rfl, rfl⟩
  | read hd hz => exact acceptRead_onlyOpens s _ _ _
  | probe hd => exact ⟨rfl, rfl, rfl, rfl, rfl, rfl, rfl⟩

theorem Accepts.seqInv (h : Accepts s i u) : u.seqInv := by
  cases h with
  | write hd hz => exact (acceptWrite_writing hd hz).seqInv rfl
  | read hd hz =>
    rcases acceptRead_begins hd hz with ⟨hst, ha⟩ | ⟨hst, hr⟩
    · exact State.unsent.seqInv (.inr ha) hst
    · exact hr.seqInv hst
  | probe hd => exact .inl ⟨hd, rfl⟩

theorem Accepts.st_ne_idle (h : Accepts s i u) : u.seq.st ≠ .idle := by
  cases h with
  | write hd hz => nofun
  | read hd hz =>
    rcases acceptRead_begins hd hz with ⟨hst, -⟩ | ⟨hst, -⟩
    all_goals
      intro hidle
      rw [hidle] at hst
      cases hst
  | probe hd => nofun

/-! ### The commands -/

theorem exec_of_idle (i : Instr) (hst : s.seq.st = .idle) : ∃ t, exec i s = .next t := by
  cases i <;> exact ⟨_, whenIdle_of_idle hst⟩

/-- Where a command that was accepted stops within its step: it has ended, or it waits for the port (R244). -/
def RunsFrom (u t : State) : Prop := Reaches u t ∧ (t.seq.st = .idle ∨ t.waiting = true)

theorem execConfigure_cases {f : Word32} (h : execConfigure f s = .next t) : AnswersAtOnce s (.configure f) t := by
  obtain ⟨-, rfl⟩ := whenIdle_eq_next.mp h
  split
  · exact .refused _ nofun
  · exact .configure ‹_›

theorem execWrite_cases {ns : Bool} {e : BitVec 4} {ra : RegAddr} {c : BitVec 16}
    (h : execWrite ns e ra c s = .next t) :
    AnswersAtOnce s (.write ns e ra c) t ∨ ∃ u, Accepts s (.write ns e ra c) u ∧ RunsFrom u t := by
  obtain ⟨-, rfl⟩ := whenIdle_eq_next.mp h
  split
  · exact .inl (.refused _ nofun)
  · rename_i d hd
    have hd : s.desc ≠ none := by rw [hd]; nofun
    split
    · exact .inl (.refused _ nofun)
    · rename_i m l hz
      have hw := acceptWrite_writing (ns := ns) (ra := ra) hd hz
      exact .inr ⟨_, .write hd hz, writeLoop_reaches _ hw rfl, writeLoop_ends hw rfl (Nat.lt_succ_self l)⟩

theorem execRead_cases {e : BitVec 4} {ra : RegAddr} {c : BitVec 16} (h : execRead e ra c s = .next t) :
    AnswersAtOnce s (.read e ra c) t ∨ ∃ u, Accepts s (.read e ra c) u ∧ RunsFrom u t := by
  obtain ⟨-, rfl⟩ := whenIdle_eq_next.mp h
  split
  · exact .inl (.refused _ nofun)
  · rename_i d hd
    have hd : s.desc ≠ none := by rw [hd]; nofun
    split
    · exact .inl (.refused _ nofun)
    · exact .inr ⟨_, .read hd ‹_›, runRead_reaches (acceptRead_begins hd ‹_›)⟩

theorem execProbe_cases (h : execProbe s = .next t) :
    AnswersAtOnce s .probe t ∨ ∃ u, Accepts s .probe u ∧ RunsFrom u t := by
  obtain ⟨-, rfl⟩ := whenIdle_eq_next.mp h
  split
  · exact .inl (.refused _ nofun)
  · rename_i d hd
    have hd : s.desc ≠ none := by rw [hd]; nofun
    refine .inr ⟨_, .probe hd, .of_step (seqStep_txClose rfl), ?_⟩
    rcases stepTxClose_cases (openProbe s) with ⟨hc, e⟩ | ⟨c, cs, -, ⟨-, -, e⟩ | ⟨-, -, e⟩ | ⟨hp, -⟩ | ⟨hp, -⟩ |
      ⟨hp, -⟩ | ⟨hp, -⟩ | ⟨hp, -⟩⟩
    · rw [e]
      exact .inr (List.isEmpty_iff.mpr hc)
    · rw [e]; exact .inl rfl
    · rw [e]; exact .inl rfl
    all_goals cases hp

/-- Everything a command can do (R135, R252). -/
theorem exec_cases (h : exec i s = .next t) :
    s.seq.st = .idle ∧ (AnswersAtOnce s i t ∨ ∃ u, Accepts s i u ∧ RunsFrom u t) := by
  cases i with
  | configure f => exact ⟨(whenIdle_eq_next.mp h).1, .inl (execConfigure_cases h)⟩
  | write ns e ra c => exact ⟨(whenIdle_eq_next.mp h).1, execWrite_cases h⟩
  | read e ra c => exact ⟨(whenIdle_eq_next.mp h).1, execRead_cases h⟩
  | probe => exact ⟨(whenIdle_eq_next.mp h).1, execProbe_cases h⟩
  | release =>
    obtain ⟨hst, rfl⟩ := whenIdle_eq_next.mp h
    exact ⟨hst, .inl .release⟩
  | errcount =>
    obtain ⟨hst, rfl⟩ := whenIdle_eq_next.mp h
    exact ⟨hst, .inl .errcount⟩
  | clrerr =>
    obtain ⟨hst, rfl⟩ := whenIdle_eq_next.mp h
    exact ⟨hst, .inl .clrerr⟩

end

end Sys2Proof.Machine
end

section
/-! SUPPORT. Every step keeps the invariant (R21, R32, R34, R35, R93, R95 to R101, R126, R136). -/

namespace Sys2Proof.Machine

section
variable {s t u : State} {i : Instr}

/-- The invariant of an idle block. -/
theorem State.inv_iff_of_idle (hst : s.seq.st = .idle) :
    s.Inv ↔ Memory.wf s.buf = true ∧ bufInRange s.cfg s.buf = true ∧ s.errcnt < 2 ^ s.cfg.errcntW ∧ s.res.lawful ∧
      s.seq.fits ∧ s.probe = false ∧ s.portPhase = some (.closed 0) := by
  simp only [State.Inv, State.seqInv, State.portInv, hst]

/-- A command that ends at once writes nothing the invariant reads but RES and, under its width, ERRCNT. -/
theorem AnswersAtOnce.inv (h : AnswersAtOnce s i t) (hst : s.seq.st = .idle) (hs : s.Inv) : t.Inv := by
  obtain ⟨hwf, hrange, herr, -, hfits, hprobe, hphase⟩ := (State.inv_iff_of_idle hst).mp hs
  cases h with
  | refused i hc => exact ⟨hwf, hrange, herr, Result.failure_lawful hc, hfits, hprobe, hphase⟩
  | configure hf => exact ⟨hwf, hrange, herr, Result.success_lawful 0, hfits, hprobe, hphase⟩
  | release => exact ⟨hwf, hrange, herr, Result.success_lawful 0, hfits, hprobe, hphase⟩
  | errcount => exact ⟨hwf, hrange, herr, Result.success_lawful _, hfits, hprobe, hphase⟩
  | clrerr => exact ⟨hwf, hrange, Nat.two_pow_pos _, Result.success_lawful 0, hfits, hprobe, hphase⟩

/-- The latches a transfer is accepted with are inside their widths (R35, R121, R122). -/
theorem Accepts.fits (h : Accepts s i u) (hf : s.seq.fits) : u.seq.fits := by
  obtain ⟨-, -, -, -, hcl, hreq, hidx⟩ := id hf
  have hzero : 0 < 2 ^ 20 := Nat.two_pow_pos 20
  have hmax := s.cfg.bufBytes_le
  cases h with
  | @write ns e ra c m l hd hz =>
    obtain ⟨hm, hl, -⟩ := transferSize_sized hz
    have hm4 : m < 2 ^ 4 := Nat.lt_of_le_of_lt hm.le_eight (by decide)
    have hl20 : l < 2 ^ 20 := by omega
    exact ⟨hm4, hm4, hl20, hzero, hcl, hreq, hidx⟩
  | @read e ra c m l hd hz =>
    obtain ⟨hm, hl, -⟩ := transferSize_sized hz
    have hm4 : m < 2 ^ 4 := Nat.lt_of_le_of_lt hm.le_eight (by decide)
    have hw4 : wireWidth m s.descr.wide < 2 ^ 4 := Nat.lt_of_le_of_lt (wireWidth_le_eight _ hm.le_eight) (by decide)
    have hl20 : l < 2 ^ 20 := by omega
    unfold acceptRead
    split
    · exact ⟨hm4, hw4, hl20, hzero, hcl, hreq, hidx⟩
    · exact ⟨hm4, hw4, hl20, hzero, hzero, hreq, hidx⟩
  | probe hd => exact hf

theorem Accepts.portInv (h : Accepts s i u) (hp : s.portPhase = some (.closed 0)) : u.portInv := by
  cases h with
  | write hd hz => exact hp
  | read hd hz =>
    unfold acceptRead
    split <;> exact hp
  | probe hd =>
    exact ⟨0, portPhase_of_event (e := .txBegin s.descr.busaddr) hp rfl rfl rfl⟩

theorem Accepts.inv (h : Accepts s i u) (hst : s.seq.st = .idle) (hs : s.Inv) : u.Inv := by
  obtain ⟨hwf, hrange, herr, hres, hfits, -, hphase⟩ := (State.inv_iff_of_idle hst).mp hs
  have ho := h.onlyOpens
  refine ⟨?_, ?_, ?_, ?_, h.fits hfits, h.seqInv, h.portInv hphase⟩
  · rwa [ho.buf]
  · rwa [ho.cfg, ho.buf]
  · rwa [ho.errcnt, ho.cfg]
  · rwa [ho.res]

theorem exec_inv (h : exec i s = .next t) (hs : s.Inv) : t.Inv := by
  obtain ⟨hst, hnow | ⟨u, hacc, hrun, -⟩⟩ := exec_cases h
  · exact hnow.inv hst hs
  · exact hrun.inv (hacc.inv hst hs)

/-- The host's moves are no part of the invariant. -/
theorem State.Inv.withHost (hs : s.Inv) (rest : List HostMove) : State.Inv { s with host := rest } := hs

theorem illegalCommand_inv (hst : s.seq.st = .idle) (hs : s.Inv) : (illegalCommand s).Inv :=
  AnswersAtOnce.inv (.refused .release nofun) hst hs

theorem State.Inv.store (hs : s.Inv) {a : Nat} (ha : a < s.cfg.bufBytes) (b : Byte) :
    State.Inv { s with buf := bufSet s.buf a b } := by
  obtain ⟨hwf, hrange, hrest⟩ := hs
  exact ⟨wf_bufSet a b hwf, inRange_bufSet b ha hrange, hrest⟩

/-- The reset input keeps the trace, which in IDLE stands outside every transaction (R38, R270). -/
theorem hostReset_inv (hst : s.seq.st = .idle) (hs : s.Inv) : (hostReset s).Inv := by
  obtain ⟨-, -, -, -, -, -, hphase⟩ := (State.inv_iff_of_idle hst).mp hs
  obtain ⟨hwf, hrange, herr, hres, hfits, hseq, -⟩ := State.resetWith_inv s.cfg
  exact ⟨hwf, hrange, herr, hres, hfits, hseq, hphase⟩

theorem step_inv (hs : s.Inv) (h : Sys2Proof.Machine.step s = .next t) : t.Inv := by
  rcases step_cases h with ⟨-, -, rfl⟩ | ⟨cw, rest, i, -, -, -, hexec⟩ | ⟨cw, rest, why, hst, -, -, rfl⟩ |
    ⟨a, b, rest, -, -, ha, rfl⟩ | ⟨rest, hst, -, rfl⟩ | ⟨-, -, rfl⟩
  · exact hs
  · exact exec_inv hexec (hs.withHost rest)
  · exact illegalCommand_inv hst (hs.withHost rest)
  · exact (hs.withHost rest).store ha b
  · exact hostReset_inv hst (hs.withHost rest)
  · exact seqStep_inv hs

end

/-- Settles O53: the invariant is kept by what the host does in IDLE, by every command, which answers at once or runs
the sequencer, and by every transition of the sequencer. -/
theorem stepKeepsInvariant : Obligations.StepKeepsInvariant := fun _ _ hs h => step_inv hs h

end Sys2Proof.Machine
end

section
/-! SUPPORT. How a command leaves RES: written once by its ending, not written while it runs (R33, R93, R244). -/

namespace Sys2Proof.Machine

section
variable {s t u : State} {i : Instr}

/-- RES as an ending of R10 writes it: success with no cause, or failure with a cause and value 0. -/
def Result.ended (r : Result) : Prop :=
  (r.ok = true ∧ r.cause = .none) ∨ (r.ok = false ∧ r.cause ≠ .none ∧ r.value = 0)

theorem Result.success_ended (v : Word32) : (Result.success v).ended := .inl ⟨rfl, rfl⟩

theorem Result.failure_ended {c : Cause} (hc : c ≠ .none) : (Result.failure c).ended := .inr ⟨rfl, hc, rfl⟩

/-- While the command runs RES is `r`; when it has ended RES is an ending's, with value 0. -/
def WritesResAtEnd (r : Result) (t : State) : Prop :=
  (t.seq.st ≠ .idle ∧ t.res = r) ∨ (t.seq.st = .idle ∧ t.res.ended ∧ t.res.value = 0)

theorem Progress.writesResAtEnd (h : Progress s t) : WritesResAtEnd s.res t := by
  cases h with
  | runs hst hres herr => exact .inl ⟨hst, hres⟩
  | succeeds hst hres herr => rw [WritesResAtEnd, hres]; exact .inr ⟨hst, Result.success_ended 0, rfl⟩
  | fails c hc hst hres herr => rw [WritesResAtEnd, hres]; exact .inr ⟨hst, Result.failure_ended hc, rfl⟩

theorem seqStep_writesResAtEnd {r : Result} (h : WritesResAtEnd r s) : WritesResAtEnd r (seqStep s) := by
  rcases h with ⟨hst, rfl⟩ | ⟨hst, hres⟩
  · exact (seqStep_progress hst).writesResAtEnd
  · have hstay : seqStep s = s := by rw [seqStep, hst]
    rw [hstay]
    exact .inr ⟨hst, hres⟩

theorem Reaches.writesResAtEnd {r : Result} (hr : Reaches s t) (h : WritesResAtEnd r s) : WritesResAtEnd r t :=
  hr.keeps (P := WritesResAtEnd r) (fun _ => seqStep_writesResAtEnd) h

theorem AnswersAtOnce.ended (h : AnswersAtOnce s i t) :
    t.seq.st = .idle ∧ t.res.ended ∧ (i ≠ .errcount → t.res.value = 0) := by
  cases h with
  | refused i hc => exact ⟨rfl, Result.failure_ended hc, fun _ => rfl⟩
  | configure | release | clrerr => exact ⟨rfl, Result.success_ended 0, fun _ => rfl⟩
  | errcount => exact ⟨rfl, Result.success_ended _, fun hi => absurd rfl hi⟩

end

/-- Settles O51: a command answers at once, or the run of the sequencer it starts ends with RES written or waits with
RES as it was. -/
theorem commandEndsOrWaits : Obligations.CommandEndsOrWaits := by
  intro i s hst
  obtain ⟨t, hexec⟩ := exec_of_idle i hst
  refine ⟨t, hexec, ?_⟩
  obtain ⟨-, hnow | ⟨u, hacc, hrun, hstop⟩⟩ := exec_cases hexec
  · exact .inl hnow.ended
  · have hres : WritesResAtEnd s.res t := hrun.writesResAtEnd (.inl ⟨hacc.st_ne_idle, hacc.onlyOpens.res⟩)
    rcases hres with ⟨hbusy, hres⟩ | ⟨hidle, hended, hvalue⟩
    · exact .inr ⟨hstop.resolve_left hbusy, hres⟩
    · exact .inl ⟨hidle, hended, fun _ => hvalue⟩

end Sys2Proof.Machine
end

section
/-! SUPPORT. What steps and commands leave unchanged: the form of BUF (R34), the session's descriptor (R66, R162), and
the frames of WRITE and READ (R170, R190). -/

namespace Sys2Proof.Machine

section
variable {s t u : State} {i : Instr}

/-! ### The canonical form of BUF -/

theorem AnswersAtOnce.buf (h : AnswersAtOnce s i t) : t.buf = s.buf := by
  cases h <;> rfl

theorem exec_wf (h : exec i s = .next t) (hwf : Memory.wf s.buf = true) : Memory.wf t.buf = true := by
  obtain ⟨-, hnow | ⟨u, hacc, hrun, -⟩⟩ := exec_cases h
  · rwa [hnow.buf]
  · exact hrun.keeps (P := fun v => Memory.wf v.buf = true) (fun _ => seqStep_wf) (by rwa [hacc.onlyOpens.buf])

theorem step_wf (hwf : Memory.wf s.buf = true) (h : Sys2Proof.Machine.step s = .next t) : Memory.wf t.buf = true := by
  rcases step_cases h with ⟨-, -, rfl⟩ | ⟨cw, rest, i, -, -, -, hexec⟩ | ⟨cw, rest, why, -, -, -, rfl⟩ |
    ⟨a, b, rest, -, -, -, rfl⟩ | ⟨rest, -, -, rfl⟩ | ⟨-, -, rfl⟩
  · exact hwf
  · exact exec_wf hexec hwf
  · exact hwf
  · exact wf_bufSet a b hwf
  · rfl
  · exact seqStep_wf hwf

/-! ### The session's descriptor -/

theorem RegWidth.ofBits_ne_three {b : BitVec 2} {r : RegWidth} (h : RegWidth.ofBits b = some r) : b ≠ 3 := by
  rintro rfl
  cases r <;> revert h <;> decide

theorem WideMode.ofBits_ne_three {b : BitVec 2} {w : WideMode} (h : WideMode.ofBits b = some w) : b ≠ 3 := by
  rintro rfl
  cases w <;> revert h <;> decide

/-- A DFLAGS that stands for a descriptor is legal (R90, R91 e). -/
theorem legalDflags_of_ofFlags {f : Word32} {d : Descriptor} (h : Descriptor.ofFlags f = some d) :
    legalDflags f = true := by
  unfold Descriptor.ofFlags at h
  split at h
  · cases h
  · rename_i hreserved
    simp only [not_or, ne_eq, not_not] at hreserved
    obtain ⟨h7, h15⟩ := hreserved
    split at h
    · rename_i hregw hwide
      simp only [legalDflags, Bool.and_eq_true, beq_iff_eq, bne_iff_ne]
      exact ⟨⟨⟨h7, h15⟩, RegWidth.ofBits_ne_three hregw⟩, WideMode.ofBits_ne_three hwide⟩
    · cases h

theorem AnswersAtOnce.desc_changes (h : AnswersAtOnce s i t) (hne : t.desc ≠ s.desc) :
    i = .release ∨ ∃ f, i = .configure f ∧ legalDflags f = true := by
  cases h with
  | refused | errcount | clrerr => exact absurd rfl hne
  | configure hf => exact .inr ⟨_, rfl, legalDflags_of_ofFlags hf⟩
  | release => exact .inl rfl

/-- Only a RELEASE and a CONFIGURE with a legal DFLAGS change DESC (R160 to R162). -/
theorem exec_desc_changes (h : exec i s = .next t) (hne : t.desc ≠ s.desc) :
    i = .release ∨ ∃ f, i = .configure f ∧ legalDflags f = true := by
  obtain ⟨-, hnow | ⟨u, hacc, hrun, -⟩⟩ := exec_cases h
  · exact hnow.desc_changes hne
  · exact absurd (hrun.sameSetup.desc.trans hacc.onlyOpens.desc) hne

/-! ### WRITE -/

theorem stepTxClose_kind_w (hk : s.seq.kind = .w) : (stepTxClose s).seq.kind = .w := by
  rcases stepTxClose_cases s with ⟨-, e⟩ | ⟨c, cs, -, ⟨-, -, e⟩ | ⟨-, -, e⟩ | ⟨-, -, e⟩ | ⟨-, -, -, -, e⟩ |
    ⟨-, -, -, -, e⟩ | ⟨-, -, hra, -⟩ | ⟨-, -, -, e⟩⟩
  case inr.inr.inr.inr.inr.inr.inl =>
    rw [hk] at hra
    cases hra
  all_goals
    rw [e]
    exact hk

/-- A transition of a running WRITE is none of the read path's (R136). -/
theorem seqStep_of_kind_w (hq : s.seqInv) (hk : s.seq.kind = .w) :
    (seqStep s).seq.kind = .w ∧ KeepsReadPath s (seqStep s) := by
  have hread (hr : s.reading) : False := by
    obtain ⟨-, -, -, hrd, -⟩ := hr
    rw [hk] at hrd
    cases hrd
  unfold seqStep
  cases hst : s.seq.st with
  | idle => exact ⟨hk, .refl s⟩
  | planTx | txOpen | txAddr0 | txAddr1 | txData => exact ⟨hk, rfl, rfl, rfl, rfl, rfl⟩
  | txClose => exact ⟨stepTxClose_kind_w hk, stepTxClose_keepsReadPath s⟩
  | planRx => exact (hread (hq.reading hst)).elim
  | rxReq => exact (hread (hq.requested hst).1.1).elim
  | rxDrain => exact (hread (hq.draining hst).1.1).elim

theorem Reaches.keepsReadPath (hr : Reaches s t) (hq : s.seqInv) (hk : s.seq.kind = .w) : KeepsReadPath s t := by
  have hkeep : t.seqInv ∧ t.seq.kind = .w ∧ KeepsReadPath s t := by
    refine hr.keeps (P := fun v => v.seqInv ∧ v.seq.kind = .w ∧ KeepsReadPath s v) ?_ ⟨hq, hk, .refl s⟩
    rintro v ⟨hqv, hkv, hv⟩
    obtain ⟨hkind, hpath⟩ := seqStep_of_kind_w hqv hkv
    exact ⟨seqStep_seqInv hqv, hkind, hv.trans hpath⟩
  exact hkeep.2.2

/-! ### READ -/

/-- A run of the sequencer writes no byte of BUF at or above `L` (R190). -/
theorem Reaches.buf_above (hr : Reaches s t) (hq : s.seqInv) {a : Nat} (ha : s.seq.l ≤ a) :
    bufGet t.buf a = bufGet s.buf a := by
  have hkeep : t.seqInv ∧ t.seq.l = s.seq.l ∧ bufGet t.buf a = bufGet s.buf a := by
    refine hr.keeps (P := fun v => v.seqInv ∧ v.seq.l = s.seq.l ∧ bufGet v.buf a = bufGet s.buf a) ?_ ⟨hq, rfl, rfl⟩
    rintro v ⟨hqv, hl, hv⟩
    exact ⟨seqStep_seqInv hqv, (seqStep_sameSetup v).l.trans hl, (seqStep_buf_above hqv (by omega)).trans hv⟩
  exact hkeep.2.2

end

/-- Settles O55: the host's store, a received element and the reset input keep the form; nothing else writes BUF. -/
theorem stepKeepsCanonicalBuf : Obligations.StepKeepsCanonicalBuf := fun _ _ hwf h => step_wf hwf h

/-- Settles O17: no transition of the sequencer and no host store changes DESC, so a step that does is a reset or a
command that does. -/
theorem sessionKeepsDescriptor : Obligations.SessionKeepsDescriptor := by
  intro s t h hne
  rcases step_cases h with ⟨-, -, rfl⟩ | ⟨cw, rest, i, hst, hhost, hdec, hexec⟩ | ⟨cw, rest, why, -, -, -, rfl⟩ |
    ⟨a, b, rest, -, -, -, rfl⟩ | ⟨rest, hst, hhost, -⟩ | ⟨-, -, rfl⟩
  · exact absurd rfl hne
  · refine ⟨hst, .inr ⟨cw, by rw [hhost]; rfl, ?_⟩⟩
    rcases exec_desc_changes hexec hne with rfl | ⟨f, rfl, hf⟩
    · exact .inl hdec
    · exact .inr ⟨f, hdec, hf⟩
  · exact absurd rfl hne
  · exact absurd rfl hne
  · exact ⟨hst, .inl (by rw [hhost]; rfl)⟩
  · exact absurd (seqStep_sameSetup s).desc hne

/-- Settles O40: a WRITE is refused, writing only RES, or runs the sequencer with KIND = W, where no transition is one
of the read path. -/
theorem writeFrame : Obligations.WriteFrame := by
  intro ns e ra c s t h
  obtain ⟨-, hnow | ⟨u, hacc, hrun, -⟩⟩ := exec_cases h
  · cases hnow with
    | refused i hc => exact ⟨rfl, rfl, rfl, rfl, rfl, rfl, rfl, rfl⟩
  · have hq := hacc.seqInv
    cases hacc with
    | write hd hz =>
      have hpath := hrun.keepsReadPath hq rfl
      have hset := hrun.sameSetup
      exact ⟨hpath.buf, hset.desc, hset.cfg, hset.host, hpath.avails, hpath.bytes, hpath.req, hpath.acc⟩

/-- Settles O47: a READ is refused, writing only RES, or runs the sequencer, which stores below `L = M * COUNT` alone.
-/
theorem readFrame : Obligations.ReadFrame := by
  intro e ra c s t h
  obtain ⟨-, hnow | ⟨u, hacc, hrun, -⟩⟩ := exec_cases h
  · cases hnow with
    | refused i hc => exact ⟨fun _ _ => rfl, rfl, rfl, rfl, rfl⟩
  · have hq := hacc.seqInv
    have ho := hacc.onlyOpens
    have hset := hrun.sameSetup
    cases hacc with
    | read hd hz =>
      obtain ⟨hsize, rfl, -⟩ := transferSize_eq_some hz
      refine ⟨fun a ha => ?_, hset.desc.trans ho.desc, hset.cfg.trans ho.cfg, hset.host.trans ho.host,
        hset.draws.trans (acceptRead_draws s _ _ _)⟩
      rw [hrun.buf_above hq (by rw [acceptRead_l]; exact ha _ hsize), ho.buf]

end Sys2Proof.Machine
end

section
/-! SUPPORT. WRITE does not read DESC.WIDE and DESC.NOSTOP (R29, R175): replacing them in DESC commutes with every
part of it. -/

namespace Sys2Proof.Machine

/-- The same block with another descriptor. -/
def State.withDesc (s : State) (d : Descriptor) : State := { s with desc := some d }

@[simp] theorem State.withDesc_descr (s : State) (d : Descriptor) : (s.withDesc d).descr = d := rfl

@[simp] theorem State.withDesc_seq (s : State) (d : Descriptor) : (s.withDesc d).seq = s.seq := rfl

@[simp] theorem State.withDesc_port (s : State) (d : Descriptor) : (s.withDesc d).port = s.port := rfl

@[simp] theorem State.withDesc_probe (s : State) (d : Descriptor) : (s.withDesc d).probe = s.probe := rfl

/-- Two descriptors that spell the same write transactions: the same address, address bytes and byte order (R100). -/
structure SameWrites (d d' : Descriptor) : Prop where
  busaddr : d'.busaddr = d.busaddr
  regw : d'.regw = d.regw
  reglsb : d'.reglsb = d.reglsb
  datalsb : d'.datalsb = d.datalsb

theorem SameWrites.of_wide_nostop (d : Descriptor) (wide : WideMode) (nostop : StopPolicy) :
    SameWrites d { d with wide := wide, nostop := nostop } := ⟨rfl, rfl, rfl, rfl⟩

section
variable {s : State} {d d' : Descriptor}

theorem SameWrites.addrPhase (h : SameWrites d d') (a : RegAddr) :
    Sys2Proof.Machine.addrPhase d' a = Sys2Proof.Machine.addrPhase d a := by
  unfold Sys2Proof.Machine.addrPhase
  rw [h.regw, h.reglsb]

theorem SameWrites.addrBytes (h : SameWrites d d') (hs : s.desc = some d) :
    (s.withDesc d').addrBytes = s.addrBytes := by
  simp only [State.addrBytes, State.withDesc_descr, State.withDesc_seq, State.descr_of_desc hs, h.addrPhase]

theorem State.withDesc_bufElem (s : State) (d : Descriptor) (j m : Nat) : (s.withDesc d).bufElem j m = s.bufElem j m :=
  rfl

theorem SameWrites.chunkPayload (h : SameWrites d d') (hs : s.desc = some d) :
    (s.withDesc d').chunkPayload = s.chunkPayload := by
  simp only [State.chunkPayload, State.withDesc_descr, State.withDesc_seq, State.withDesc_bufElem,
    State.descr_of_desc hs, h.datalsb]

theorem SameWrites.fillTx (h : SameWrites d d') (hs : s.desc = some d) :
    Sys2Proof.Machine.fillTx (s.withDesc d') = (Sys2Proof.Machine.fillTx s).withDesc d' := by
  unfold Sys2Proof.Machine.fillTx
  rw [h.addrBytes hs, h.chunkPayload hs, State.withDesc_descr, h.busaddr, State.descr_of_desc hs]
  rfl

theorem planTx_withDesc (s : State) (d : Descriptor) : planTx (s.withDesc d) = (planTx s).withDesc d := rfl

theorem afterClose_withDesc (s : State) (d : Descriptor) : afterClose (s.withDesc d) = (afterClose s).withDesc d := by
  unfold afterClose
  rw [State.withDesc_seq]
  cases s.seq.kind with
  | w => dsimp only; split <;> rfl
  | ra => rfl
  | rd => rfl

theorem tookCode_withDesc (s : State) (d : Descriptor) (c : Nat) (cs : List Nat) :
    (s.withDesc d).tookCode c cs = (s.tookCode c cs).withDesc d := rfl

/-- TX_CLOSE does not read DESC (R136, R140). -/
theorem stepTxClose_withDesc (s : State) (d : Descriptor) :
    stepTxClose (s.withDesc d) = (stepTxClose s).withDesc d := by
  unfold stepTxClose
  rw [State.withDesc_port, State.withDesc_probe]
  cases s.port.codes with
  | nil => rfl
  | cons c cs =>
    dsimp only
    rw [tookCode_withDesc, afterClose_withDesc]
    split
    · split <;> rfl
    · split <;> rfl

theorem SameWrites.writeLoop (h : SameWrites d d') (fuel : Nat) {s : State} (hs : s.desc = some d) :
    Sys2Proof.Machine.writeLoop fuel (s.withDesc d') = (Sys2Proof.Machine.writeLoop fuel s).withDesc d' := by
  induction fuel generalizing s with
  | zero => rfl
  | succ fuel ih =>
    have hplan : (planTx s).desc = some d := hs
    have hpass : stepTxClose (Sys2Proof.Machine.fillTx (planTx (s.withDesc d'))) =
        (stepTxClose (Sys2Proof.Machine.fillTx (planTx s))).withDesc d' := by
      rw [planTx_withDesc, h.fillTx hplan, stepTxClose_withDesc]
    have hdesc : (stepTxClose (Sys2Proof.Machine.fillTx (planTx s))).desc = some d :=
      (stepTxClose_sameSetup _).desc.trans hs
    rw [writeLoop_succ, writeLoop_succ, hpass, State.withDesc_seq]
    split
    · exact ih hdesc
    · rfl

/-- The two answers of WRITE in IDLE with a descriptor (R170, R252). -/
theorem exec_write_of_illegal {ns : Bool} {e : BitVec 4} {ra : RegAddr} {c : BitVec 16} (hst : s.seq.st = .idle)
    (hs : s.desc = some d) (hz : transferSize s.cfg e c = none) :
    exec (.write ns e ra c) s = .next (s.fail .badCommand) := by
  simp only [exec, execWrite, whenIdle_of_idle hst, hs, hz]

theorem exec_write_of_legal {ns : Bool} {e : BitVec 4} {ra : RegAddr} {c : BitVec 16} {m l : Nat}
    (hst : s.seq.st = .idle) (hs : s.desc = some d) (hz : transferSize s.cfg e c = some (m, l)) :
    exec (.write ns e ra c) s = .next (Sys2Proof.Machine.writeLoop (l + 1) (acceptWrite s ns ra m l)) := by
  simp only [exec, execWrite, whenIdle_of_idle hst, hs, hz]

end

/-- Settles O39: with another WIDE and NOSTOP the write transactions are spelled the same, and the rest of a WRITE
does not read DESC. -/
theorem writeIgnoresWideAndNostop : Obligations.WriteIgnoresWideAndNostop := by
  intro s d wide nostop ns e ra c hst hs
  have hsame := SameWrites.of_wide_nostop d wide nostop
  cases hz : transferSize s.cfg e c with
  | none =>
    exact ⟨_, exec_write_of_illegal hst hs hz,
      exec_write_of_illegal (s := s.withDesc { d with wide := wide, nostop := nostop }) hst rfl hz⟩
  | some size =>
    obtain ⟨m, l⟩ := size
    have haccept : (acceptWrite s ns ra m l).desc = some d := hs
    refine ⟨_, exec_write_of_legal hst hs hz,
      (exec_write_of_legal (s := s.withDesc { d with wide := wide, nostop := nostop }) hst rfl hz).trans ?_⟩
    exact congrArg _ (hsame.writeLoop _ haccept)

end Sys2Proof.Machine
end

section
/-! SUPPORT. The words the host reads: the bits of DESC (R23 to R31) and of the packed result (R93). -/

namespace Sys2Proof.Machine

/-! ### The bits of DESC -/

theorem RegWidth.ofBits_bits (r : RegWidth) : RegWidth.ofBits r.bits = some r := by cases r <;> rfl

theorem WideMode.ofBits_bits (w : WideMode) : WideMode.ofBits w.bits = some w := by cases w <;> rfl

theorem ByteOrder.ofBit_bit (o : ByteOrder) : ByteOrder.ofBit o.bit = o := by cases o <;> rfl

theorem StopPolicy.ofBit_bit (p : StopPolicy) : StopPolicy.ofBit p.bit = p := by cases p <;> rfl

theorem ByteOrder.bit_eq_true_iff (o : ByteOrder) : o.bit = true ↔ o = .lsbFirst := by
  cases o <;> simp [ByteOrder.bit]

theorem StopPolicy.bit_eq_true_iff (p : StopPolicy) : p.bit = true ↔ p = .noStop := by
  cases p <;> simp [StopPolicy.bit]

section
variable (d : Descriptor)

/-! Each field of the word is read by passing over the fields below it (R23). -/

@[simp] theorem Descriptor.word_busaddr : d.word.extractLsb' 0 7 = d.busaddr := by
  rw [Descriptor.word]
  rw [BitVec.extractLsb'_append_eq_of_add_le (by decide)]
  exact BitVec.extractLsb'_eq_self

@[simp] theorem Descriptor.word_bit7 : d.word.extractLsb' 7 1 = 0 := by
  rw [Descriptor.word]
  iterate 1 rw [BitVec.extractLsb'_append_eq_of_le (by decide)]
  rw [BitVec.extractLsb'_append_eq_of_add_le (by decide)]
  exact rfl

@[simp] theorem Descriptor.word_regw : d.word.extractLsb' 8 2 = d.regw.bits := by
  rw [Descriptor.word]
  iterate 2 rw [BitVec.extractLsb'_append_eq_of_le (by decide)]
  rw [BitVec.extractLsb'_append_eq_of_add_le (by decide)]
  exact BitVec.extractLsb'_eq_self

@[simp] theorem Descriptor.word_reglsb : d.word.getLsbD 10 = d.reglsb.bit := by
  rw [Descriptor.word]
  iterate 3 rw [BitVec.getLsbD_append, if_neg (by decide)]
  rw [BitVec.getLsbD_append, if_pos (by decide)]
  exact BitVec.getLsbD_ofBool _ 0

@[simp] theorem Descriptor.word_datalsb : d.word.getLsbD 11 = d.datalsb.bit := by
  rw [Descriptor.word]
  iterate 4 rw [BitVec.getLsbD_append, if_neg (by decide)]
  rw [BitVec.getLsbD_append, if_pos (by decide)]
  exact BitVec.getLsbD_ofBool _ 0

@[simp] theorem Descriptor.word_nostop : d.word.getLsbD 12 = d.nostop.bit := by
  rw [Descriptor.word]
  iterate 5 rw [BitVec.getLsbD_append, if_neg (by decide)]
  rw [BitVec.getLsbD_append, if_pos (by decide)]
  exact BitVec.getLsbD_ofBool _ 0

@[simp] theorem Descriptor.word_wide : d.word.extractLsb' 13 2 = d.wide.bits := by
  rw [Descriptor.word]
  iterate 6 rw [BitVec.extractLsb'_append_eq_of_le (by decide)]
  rw [BitVec.extractLsb'_append_eq_of_add_le (by decide)]
  exact BitVec.extractLsb'_eq_self

@[simp] theorem Descriptor.word_reserved : d.word.extractLsb' 15 16 = 0 := by
  rw [Descriptor.word]
  iterate 7 rw [BitVec.extractLsb'_append_eq_of_le (by decide)]
  rw [BitVec.extractLsb'_append_eq_of_add_le (by decide)]
  exact rfl

@[simp] theorem Descriptor.word_valid : d.word.getLsbD 31 = true := by
  rw [Descriptor.word]
  iterate 7 rw [BitVec.getLsbD_append, if_neg (by decide)]
  rfl

theorem RegWidth.bits_ne_three (r : RegWidth) : r.bits ≠ 3 := by cases r <;> decide

theorem WideMode.bits_ne_three (w : WideMode) : w.bits ≠ 3 := by cases w <;> decide

/-- VALID is set in the word of every stored descriptor, so it is never the uninitialized 0 (R24, R31). -/
theorem Descriptor.word_ne_zero : d.word ≠ 0 := by
  intro h
  have hvalid := d.word_valid
  rw [h] at hvalid
  cases hvalid

/-- The word of a stored descriptor, read as DFLAGS, stands for that descriptor (R90, R160). -/
theorem Descriptor.ofFlags_word : Descriptor.ofFlags d.word = some d := by
  rw [Descriptor.ofFlags]
  simp only [word_bit7, word_reserved, word_regw, word_wide, word_busaddr, word_reglsb, word_datalsb, word_nostop,
    RegWidth.ofBits_bits, WideMode.ofBits_bits, ByteOrder.ofBit_bit, StopPolicy.ofBit_bit]
  rfl

end

/-- Settles O18: DESC is 0 or the word of a stored descriptor. -/
theorem descriptorWordIsLegal : Obligations.DescriptorWordIsLegal := by
  intro s
  cases hs : s.desc with
  | none =>
    have hword : s.descWord = 0 := by rw [State.descWord, hs]
    exact ⟨iff_of_true hword rfl, .inl hword⟩
  | some d =>
    have hword : s.descWord = d.word := by rw [State.descWord, hs]
    rw [hword]
    refine ⟨iff_of_false d.word_ne_zero nofun, .inr ⟨d.word_valid, d.word_bit7, d.word_reserved, ?_, ?_⟩⟩
    · rw [d.word_regw]; exact d.regw.bits_ne_three
    · rw [d.word_wide]; exact d.wide.bits_ne_three

/-- Settles O19: field by field, and the fields read back. -/
theorem descriptorWordReadsBack : Obligations.DescriptorWordReadsBack := by
  intro d
  have hbit7 : d.word.getLsbD 7 = false := by
    have h := congrArg (fun x => x.getLsbD 0) d.word_bit7
    rwa [BitVec.getLsbD_extractLsb'] at h
  refine ⟨d.word_busaddr, hbit7, d.word_regw.trans ?_, ?_, ?_, ?_, d.word_wide.trans ?_, d.word_reserved, d.word_valid,
    d.ofFlags_word⟩
  · cases d.regw <;> rfl
  · rw [d.word_reglsb]; exact d.reglsb.bit_eq_true_iff
  · rw [d.word_datalsb]; exact d.datalsb.bit_eq_true_iff
  · rw [d.word_nostop]; exact d.nostop.bit_eq_true_iff
  · cases d.wide <;> rfl

/-! ### The packed result and the host's reads -/

section
variable (r : Result)

theorem Result.packed_ok : r.packed.getLsbD 35 = r.ok := by
  rw [Result.packed]
  iterate 2 rw [BitVec.getLsbD_append, if_neg (by decide)]
  exact BitVec.getLsbD_ofBool _ 0

theorem Result.packed_cause : r.packed.extractLsb' 32 3 = r.cause.code := by
  rw [Result.packed, BitVec.extractLsb'_append_eq_of_le (by decide),
    BitVec.extractLsb'_append_eq_of_add_le (by decide)]
  exact BitVec.extractLsb'_eq_self

theorem Result.packed_value : r.packed.extractLsb' 0 32 = r.value := by
  rw [Result.packed, BitVec.extractLsb'_append_eq_of_add_le (by decide)]
  exact BitVec.extractLsb'_eq_self

end

section
variable {s : State} {a : Nat}

theorem State.hostReadRes_of_idle (hst : s.seq.st = .idle) : s.hostReadRes = some s.res.packed := if_pos hst

theorem State.hostReadRes_of_busy (hst : s.seq.st ≠ .idle) : s.hostReadRes = none := if_neg hst

theorem State.hostReadBuf_of_idle (hst : s.seq.st = .idle) (ha : a < s.cfg.bufBytes) :
    s.hostReadBuf a = some (s.bufByte a) := if_pos ⟨hst, ha⟩

theorem State.hostReadBuf_eq_none (h : s.seq.st ≠ .idle ∨ s.cfg.bufBytes ≤ a) : s.hostReadBuf a = none :=
  if_neg fun ⟨hst, ha⟩ => h.elim (absurd hst) (Nat.not_le.mpr ha)

theorem State.bufByte_of_written {b : Byte} (h : bufGet s.buf a = some b) : s.bufByte a = b := by
  rw [State.bufByte, h, Option.getD_some]

end

/-- Settles O52: by the bits of the packed word, the five codes, and the two cases of each of the host's reads. -/
theorem packedResultWord : Obligations.PackedResultWord := by
  refine ⟨fun r => ⟨r.packed_ok, r.packed_cause, r.packed_value⟩, rfl, rfl, rfl, rfl, rfl, rfl,
    fun s => ⟨State.hostReadRes_of_idle, State.hostReadRes_of_busy⟩, fun s a => ⟨fun hst ha => ?_,
      State.hostReadBuf_eq_none⟩⟩
  have hread := State.hostReadBuf_of_idle hst ha
  exact ⟨fun b hb => by rw [hread, State.bufByte_of_written hb], _, hread⟩

end Sys2Proof.Machine
end

section
/-! SUPPORT. What a step does with each of the host's moves in IDLE (R21, R38, R52, R270). -/

namespace Sys2Proof.Machine

section
variable {s : State} {rest : List HostMove}

theorem fetch_of_idle (hst : s.seq.st = .idle) : fetch s = hostMove s := if_pos hst

theorem step_of_command {cw : CommandWord} {i : Instr} (hst : s.seq.st = .idle) (hh : s.host = .command cw :: rest)
    (hdec : decode cw = .legal i) : Sys2Proof.Machine.step s = exec i { s with host := rest } := by
  have hmove : hostMove s = .run i { s with host := rest } := by simp only [hostMove, hh, hdec]
  rw [Sys2Proof.Machine.step, fetch_of_idle hst, hmove]

theorem step_of_store {a : Nat} {b : Byte} (hst : s.seq.st = .idle) (hh : s.host = .store a b :: rest) :
    Sys2Proof.Machine.step s = hostStore a b { s with host := rest } := by
  have hmove : hostMove s = .other (hostStore a b { s with host := rest }) := by simp only [hostMove, hh]
  rw [Sys2Proof.Machine.step, fetch_of_idle hst, hmove]

theorem step_of_reset (hst : s.seq.st = .idle) (hh : s.host = .reset :: rest) :
    Sys2Proof.Machine.step s = .next (hostReset { s with host := rest }) := by
  have hmove : hostMove s = .other (.next (hostReset { s with host := rest })) := by simp only [hostMove, hh]
  rw [Sys2Proof.Machine.step, fetch_of_idle hst, hmove]

theorem Decoded.legal_of_instr? {d : Decoded} {i : Instr} (h : d.instr? = some i) : d = .legal i := by
  cases d with
  | legal j => rw [Option.some.inj h]
  | illegal why => cases h

end

/-- Settles O6: a word placed by `withFetchWord` is the next move of the idle block, before the moves it had. -/
theorem stepRunsDecodedCommand : Obligations.StepRunsDecodedCommand :=
  ⟨fun _ _ _ _ hst hh hdec => step_of_command hst hh hdec,
    fun s nbits w _ hdec =>
      step_of_command (s := s.withFetchWord nbits w) (rest := s.host) rfl rfl (Decoded.legal_of_instr? hdec)⟩

/-- Settles O9: by the laws of BUF for a read after a store. -/
theorem hostStoreWritesOneByte : Obligations.HostStoreWritesOneByte := by
  intro s a b rest hst hh
  have hstep := step_of_store hst hh
  split
  · rename_i ha
    refine ⟨{ s with host := rest, buf := bufSet s.buf a b }, ?_, bufGet_bufSet_same _ _ _,
      fun a' h => bufGet_bufSet_other _ _ h, rfl⟩
    rw [hstep]
    exact if_pos ha
  · rename_i ha
    rw [hstep]
    exact if_neg ha

/-- Settles O10: `State.reset` and the reset input give the block the same values (R38). -/
theorem resetValues : Obligations.ResetValues :=
  ⟨⟨rfl, rfl, rfl, rfl, rfl, rfl⟩,
    fun _ _ hst hh => ⟨_, step_of_reset hst hh, rfl, rfl, rfl, rfl, rfl, rfl, rfl⟩⟩

end Sys2Proof.Machine
end

section
/-! SUPPORT. A step while a command runs (R52, R135, R136). -/

namespace Sys2Proof.Machine

theorem fetch_of_busy {s : State} (hst : s.seq.st ≠ .idle) : fetch s = .other (busyStep s) := if_neg hst

/-- A step outside IDLE, no reset being asked for, is one transition of the sequencer. -/
theorem step_of_busy {s : State} (hst : s.seq.st ≠ .idle) (hh : s.host.head? ≠ some .reset) :
    Sys2Proof.Machine.step s = .next (seqStep s) := by
  rw [Sys2Proof.Machine.step, fetch_of_busy hst]
  exact if_neg hh

/-- Settles O12: a busy step runs the sequencer, and no transition of it writes the host's moves. -/
theorem busyStepIsOneTransition : Obligations.BusyStepIsOneTransition :=
  fun s hst hh => ⟨step_of_busy hst hh, (seqStep_sameSetup s).host⟩

end Sys2Proof.Machine
end

section
/-! SUPPORT. The chunk plan read front to back (R124), and the elements a READ stores in BUF (R51, R53, R190). -/

namespace Sys2Proof.Machine

/-! ### The chunk plan -/

section
variable {c m l : Nat}

@[simp] theorem chunkPlan_zero (c m : Nat) : chunkPlan 0 c m = [] := rfl

theorem chunkPlanFrom_zero (c m fuel : Nat) : chunkPlanFrom c m fuel 0 = [] := by
  cases fuel <;> rfl

theorem chunkPlanFrom_succ {rem : Nat} (fuel : Nat) (hr : 0 < rem) :
    chunkPlanFrom c m (fuel + 1) rem = chunkLen rem c m :: chunkPlanFrom c m fuel (rem - chunkLen rem c m) :=
  if_neg (Nat.ne_of_gt hr)

theorem dvd_sub_chunkLen (hd : m ∣ l) : m ∣ l - chunkLen l c m := by
  rcases Nat.eq_zero_or_pos l with rfl | hl
  · simp
  · exact Nat.dvd_sub hd (dvd_chunkLen (Nat.pos_of_dvd_of_pos hd hl))

theorem legalSize.chunkLen_pos (hm : legalSize m) (hc : 8 ≤ c) (hd : m ∣ l) (hl : 0 < l) : 0 < chunkLen l c m :=
  Sys2Proof.Machine.chunkLen_pos (hm.le_eight.trans hc) (by omega) hd hl

/-- Each chunk takes at least one byte, so fuel beyond the bytes to go changes nothing (R124). -/
theorem chunkPlanFrom_of_fuel (hm : legalSize m) (hc : 8 ≤ c) {f g : Nat} (hd : m ∣ l) (hf : l ≤ f) (hg : l ≤ g) :
    chunkPlanFrom c m f l = chunkPlanFrom c m g l := by
  induction f generalizing g l with
  | zero =>
    obtain rfl : l = 0 := by omega
    rw [chunkPlanFrom_zero, chunkPlanFrom_zero]
  | succ f ih =>
    rcases Nat.eq_zero_or_pos l with rfl | hl
    · rw [chunkPlanFrom_zero, chunkPlanFrom_zero]
    · obtain ⟨g, rfl⟩ : ∃ n, g = n + 1 := ⟨g - 1, by omega⟩
      have hpos := hm.chunkLen_pos hc hd hl
      rw [chunkPlanFrom_succ f hl, chunkPlanFrom_succ g hl,
        ih (g := g) (dvd_sub_chunkLen hd) (by omega) (by omega)]

/-- The plan of a transfer with bytes to go: one chunk, then the plan of the rest (R124). -/
theorem chunkPlan_of_pos (hm : legalSize m) (hc : 8 ≤ c) (hd : m ∣ l) (hl : 0 < l) :
    chunkPlan l c m = chunkLen l c m :: chunkPlan (l - chunkLen l c m) c m := by
  obtain ⟨f, rfl⟩ : ∃ n, l = n + 1 := ⟨l - 1, by omega⟩
  have hpos := hm.chunkLen_pos hc hd hl
  rw [chunkPlan, chunkPlanFrom_succ f hl, chunkPlan,
    chunkPlanFrom_of_fuel hm hc (dvd_sub_chunkLen hd) (show _ ≤ f by omega) (Nat.le_refl _)]

/-- The chunks add up to the transfer, and there are no more of them than bytes (R124). -/
theorem chunkPlan_sum_length (hm : legalSize m) (hc : 8 ≤ c) (hd : m ∣ l) :
    (chunkPlan l c m).sum = l ∧ (chunkPlan l c m).length ≤ l := by
  induction l using Nat.strong_induction_on with
  | _ l ih =>
    rcases Nat.eq_zero_or_pos l with rfl | hl
    · simp
    · have hpos := hm.chunkLen_pos hc hd hl
      have hle := chunkLen_le_rem l c m
      obtain ⟨hsum, hlen⟩ := ih (l - chunkLen l c m) (by omega) (dvd_sub_chunkLen hd)
      rw [chunkPlan_of_pos hm hc hd hl, List.sum_cons, List.length_cons, hsum]
      omega

end

/-! ### The elements stored -/

theorem bytesLE_getElem (m v : Nat) {k : Nat} (hk : k < (bytesLE m v).length) :
    (bytesLE m v)[k] = BitVec.ofNat 8 (v / 2 ^ (8 * k)) := by
  induction m generalizing v k with
  | zero => cases hk
  | succ m ih =>
    cases k with
    | zero => simp [bytesLE]
    | succ k =>
      simp only [bytesLE, List.getElem_cons_succ, ih]
      rw [Nat.div_div_eq_div_mul, Nat.mul_add, Nat.pow_add, Nat.mul_comm]

/-- Storing elements from `j` on leaves every byte outside them alone (R51, R53). -/
theorem bufGet_storeReceived_other (d : Descriptor) {m w n j a : Nat} (bs : List Byte) (buf : List Host.Cell)
    (h : a < j * m ∨ (j + n) * m ≤ a) : bufGet (storeReceived d m w n j bs buf) a = bufGet buf a := by
  induction n generalizing j bs buf with
  | zero => rfl
  | succ n ih =>
    have hj : (j + 1) * m = j * m + m := Nat.succ_mul j m
    have hlast : (j + (n + 1)) * m = (j + 1 + n) * m := by ring
    have hle : (j + 1) * m ≤ (j + 1 + n) * m := Nat.mul_le_mul_right m (Nat.le_add_right _ _)
    rw [storeReceived, ih _ _ (by omega), bufGet_storeElem_other _ _ (by omega)]

/-- Element `j + i` of the `n` stored has the bytes of the value of the `i`-th group of `w` wire bytes (R53, R190). -/
theorem bufGet_storeReceived (d : Descriptor) {m w n j i k : Nat} (bs : List Byte) (buf : List Host.Cell) (hi : i < n)
    (hk : k < m) :
    bufGet (storeReceived d m w n j bs buf) ((j + i) * m + k) =
      some (BitVec.ofNat 8 (receivedValue w d ((bs.drop (w * i)).take w) / 2 ^ (8 * k))) := by
  induction n generalizing i j bs buf with
  | zero => cases hi
  | succ n ih =>
    rw [storeReceived]
    cases i with
    | zero =>
      have hbelow : j * m + k < (j + 1) * m := by rw [Nat.succ_mul]; omega
      rw [Nat.mul_zero, List.drop_zero, show j + 0 = j from rfl, bufGet_storeReceived_other _ _ _ (.inl hbelow),
        bufGet_storeElem_same _ _ hk, bytesLE_getElem]
    | succ i =>
      have hnext : j + (i + 1) = j + 1 + i := by omega
      rw [hnext, ih _ _ (by omega), List.drop_drop, Nat.mul_succ, Nat.add_comm w]

/-- Storing `n + n'` elements is storing the first `n` and then the others from the bytes after theirs (R190). -/
theorem storeReceived_add (d : Descriptor) (m w n n' j : Nat) (bs : List Byte) (buf : List Host.Cell) :
    storeReceived d m w (n + n') j bs buf =
      storeReceived d m w n' (j + n) (bs.drop (w * n)) (storeReceived d m w n j bs buf) := by
  induction n generalizing j bs buf with
  | zero => simp [storeReceived]
  | succ n ih =>
    have hcount : n + 1 + n' = n + n' + 1 := by omega
    have hfrom : j + (n + 1) = j + 1 + n := by omega
    rw [hcount, hfrom, storeReceived, storeReceived, ih, List.drop_drop, Nat.mul_succ, Nat.add_comm w]

/-- A value received in as many bytes as an element has on the wire fits the element in BUF (R121, R133). -/
theorem receivedValue_lt (d : Descriptor) {m : Nat} (hm : legalSize m) {bs : List Byte}
    (hl : bs.length = wireWidth m d.wide) : receivedValue (wireWidth m d.wide) d bs < 256 ^ m := by
  rw [receivedValue, elemValue]
  by_cases hwide : m = 4 ∧ d.wide ≠ .plain
  · have hw : wireWidth m d.wide = 3 := if_pos hwide
    rw [if_pos hw, hwide.1]
    exact (wide24 _ d.wide).isLt
  · have hw : wireWidth m d.wide = m := if_neg hwide
    have h3 : m ≠ 3 := by unfold legalSize at hm; omega
    have hraw := unmarshal_lt bs d.datalsb
    rw [hl, hw] at hraw
    rwa [hw, if_neg h3]

end Sys2Proof.Machine
end

section
/-! SUPPORT. READ chunk by chunk (R190, R193 to R195): what a run of granted chunks does to the state, for any number of
them, and the address-set phase before the first. -/

namespace Sys2Proof.Machine

section
variable {s t u : State} {plan as : List Nat} {bs : List Byte}

/-- From `s` to `t`, both at PLAN_RX of one READ, the chunks of `plan` have been requested, granted with answers `as`
and drained as the bytes `bs` (R101, R193 to R195). -/
structure ChunksRead (s t : State) (plan as : List Nat) (bs : List Byte) : Prop where
  reading : t.reading
  st : t.seq.st = .planRx
  setup : SameSetup s t
  m : t.seq.m = s.seq.m
  w : t.seq.w = s.seq.w
  sent : t.seq.sent = s.seq.sent + plan.sum
  errcnt : t.errcnt = s.errcnt
  res : t.res = s.res
  port : s.port = { codes := t.port.codes, avails := as ++ t.port.avails, bytes := bs ++ t.port.bytes }
  trace : t.trace = s.trace ++ readEvents s.descr s.seq.w plan as bs
  buf : t.buf =
    storeReceived s.descr s.seq.m s.seq.w (plan.sum / s.seq.m) (s.seq.sent / s.seq.m) bs s.buf

theorem SameSetup.descr (h : SameSetup s t) : t.descr = s.descr := by
  rw [State.descr, h.desc, State.descr]

theorem ChunksRead.refl (hr : s.reading) (hst : s.seq.st = .planRx) : ChunksRead s s [] [] [] where
  reading := hr
  st := hst
  setup := .refl s
  m := rfl
  w := rfl
  sent := rfl
  errcnt := rfl
  res := rfl
  port := rfl
  trace := (List.append_nil _).symm
  buf := by rw [List.sum_nil, Nat.zero_div, storeReceived]

/-- What the port has left after the answers of the chunks. -/
theorem ChunksRead.port_left (h : ChunksRead s t plan as bs) {rest : List Nat} {more : List Byte}
    (ha : s.port.avails = as ++ rest) (hb : s.port.bytes = bs ++ more) :
    t.port = { codes := s.port.codes, avails := rest, bytes := more } := by
  rw [h.port] at ha hb ⊢
  rw [← List.append_cancel_left ha, ← List.append_cancel_left hb]

/-! ### One chunk -/

/-- The chunk PLAN_RX plans (R123, R136). -/
def State.nextChunk (s : State) : Nat := chunkLen (s.seq.l - s.seq.sent) s.cfg.maxChunk s.seq.m

/-- One pass of the READ loop over a granted chunk (R190 step 4). -/
def readPass (s : State) : State := drainChunk (stepRxReq (planRx s))

theorem State.reading.nextChunk_dvd (hr : s.reading) (hlt : s.seq.sent < s.seq.l) : s.seq.m ∣ s.nextChunk := by
  obtain ⟨-, -, hz, -⟩ := hr
  exact dvd_chunkLen (hz.size_pos hlt)

/-- The next request asks for W bytes per element of the chunk (R101, R196). -/
theorem State.reading.nextChunk_wireLen (hr : s.reading) (hlt : s.seq.sent < s.seq.l) :
    wireLen s.seq.w s.nextChunk = s.seq.w * (s.nextChunk / s.seq.m) := by
  obtain ⟨n, hn⟩ := hr.nextChunk_dvd hlt
  obtain ⟨-, -, hz, -, hw⟩ := hr
  rw [hn, Nat.mul_div_cancel_left n (hz.size_pos hlt), hw]
  exact wireLen_eq _ hz.1 n

theorem readLoop_of_done (fuel : Nat) (h : s.seq.l ≤ s.seq.sent) : readLoop (fuel + 1) s = s.succeed 0 := by
  rw [readLoop_succ, if_pos h]

theorem readLoop_of_drained (fuel : Nat) (hlt : s.seq.sent < s.seq.l)
    (hgrant : (stepRxReq (planRx s)).seq.st = .rxDrain) (hdrained : (readPass s).seq.st = .planRx) :
    readLoop (fuel + 1) s = readLoop fuel (readPass s) := by
  rw [readLoop_succ, if_neg (Nat.not_le.mpr hlt), if_pos hgrant]
  exact if_pos hdrained

theorem stepRxReq_of_granted {a : Nat} {as : List Nat} (ha : s.port.avails = a :: as) (hreq : s.seq.req ≤ a) :
    stepRxReq s = (s.tookAvail a as).goto .rxDrain := by
  simp only [stepRxReq, ha, if_neg (Nat.not_lt.mpr hreq)]

/-- A drain to which the port gives all the bytes requested (R190 step 4c). -/
theorem drainChunk_of_given {bs more : List Byte} (hb : s.port.bytes = bs ++ more) (hlen : bs.length = s.seq.req) :
    drainChunk s = { s with
      port := { s.port with bytes := more }
      trace := s.trace ++ bs.map .rxRead
      buf := storeReceived s.descr s.seq.m s.seq.w (bs.length / s.seq.w) (s.seq.sent / s.seq.m) bs s.buf
      seq := { s.seq with
        st := .planRx, idx := bs.length, sent := s.seq.sent + s.seq.cl
        acc := BitVec.ofNat 64 (unmarshal (bs.drop (s.seq.w * (bs.length / s.seq.w))) s.descr.datalsb) } } := by
  simp only [drainChunk, hb, ← hlen, List.take_left, List.drop_left, if_true]

/-- The state after a chunk whose request the port grants and all of whose bytes it gives (R136, R193 to R195). -/
theorem readPass_of_granted {a : Nat} {as : List Nat} {bs more : List Byte} (ha : s.port.avails = a :: as)
    (hb : s.port.bytes = bs ++ more) (hgrant : wireLen s.seq.w s.nextChunk ≤ a)
    (hlen : bs.length = wireLen s.seq.w s.nextChunk) :
    readPass s = { s with
      port := { s.port with avails := as, bytes := more }
      trace := s.trace ++ readEvents s.descr s.seq.w [s.nextChunk] [a] bs
      buf := storeReceived s.descr s.seq.m s.seq.w (bs.length / s.seq.w) (s.seq.sent / s.seq.m) bs s.buf
      seq := { s.seq with
        st := .planRx, cl := s.nextChunk, req := bs.length, idx := bs.length, sent := s.seq.sent + s.nextChunk
        acc := BitVec.ofNat 64 (unmarshal (bs.drop (s.seq.w * (bs.length / s.seq.w))) s.descr.datalsb) } } := by
  have hreq : stepRxReq (planRx s) = ((planRx s).tookAvail a as).goto .rxDrain :=
    stepRxReq_of_granted (s := planRx s) ha hgrant
  rw [readPass, hreq, drainChunk_of_given (s := ((planRx s).tookAvail a as).goto .rxDrain) hb hlen]
  simp only [State.goto, State.tookAvail, planRx, readEvents, ← hlen, List.take_length, List.append_nil,
    List.append_assoc, List.singleton_append]
  rw [hlen]
  rfl

/-- A granted chunk is passed over by the READ loop and has been read (R193 to R195). -/
theorem State.reading.reads_chunk (hr : s.reading) (hst : s.seq.st = .planRx) (hlt : s.seq.sent < s.seq.l) {a : Nat}
    {as : List Nat} {bs more : List Byte} (ha : s.port.avails = a :: as) (hb : s.port.bytes = bs ++ more)
    (hgrant : wireLen s.seq.w s.nextChunk ≤ a) (hlen : bs.length = wireLen s.seq.w s.nextChunk) :
    (∀ fuel, readLoop (fuel + 1) s = readLoop fuel (readPass s)) ∧
      ChunksRead s (readPass s) [s.nextChunk] [a] bs := by
  have hpass := readPass_of_granted ha hb hgrant hlen
  have hdrain : (stepRxReq (planRx s)).seq.st = .rxDrain := by
    rw [stepRxReq_of_granted (s := planRx s) ha hgrant]; rfl
  have hnext : (readPass s).seq.st = .planRx := by rw [hpass]
  have hrun : Reaches s (readPass s) := (reaches_request hst hlt).trans (hr.reaches_drain hlt hdrain)
  have hcount : bs.length / s.seq.w = s.nextChunk / s.seq.m := by
    obtain ⟨-, -, hz, -, hw⟩ := id hr
    have hwidth : 0 < s.seq.w := hw ▸ wireWidth_pos _ (hz.size_pos hlt)
    rw [hlen, hr.nextChunk_wireLen hlt, Nat.mul_div_cancel_left _ hwidth]
  have hread : ChunksRead s (readPass s) [s.nextChunk] [a] bs :=
    { reading := (hrun.seqInv (hr.seqInv hst)).reading hnext
      st := hnext
      setup := hrun.sameSetup
      m := by rw [hpass]
      w := by rw [hpass]
      sent := by rw [hpass, List.sum_singleton]
      errcnt := by rw [hpass]
      res := by rw [hpass]
      port := by rw [hpass, ← hb, List.singleton_append, ← ha]
      trace := by rw [hpass]
      buf := by rw [hpass, hcount, List.sum_singleton] }
  exact ⟨fun fuel => readLoop_of_drained fuel hlt hdrain hnext, hread⟩

/-- One granted chunk and then others (R193). -/
theorem ChunksRead.cons (hr : s.reading) (hlt : s.seq.sent < s.seq.l) {a : Nat} {first : List Byte}
    (hlen : first.length = wireLen s.seq.w s.nextChunk) (h1 : ChunksRead s t [s.nextChunk] [a] first)
    (h2 : ChunksRead t u plan as bs) : ChunksRead s u (s.nextChunk :: plan) (a :: as) (first ++ bs) where
  reading := h2.reading
  st := h2.st
  setup := h1.setup.trans h2.setup
  m := h2.m.trans h1.m
  w := h2.w.trans h1.w
  sent := by rw [h2.sent, h1.sent, List.sum_cons, List.sum_cons, List.sum_nil, Nat.add_zero, Nat.add_assoc]
  errcnt := h2.errcnt.trans h1.errcnt
  res := h2.res.trans h1.res
  port := by rw [h1.port, h2.port, List.append_assoc]; rfl
  trace := by
    rw [h2.trace, h1.trace, h1.setup.descr, h1.w]
    simp only [readEvents, ← hlen, List.take_left, List.drop_left, List.take_length, List.append_assoc,
      List.cons_append, List.append_nil]
  buf := by
    obtain ⟨-, -, ⟨-, -, -, -, hsent⟩, -⟩ := id hr
    have hfirst : first.length = s.seq.w * (s.nextChunk / s.seq.m) := hlen.trans (hr.nextChunk_wireLen hlt)
    rw [h2.buf, h1.buf, h1.setup.descr, h1.w, h1.m, h1.sent, List.sum_cons, List.sum_cons, List.sum_nil, Nat.add_zero,
      Nat.add_div_of_dvd_right (hr.nextChunk_dvd hlt), Nat.add_div_of_dvd_right hsent, storeReceived_add,
      List.drop_left' hfirst, storeReceived_append _ _ _ _ _ _ _ _ (Nat.le_of_eq hfirst.symm)]

/-! ### Any number of chunks -/

/-- The chunks still to read (R124). -/
def State.restPlan (s : State) : List Nat := chunkPlan (s.seq.l - s.seq.sent) s.cfg.maxChunk s.seq.m

theorem State.restPlan_of_done (h : s.seq.l ≤ s.seq.sent) : s.restPlan = [] := by
  rw [State.restPlan, Nat.sub_eq_zero_of_le h, chunkPlan_zero]

theorem State.reading.restPlan_of_lt (hr : s.reading) (hlt : s.seq.sent < s.seq.l) :
    s.restPlan = s.nextChunk ::
      chunkPlan (s.seq.l - (s.seq.sent + s.nextChunk)) s.cfg.maxChunk s.seq.m := by
  obtain ⟨-, -, ⟨hm, -, hml, -, hms⟩, -⟩ := hr
  rw [State.restPlan, chunkPlan_of_pos hm s.cfg.eight_le_maxChunk (Nat.dvd_sub hml hms) (by omega), Nat.sub_add_eq]
  rfl

theorem ChunksRead.restPlan (h : ChunksRead s t [s.nextChunk] as bs) :
    t.restPlan = chunkPlan (s.seq.l - (s.seq.sent + s.nextChunk)) s.cfg.maxChunk s.seq.m := by
  rw [State.restPlan, h.setup.l, h.setup.cfg, h.m, h.sent, List.sum_singleton]

theorem State.reading.restPlan_sum_length (hr : s.reading) :
    s.restPlan.sum = s.seq.l - s.seq.sent ∧ s.restPlan.length ≤ s.seq.l - s.seq.sent := by
  obtain ⟨-, -, ⟨hm, -, hml, -, hms⟩, -⟩ := hr
  exact chunkPlan_sum_length hm s.cfg.eight_le_maxChunk (Nat.dvd_sub hml hms)

/-- The READ loop passes over the first `k` chunks to read if their requests are granted and the port gives their bytes
(R193 to R195). -/
theorem readLoop_granted (k fuel : Nat) {s : State} (hr : s.reading) (hst : s.seq.st = .planRx)
    {as rest : List Nat} {bs more : List Byte} (hk : k ≤ s.restPlan.length) (ha : s.port.avails = as ++ rest)
    (hgrant : List.Forall₂ (fun cl a => wireLen s.seq.w cl ≤ a) (s.restPlan.take k) as)
    (hb : s.port.bytes = bs ++ more) (hlen : bs.length = s.seq.w * ((s.restPlan.take k).sum / s.seq.m)) :
    ∃ t, readLoop (k + fuel) s = readLoop fuel t ∧ ChunksRead s t (s.restPlan.take k) as bs := by
  induction k generalizing s as bs with
  | zero =>
    rw [List.take_zero] at hgrant hlen ⊢
    cases hgrant
    rw [List.sum_nil, Nat.zero_div, Nat.mul_zero] at hlen
    rw [List.eq_nil_of_length_eq_zero hlen, Nat.zero_add]
    exact ⟨s, rfl, .refl hr hst⟩
  | succ k ih =>
    have hlt : s.seq.sent < s.seq.l := by
      by_contra hdone
      rw [State.restPlan_of_done (Nat.not_lt.mp hdone)] at hk
      cases hk
    have hplan := hr.restPlan_of_lt hlt
    have hwire := hr.nextChunk_wireLen hlt
    rw [hplan, List.take_succ_cons] at hgrant hlen ⊢
    obtain ⟨a, as, hfirst, hrest, rfl⟩ := List.forall₂_cons_left_iff.mp hgrant
    rw [List.sum_cons, Nat.add_div_of_dvd_right (hr.nextChunk_dvd hlt), Nat.mul_add, ← hwire] at hlen
    have hlen1 : (bs.take (wireLen s.seq.w s.nextChunk)).length = wireLen s.seq.w s.nextChunk :=
      List.length_take_of_le (by omega)
    have hsplit : bs.take (wireLen s.seq.w s.nextChunk) ++ bs.drop (wireLen s.seq.w s.nextChunk) = bs :=
      List.take_append_drop _ _
    rw [← hsplit, List.append_assoc] at hb
    obtain ⟨hpass, h1⟩ := hr.reads_chunk hst hlt ha hb hfirst hlen1
    have hleft := h1.port_left (rest := as ++ rest) ha hb
    rw [← h1.restPlan] at hplan hrest hlen ⊢
    obtain ⟨t, hloop, h2⟩ := ih h1.reading h1.st (as := as) (bs := bs.drop (wireLen s.seq.w s.nextChunk))
      (by rw [hplan, List.length_cons] at hk; omega) (by rw [hleft]) (by rwa [h1.w]) (by rw [hleft])
      (by rw [h1.w, h1.m, List.length_drop]; omega)
    refine ⟨t, ?_, ?_⟩
    · rw [Nat.succ_add, hpass, hloop]
    · rw [← hsplit]
      exact h1.cons hr hlt hlen1 h2

/-- The READ loop with a pass for every byte to go, where every request is granted and the port gives all the bytes: all
is read and the command succeeds (R190). -/
theorem readLoop_succeeds {s : State} (hr : s.reading) (hst : s.seq.st = .planRx) {fuel : Nat}
    (hfuel : s.seq.l - s.seq.sent < fuel) {as rest : List Nat} {bs more : List Byte} (ha : s.port.avails = as ++ rest)
    (hgrant : List.Forall₂ (fun cl a => wireLen s.seq.w cl ≤ a) s.restPlan as) (hb : s.port.bytes = bs ++ more)
    (hlen : bs.length = s.seq.w * ((s.seq.l - s.seq.sent) / s.seq.m)) :
    ∃ t, readLoop fuel s = t.succeed 0 ∧ ChunksRead s t s.restPlan as bs := by
  obtain ⟨hsum, hcount⟩ := hr.restPlan_sum_length
  obtain ⟨spare, rfl⟩ : ∃ n, fuel = s.restPlan.length + (n + 1) := ⟨fuel - s.restPlan.length - 1, by omega⟩
  have hall := List.take_length (l := s.restPlan)
  obtain ⟨t, hloop, hread⟩ := readLoop_granted s.restPlan.length (spare + 1) hr hst (Nat.le_refl _) ha (by rwa [hall])
    hb (by rwa [hall, hsum])
  rw [hall] at hread
  refine ⟨t, ?_, hread⟩
  have hdone : t.seq.l ≤ t.seq.sent := by rw [hread.setup.l, hread.sent, hsum]; omega
  rw [hloop, readLoop_of_done _ hdone]

/-! ### The address-set phase -/

/-- `u` is the block where the data phase of an accepted READ of `l` bytes in elements of `m` begins: the address-set
phase, if there is one, closed with code 0, the port having `cs` left to answer to TxEnd (R192). -/
structure DataPhase (s : State) (ra : RegAddr) (m l : Nat) (cs : List Nat) (u : State) : Prop where
  reading : u.reading
  st : u.seq.st = .planRx
  cfg : u.cfg = s.cfg
  desc : u.desc = s.desc
  m : u.seq.m = m
  l : u.seq.l = l
  sent : u.seq.sent = 0
  errcnt : u.errcnt = s.errcnt
  res : u.res = s.res
  buf : u.buf = s.buf
  port : u.port = { s.port with codes := cs }
  trace : u.trace = s.trace ++ addressSetEvents s.descr ra 0

theorem stepTxClose_of_addressing {cs : List Nat} (ha : s.addressing) (hcodes : s.port.codes = 0 :: cs) :
    stepTxClose s = (s.tookCode 0 cs).toData := by
  obtain ⟨-, hp, -, hk, -⟩ := ha
  simp only [stepTxClose, hcodes, hp, afterClose, State.tookCode_seq, hk, if_true, Bool.false_eq_true, if_false]

theorem chunkAddr_zero (ra : RegAddr) : chunkAddr ra 0 = ra := BitVec.ofNat_toNat 16 ra

/-- The address-set phase hands over the register address and no payload (R192). -/
theorem State.addressing.fillTx_trace (ha : s.addressing) :
    (fillTx s).trace = s.trace ++ (.txBegin s.descr.busaddr :: (addrPhase s.descr s.seq.ra).map .txWrite) := by
  obtain ⟨-, -, -, -, -, hsent, hcl, -⟩ := ha
  rw [Sys2Proof.Machine.fillTx_trace, State.addrBytes, State.chunkPayload, hsent, hcl, chunkAddr_zero, Nat.zero_div,
    List.range_zero, List.flatMap_nil, List.append_nil]

/-- An accepted READ whose address-set phase (if it has one) is closed with code 0 goes on to its data phase (R192). -/
theorem runRead_enters_data {e : BitVec 4} (ra : RegAddr) {c : BitVec 16} {m l : Nat} {cs : List Nat}
    (hd : s.desc ≠ none) (hz : transferSize s.cfg e c = some (m, l))
    (hcodes : s.port.codes = if s.descr.regw = .none then cs else 0 :: cs) :
    ∃ u, runRead (acceptRead s ra m l) = readLoop (l + 1) u ∧ DataPhase s ra m l cs u := by
  have hbegin := acceptRead_begins (ra := ra) hd hz
  by_cases hrw : s.descr.regw = .none
  · rw [if_pos hrw] at hcodes
    rw [acceptRead_of_none hrw] at hbegin ⊢
    obtain ⟨hst, -⟩ | ⟨hst, hr⟩ := hbegin
    · cases hst
    · have hevents : addressSetEvents s.descr ra 0 = [] := if_pos hrw
      refine ⟨_, runRead_of_planRx hst, hr, hst, rfl, rfl, rfl, rfl, rfl, rfl, rfl, rfl, ?_, ?_⟩
      · rw [← hcodes]; rfl
      · rw [hevents, List.append_nil]; rfl
  · rw [if_neg hrw] at hcodes
    rw [acceptRead_of_addressed hrw] at hbegin ⊢
    obtain ⟨hst, ha⟩ | ⟨hst, -⟩ := hbegin
    · have hclose : stepTxClose (fillTx (acceptReadAddressed s ra m l)) =
          ((fillTx (acceptReadAddressed s ra m l)).tookCode 0 cs).toData := stepTxClose_of_addressing ha hcodes
      have hevents : addressSetEvents s.descr ra 0 = txEvents s.descr ra [] (!s.descr.nostop.bit) 0 := if_neg hrw
      have hreading : ((fillTx (acceptReadAddressed s ra m l)).tookCode 0 cs).toData.reading := by
        obtain ⟨hd, hp, hz, -, hw, -⟩ := ha
        exact ⟨hd, hp, hz, rfl, hw⟩
      refine ⟨_, (runRead_of_txOpen hst).trans ?_, hreading, rfl, rfl, rfl, rfl, rfl, rfl, rfl, rfl, rfl, rfl, ?_⟩
      · rw [hclose]; rfl
      · rw [State.toData_trace, State.tookCode_trace, ha.fillTx_trace, hevents, txEvents, List.append_nil,
          List.append_assoc]
        rfl
    · cases hst

end

end Sys2Proof.Machine
end

section
/-! SUPPORT. A READ that is granted all it asks for (R190 to R196). -/

namespace Sys2Proof.Machine

section
variable {s t : State} {d : Descriptor}

/-- The sizes of a transfer within BUF (R120, R122). -/
theorem transferSize_of_fits {p : Params} {e : BitVec 4} {c : BitVec 16} {m : Nat} (he : effSize e = some m)
    (hl : m * c.toNat ≤ p.bufBytes) : transferSize p e c = some (m, m * c.toNat) := by
  simp only [transferSize, he, if_neg (Nat.not_lt.mpr hl)]

/-- The answer of READ in IDLE with a descriptor and legal operands (R190). -/
theorem exec_read_of_legal {e : BitVec 4} {ra : RegAddr} {c : BitVec 16} {m l : Nat} (hst : s.seq.st = .idle)
    (hs : s.desc = some d) (hz : transferSize s.cfg e c = some (m, l)) :
    exec (.read e ra c) s = .next (runRead (acceptRead s ra m l)) := by
  simp only [exec, execRead, whenIdle_of_idle hst, hs, hz]

/-- An element of which BUF holds the bytes of a value that fits it is that value (R51, R53). -/
theorem bufElem_of_value {i m v : Nat} (hv : v < 256 ^ m)
    (h : ∀ k < m, bufGet t.buf (i * m + k) = some (BitVec.ofNat 8 (v / 2 ^ (8 * k)))) : t.bufElem i m = v := by
  rw [bufElem_of_bytes t (bytesLE_length m v), ofBytesLE_bytesLE, Nat.mod_eq_of_lt hv]
  intro k hk
  rw [h k (by rwa [bytesLE_length] at hk), bytesLE_getElem]

theorem wireWidth_mul_count (m n : Nat) (wd : WideMode) : wireWidth m wd * (m * n / m) = wireWidth m wd * n := by
  rcases Nat.eq_zero_or_pos m with rfl | hm
  · have hw : wireWidth 0 wd = 0 := if_neg (by omega)
    rw [hw, Nat.zero_mul, Nat.zero_mul]
  · rw [Nat.mul_div_cancel_left n hm]

/-- What BUF holds once all `n` elements of a READ are stored (R51, R53, R190). -/
theorem elements_of_stored {m n w i : Nat} {bs : List Byte} {buf : List Host.Cell} (hm : legalSize m)
    (hw : w = wireWidth m d.wide) (ht : t.buf = storeReceived d m w (m * n / m) 0 bs buf) (hlen : bs.length = w * n)
    (hi : i < n) :
    let v := receivedValue w d ((bs.drop (w * i)).take w)
    t.bufElem i m = v ∧ ∀ k < m, bufGet t.buf (i * m + k) = some (BitVec.ofNat 8 (v / 2 ^ (8 * k))) := by
  intro v
  have hbytes : ∀ k < m, bufGet t.buf (i * m + k) = some (BitVec.ofNat 8 (v / 2 ^ (8 * k))) := by
    intro k hk
    have hstored := bufGet_storeReceived d (w := w) (j := 0) bs buf hi hk
    rwa [Nat.zero_add, ← Nat.mul_div_cancel_left n (show 0 < m by omega), ← ht] at hstored
  have hend : w * i + w ≤ bs.length := by
    rw [hlen, ← Nat.mul_succ]
    exact Nat.mul_le_mul_left w hi
  have hgroup : ((bs.drop (w * i)).take w).length = w :=
    List.length_take_of_le (by rw [List.length_drop]; omega)
  have hfits : v < 256 ^ m := by
    subst hw
    exact receivedValue_lt d hm hgroup
  exact ⟨bufElem_of_value hfits hbytes, hbytes⟩

end

/-- Settles O41: the data phase begins after the address-set phase, the READ loop reads every chunk of the plan, and the
elements lie in BUF as they were received. -/
theorem readSucceeds : Obligations.ReadSucceeds := by
  intro s d e ra c m cs as rest bs more hst hs he hfits w plan hcodes ha hgrant hb hlen
  have hz := transferSize_of_fits he hfits
  have hdescr : s.descr = d := State.descr_of_desc hs
  obtain ⟨u, hrun, hu⟩ := runRead_enters_data ra (hs ▸ Option.some_ne_none d) hz (by rw [hcodes, hdescr])
  have hudescr : u.descr = d := State.descr_of_desc (hu.desc.trans hs)
  have hw : u.seq.w = w := by
    obtain ⟨-, -, -, -, hw⟩ := hu.reading
    rw [hw, hu.m, hudescr]
  have hplan : u.restPlan = plan := by rw [State.restPlan, hu.l, hu.sent, hu.cfg, hu.m, Nat.sub_zero]
  have hua : u.port.avails = as ++ rest := by rw [hu.port, ← ha]
  have hub : u.port.bytes = bs ++ more := by rw [hu.port, ← hb]
  obtain ⟨t, hloop, ht⟩ := readLoop_succeeds hu.reading hu.st (fuel := m * c.toNat + 1) (by rw [hu.l]; omega) hua
    (by rwa [hplan, hw]) hub (by rw [hu.l, hu.sent, hu.m, Nat.sub_zero, hw, wireWidth_mul_count, hlen])
  obtain ⟨hsum, -⟩ := hu.reading.restPlan_sum_length
  rw [hu.l, hu.sent, Nat.sub_zero] at hsum
  have hexec : exec (.read e ra c) s = .next (t.succeed 0) := by rw [exec_read_of_legal hst hs hz, hrun, hloop]
  have hbuf : (t.succeed 0).buf = storeReceived d m w (m * c.toNat / m) 0 bs s.buf := by
    rw [State.succeed_buf, ht.buf, hudescr, hsum, hu.m, hw, hu.sent, hu.buf, Nat.zero_div]
  obtain ⟨habove, hdesc, hcfg, hhost, hdraws⟩ := readFrame _ _ _ _ _ hexec
  obtain ⟨-, hprobe, -⟩ := ht.reading
  refine ⟨_, hexec, fun i hi => elements_of_stored (effSize_legal he) rfl hbuf hlen hi, fun a hal => habove a ?_, ?_,
    rfl, rfl, hprobe, ?_, ht.errcnt.trans hu.errcnt, ?_, hdraws, hcfg, hdesc, hhost⟩
  · rintro m' he'
    rwa [← Option.some.inj (he.symm.trans he')]
  · rw [State.succeed_trace, ht.trace, hu.trace, hudescr, hdescr, hplan, hw, List.append_assoc]
  · exact ht.sent.trans (by rw [hu.sent, hsum, Nat.zero_add])
  · rw [State.succeed_port, ht.port_left hua hub, hu.port]

end Sys2Proof.Machine
end

section
/-! SUPPORT. The command words read field by field (R81 to R84): which word is the word of a command, and what the
decoder takes a word for (R85, R91 a and b, R94). -/

namespace Sys2Proof

/-! ### The word of a command -/

/-- A run of bits is `x` above `y` exactly when its upper part is `x` and its lower part is `y`. -/
theorem extractLsb'_eq_append_iff {k m n : Nat} (w : BitVec k) (start : Nat) (x : BitVec m) (y : BitVec n) :
    w.extractLsb' start (m + n) = x ++ y ↔ w.extractLsb' (start + n) m = x ∧ w.extractLsb' start n = y := by
  rw [← BitVec.extractLsb'_append_extractLsb'_eq_extractLsb' (x := w) (rfl : start + n = start + n)]
  constructor
  · intro h
    have hupper := congrArg (BitVec.extractLsb' n m) h
    have hlower := congrArg (BitVec.extractLsb' 0 n) h
    simp only [BitVec.extractLsb'_append_eq_left, BitVec.extractLsb'_append_eq_right] at hupper hlower
    exact ⟨hupper, hlower⟩
  · rintro ⟨rfl, rfl⟩
    rfl

section
variable (w : CommandWord)

/-- Format X: the fields of R81, Z1, Z2 and `ARG[31:16]` being zero (R82). -/
theorem eq_encodeX_iff (op : BitVec 4) (ns : Bool) (e : BitVec 4) (ra : RegAddr) (c : BitVec 16) :
    w = encodeX op ns e ra c ↔
      opField w = op ∧ nsField w = BitVec.ofBool ns ∧ z1Field w = 0 ∧ esizeField w = e ∧ z2Field w = 0 ∧
        regaddrField w = ra ∧ argHighField w = 0 ∧ countField w = c := by
  have hword : w.extractLsb' 0 (4 + 1 + 3 + 4 + 4 + 16 + 16 + 16) = w := BitVec.extractLsb'_eq_self
  have hparts := extractLsb'_eq_append_iff w 0 (op ++ BitVec.ofBool ns ++ 0#3 ++ e ++ 0#4 ++ ra ++ 0#16) c
  rw [hword] at hparts
  iterate 6 rw [extractLsb'_eq_append_iff] at hparts
  simp only [and_assoc] at hparts
  exact hparts

/-- Format C: `CW[59:32]` is zero (R83). -/
theorem eq_encode_configure_iff (f : Word32) :
    w = encode (.configure f) ↔ opField w = 1 ∧ w.extractLsb' 32 28 = 0 ∧ argField w = f := by
  have hword : w.extractLsb' 0 (4 + 28 + 32) = w := BitVec.extractLsb'_eq_self
  have hparts := extractLsb'_eq_append_iff w 0 (1#4 ++ 0#28) f
  rw [hword, extractLsb'_eq_append_iff, and_assoc] at hparts
  exact hparts

/-- Format N: every bit below OP is zero (R84). -/
theorem eq_encodeN_iff (op : BitVec 4) : w = encodeN op ↔ opField w = op ∧ w.extractLsb' 0 60 = 0 := by
  have hword : w.extractLsb' 0 (4 + 60) = w := BitVec.extractLsb'_eq_self
  have hparts := extractLsb'_eq_append_iff w 0 op 0#60
  rwa [hword] at hparts

end

/-! ### What each format answers -/

section
variable {w : CommandWord} {i j : Instr}

theorem decodeFormatC_eq_legal_iff :
    decodeFormatC w = .legal i ↔ w.extractLsb' 32 28 = 0 ∧ .configure (argField w) = i := by
  unfold decodeFormatC
  split <;> simp_all

theorem decodeFormatN_eq_legal_iff : decodeFormatN w i = .legal j ↔ w.extractLsb' 0 60 = 0 ∧ i = j := by
  unfold decodeFormatN
  split <;> simp_all

theorem decodeFormatX_eq_legal_iff :
    decodeFormatX w i = .legal j ↔ (z1Field w = 0 ∧ z2Field w = 0 ∧ argHighField w = 0) ∧ i = j := by
  unfold decodeFormatX
  split
  · simp_all
  · split
    · simp_all
    · split <;> simp_all

theorem decodeFormatN_encodeN (op : BitVec 4) (i : Instr) : decodeFormatN (encodeN op) i = .legal i := by
  obtain ⟨-, hzero⟩ := (eq_encodeN_iff _ op).mp rfl
  exact decodeFormatN_eq_legal_iff.mpr ⟨hzero, rfl⟩

theorem encode_of_decodeFormatN {op : BitVec 4} (hi : encode i = encodeN op) (hop : opField w = op)
    (h : decodeFormatN w i = .legal j) : encode j = w := by
  obtain ⟨hzero, rfl⟩ := decodeFormatN_eq_legal_iff.mp h
  rw [hi, (eq_encodeN_iff w op).mpr ⟨hop, hzero⟩]

end

/-! ### The decoder by opcode -/

/-- An opcode is reserved or that of one of the seven commands (R85, R92). -/
theorem opcode_cases :
    ∀ op : BitVec 4, (op = 0 ∨ 8 ≤ op.toNat) ∨ op = 1 ∨ op = 2 ∨ op = 3 ∨ op = 4 ∨ op = 5 ∨ op = 6 ∨ op = 7 := by
  decide

section
variable {w : CommandWord}

theorem decode_of_reserved_op (h : opField w = 0 ∨ 8 ≤ (opField w).toNat) :
    decode w = .illegal (.reservedOpcode (opField w)) := by
  have hne : ∀ op : BitVec 4, op = 0 ∨ 8 ≤ op.toNat →
      op ≠ 1 ∧ op ≠ 2 ∧ op ≠ 3 ∧ op ≠ 4 ∧ op ≠ 5 ∧ op ≠ 6 ∧ op ≠ 7 := by decide
  obtain ⟨h1, h2, h3, h4, h5, h6, h7⟩ := hne _ h
  rw [decode, if_neg h1, if_neg h2, if_neg h3, if_neg h4, if_neg h5, if_neg h6, if_neg h7]

theorem decode_of_configure_op (h : opField w = 1) : decode w = decodeFormatC w := by simp [decode, h]

theorem decode_of_release_op (h : opField w = 2) : decode w = decodeFormatN w .release := by simp [decode, h]

theorem decode_of_write_op (h : opField w = 3) :
    decode w = decodeFormatX w (.write (nsField w == 1) (esizeField w) (regaddrField w) (countField w)) := by
  simp [decode, h]

theorem decode_of_read_op (h : opField w = 4) (hns : nsField w = 0) :
    decode w = decodeFormatX w (.read (esizeField w) (regaddrField w) (countField w)) := by
  simp [decode, h, hns]

/-- READ has no NS (R82, D27). -/
theorem decode_of_read_op_ns (h : opField w = 4) (hns : nsField w ≠ 0) :
    decode w = .illegal (.reservedField (opField w) .ns) := by
  simp_all [decode]

theorem decode_of_exists_op (h : opField w = 5) : decode w = decodeFormatN w .probe := by simp [decode, h]

theorem decode_of_errcount_op (h : opField w = 6) : decode w = decodeFormatN w .errcount := by simp [decode, h]

theorem decode_of_clrerr_op (h : opField w = 7) : decode w = decodeFormatN w .clrerr := by simp [decode, h]

end

/-! ### Decoder and encoder -/

/-- NS is one bit (R89). -/
theorem ofBool_eq_iff_eq_beq_one : ∀ (b : BitVec 1) (ns : Bool), b = BitVec.ofBool ns ↔ (b == 1) = ns := by decide

/-- The decoder takes the word of a command for that command (R81 to R85). -/
theorem decode_encode (i : Instr) : decode (encode i) = .legal i := by
  cases i with
  | configure f =>
    obtain ⟨hop, hzero, harg⟩ := (eq_encode_configure_iff _ f).mp rfl
    rw [decode_of_configure_op hop, decodeFormatC_eq_legal_iff, harg]
    exact ⟨hzero, rfl⟩
  | write ns e ra c =>
    obtain ⟨hop, hns, hz1, hesize, hz2, hregaddr, hhigh, hcount⟩ := (eq_encodeX_iff _ 3 ns e ra c).mp rfl
    rw [encode, decode_of_write_op hop, decodeFormatX_eq_legal_iff, (ofBool_eq_iff_eq_beq_one _ ns).mp hns, hesize,
      hregaddr, hcount]
    exact ⟨⟨hz1, hz2, hhigh⟩, rfl⟩
  | read e ra c =>
    obtain ⟨hop, hns, hz1, hesize, hz2, hregaddr, hhigh, hcount⟩ := (eq_encodeX_iff _ 4 false e ra c).mp rfl
    rw [encode, decode_of_read_op hop hns, decodeFormatX_eq_legal_iff, hesize, hregaddr, hcount]
    exact ⟨⟨hz1, hz2, hhigh⟩, rfl⟩
  | release => exact (decode_of_release_op Laws.OpcodeNibble.release).trans (decodeFormatN_encodeN 2 _)
  | probe => exact (decode_of_exists_op Laws.OpcodeNibble.probe).trans (decodeFormatN_encodeN 5 _)
  | errcount => exact (decode_of_errcount_op Laws.OpcodeNibble.errcount).trans (decodeFormatN_encodeN 6 _)
  | clrerr => exact (decode_of_clrerr_op Laws.OpcodeNibble.clrerr).trans (decodeFormatN_encodeN 7 _)

/-- A word the decoder takes for a command is the word of that command: every bit no operand holds is checked (R91 a
and b). -/
theorem encode_of_decode {w : CommandWord} {i : Instr} (h : decode w = .legal i) : encode i = w := by
  rcases opcode_cases (opField w) with hop | hop | hop | hop | hop | hop | hop | hop
  · rw [decode_of_reserved_op hop] at h
    cases h
  · rw [decode_of_configure_op hop] at h
    obtain ⟨hzero, rfl⟩ := decodeFormatC_eq_legal_iff.mp h
    exact ((eq_encode_configure_iff w _).mpr ⟨hop, hzero, rfl⟩).symm
  · exact encode_of_decodeFormatN rfl hop (decode_of_release_op hop ▸ h)
  · rw [decode_of_write_op hop] at h
    obtain ⟨⟨hz1, hz2, hhigh⟩, rfl⟩ := decodeFormatX_eq_legal_iff.mp h
    have hns := (ofBool_eq_iff_eq_beq_one (nsField w) _).mpr rfl
    exact ((eq_encodeX_iff w 3 _ _ _ _).mpr ⟨hop, hns, hz1, rfl, hz2, rfl, hhigh, rfl⟩).symm
  · by_cases hns : nsField w = 0
    · rw [decode_of_read_op hop hns] at h
      obtain ⟨⟨hz1, hz2, hhigh⟩, rfl⟩ := decodeFormatX_eq_legal_iff.mp h
      exact ((eq_encodeX_iff w 4 false _ _ _).mpr ⟨hop, hns, hz1, rfl, hz2, rfl, hhigh, rfl⟩).symm
    · rw [decode_of_read_op_ns hop hns] at h
      cases h
  · exact encode_of_decodeFormatN rfl hop (decode_of_exists_op hop ▸ h)
  · exact encode_of_decodeFormatN rfl hop (decode_of_errcount_op hop ▸ h)
  · exact encode_of_decodeFormatN rfl hop (decode_of_clrerr_op hop ▸ h)

theorem decode_eq_legal_iff (w : CommandWord) (i : Instr) : decode w = .legal i ↔ w = encode i :=
  ⟨fun h => (encode_of_decode h).symm, fun h => h ▸ decode_encode i⟩

/-- Settles O1: by the fields of the command's word, format by format. -/
theorem decodeOfEncode : Obligations.DecodeOfEncode := decode_encode

/-- Settles O2: by the opcode of the word; each format leaves no bit unchecked. -/
theorem encodeOfDecode : Obligations.EncodeOfDecode := fun _ _ h => encode_of_decode h

/-! ### Match and mask -/

section
variable {k start len : Nat} (w mask : BitVec k)

/-- A field the mask covers is compared. -/
theorem extractLsb'_and_of_ones (h : mask.extractLsb' start len = BitVec.allOnes len) :
    (w &&& mask).extractLsb' start len = w.extractLsb' start len := by
  rw [BitVec.extractLsb'_and, h, BitVec.and_allOnes]

/-- A field the mask leaves out is not. -/
theorem extractLsb'_and_of_zero (h : mask.extractLsb' start len = 0#len) :
    (w &&& mask).extractLsb' start len = 0#len := by
  rw [BitVec.extractLsb'_and, h, BitVec.and_zero]

end

section
variable (w : CommandWord)

theorem configure_mask_iff :
    w &&& 0xFFFFFFFF00000000#64 = 0x1000000000000000#64 ↔ opField w = 1 ∧ w.extractLsb' 32 28 = 0 := by
  have hmatch : 0x1000000000000000#64 = encode (.configure 0) := by decide
  rw [hmatch, eq_encode_configure_iff, opField, argField, extractLsb'_and_of_ones _ _ (by decide),
    extractLsb'_and_of_ones _ _ (by decide), extractLsb'_and_of_zero _ _ (by decide)]
  simp [opField]

theorem write_mask_iff :
    w &&& 0xF70F0000FFFF0000#64 = 0x3000000000000000#64 ↔
      opField w = 3 ∧ z1Field w = 0 ∧ z2Field w = 0 ∧ argHighField w = 0 := by
  have hmatch : 0x3000000000000000#64 = encodeX 3 false 0 0 0 := by decide
  rw [hmatch, eq_encodeX_iff]
  simp (disch := decide) [opField, nsField, z1Field, esizeField, z2Field, regaddrField, argHighField, countField,
    extractLsb'_and_of_ones, extractLsb'_and_of_zero]

theorem read_mask_iff :
    w &&& 0xFF0F0000FFFF0000#64 = 0x4000000000000000#64 ↔
      opField w = 4 ∧ nsField w = 0 ∧ z1Field w = 0 ∧ z2Field w = 0 ∧ argHighField w = 0 := by
  have hmatch : 0x4000000000000000#64 = encodeX 4 false 0 0 0 := by decide
  rw [hmatch, eq_encodeX_iff]
  simp (disch := decide) [opField, nsField, z1Field, esizeField, z2Field, regaddrField, argHighField, countField,
    extractLsb'_and_of_ones, extractLsb'_and_of_zero]

/-- The mask of format N leaves out no bit. -/
theorem formatN_mask_iff {i : Instr} {m : CommandWord} (hm : encode i = m) :
    w &&& 0xFFFFFFFFFFFFFFFF#64 = m ↔ decode w = .legal i := by
  have hmask : w &&& 0xFFFFFFFFFFFFFFFF#64 = w := BitVec.and_allOnes
  rw [hmask, decode_eq_legal_iff, hm]

end

/-- Settles O3: a word agrees with a match under its mask exactly when the fields the mask covers are those of the
match, which is what the decoder checks. -/
theorem opcodeMapMatchAndMask : Obligations.OpcodeMapMatchAndMask := by
  refine ⟨fun w => ?_, fun w => formatN_mask_iff w rfl, fun w => ?_, fun w => ?_, fun w => formatN_mask_iff w rfl,
    fun w => formatN_mask_iff w rfl, fun w => formatN_mask_iff w rfl, fun w => decode_of_reserved_op,
    decode_of_reserved_op (.inl rfl)⟩
  · rw [configure_mask_iff, decode_eq_legal_iff, eq_encode_configure_iff]
    simp
  · rw [write_mask_iff, decode_eq_legal_iff, encode, eq_encodeX_iff, ofBool_eq_iff_eq_beq_one]
    simp
  · rw [read_mask_iff, decode_eq_legal_iff, encode, eq_encodeX_iff]
    simp

/-! ### The illegal words -/

section
variable {w : CommandWord} {i : Instr}

/-- What is a command exactly when its must-be-zero fields are zero is illegal exactly when they are not. -/
theorem Decoded.illegal_iff_not {d : Decoded} {zero : Prop} (h : ∀ j, d = .legal j ↔ zero ∧ i = j) :
    (∃ why, d = .illegal why) ↔ ¬ zero := by
  cases d with
  | legal j => simp [((h j).mp rfl).1]
  | illegal why => simp [show ¬ zero from fun hz => nomatch (h i).mpr ⟨hz, rfl⟩]

theorem decodeFormatC_illegal_iff : (∃ why, decodeFormatC w = .illegal why) ↔ w.extractLsb' 32 28 ≠ 0 :=
  Decoded.illegal_iff_not fun _ => decodeFormatC_eq_legal_iff

theorem decodeFormatN_illegal_iff : (∃ why, decodeFormatN w i = .illegal why) ↔ w.extractLsb' 0 60 ≠ 0 :=
  Decoded.illegal_iff_not fun _ => decodeFormatN_eq_legal_iff

theorem decodeFormatX_illegal_iff :
    (∃ why, decodeFormatX w i = .illegal why) ↔ z1Field w ≠ 0 ∨ z2Field w ≠ 0 ∨ argHighField w ≠ 0 := by
  rw [Decoded.illegal_iff_not fun _ => decodeFormatX_eq_legal_iff, not_and_or, not_and_or]

end

/-- Settles O4: by the opcode of the word. -/
theorem illegalWordsAreExactlyThese : Obligations.IllegalWordsAreExactlyThese := by
  intro w
  rcases opcode_cases (opField w) with hop | hop | hop | hop | hop | hop | hop | hop
  · exact iff_of_true ⟨_, decode_of_reserved_op hop⟩ (.inl hop)
  · rw [decode_of_configure_op hop, decodeFormatC_illegal_iff]
    simp [hop]
  · rw [decode_of_release_op hop, decodeFormatN_illegal_iff]
    simp [hop]
  · rw [decode_of_write_op hop, decodeFormatX_illegal_iff]
    simp [hop]
  · by_cases hns : nsField w = 0
    · rw [decode_of_read_op hop hns, decodeFormatX_illegal_iff]
      simp [hop, hns]
    · exact iff_of_true ⟨_, decode_of_read_op_ns hop hns⟩ (.inr (.inr (.inl ⟨hop, hns⟩)))
  · rw [decode_of_exists_op hop, decodeFormatN_illegal_iff]
    simp [hop]
  · rw [decode_of_errcount_op hop, decodeFormatN_illegal_iff]
    simp [hop]
  · rw [decode_of_clrerr_op hop, decodeFormatN_illegal_iff]
    simp [hop]

/-! ### Words and lines written out -/

/-- Settles O5: the decoder evaluated on each word. -/
theorem writtenWordsDecode : Obligations.WrittenWordsDecode := by
  unfold Obligations.WrittenWordsDecode
  decide

/-- Settles O60: the assembler evaluated on each line. -/
theorem assembledLines : Obligations.AssembledLines := by
  unfold Obligations.AssembledLines
  decide

end Sys2Proof
end

section
/-! SUPPORT. What is answered with BAD_COMMAND: an illegal word and an illegal operand (R91, R245, R252). -/

namespace Sys2Proof.Machine

section
variable {s : State} {rest : List HostMove} {d : Descriptor}

/-- A command that fails in IDLE writes RES alone (R10, R253). -/
theorem State.fail_of_idle (hst : s.seq.st = .idle) (c : Cause) : s.fail c = { s with res := Result.failure c } := by
  apply State.ext
  case seq => exact Latches.ext hst.symm rfl rfl rfl rfl rfl rfl rfl rfl rfl rfl rfl
  all_goals rfl

theorem step_of_illegal {cw : CommandWord} {why : IllegalWord} (hst : s.seq.st = .idle)
    (hh : s.host = .command cw :: rest) (hdec : decode cw = .illegal why) :
    Sys2Proof.Machine.step s = .next (illegalCommand { s with host := rest }) := by
  have hmove : hostMove s = .other (.next (illegalCommand { s with host := rest })) := by
    simp only [hostMove, hh, hdec]
  rw [Sys2Proof.Machine.step, fetch_of_idle hst, hmove]

/-! ### The operand checks -/

/-- A DFLAGS that is not legal stands for no descriptor (R90, R91 e). -/
theorem Descriptor.ofFlags_of_illegal {f : Word32} (hf : legalDflags f = false) : Descriptor.ofFlags f = none := by
  cases hd : Descriptor.ofFlags f with
  | none => rfl
  | some d => cases (legalDflags_of_ofFlags hd).symm.trans hf

/-- An ESIZE with an effective size is legal, and `M` is 4 for ESIZE 3 (R86, R91 c, R120). -/
theorem legalEsize_of_effSize {e : BitVec 4} {m : Nat} (h : effSize e = some m) :
    legalEsize e = true ∧ (if e == 3 then 4 else e.toNat) = m := by
  have hall : ∀ e : BitVec 4, ∀ m ∈ effSize e, legalEsize e = true ∧ (if e == 3 then 4 else e.toNat) = m := by decide
  exact hall e m h

/-- A transfer with an illegal ESIZE, or longer than BUF, has no sizes (R91 c and d, R252). -/
theorem transferSize_of_illegal {p : Params} {e : BitVec 4} {c : BitVec 16}
    (h : (legalEsize e && fitsBuf p e c) = false) : transferSize p e c = none := by
  cases hz : transferSize p e c with
  | none => rfl
  | some size =>
    obtain ⟨m, l⟩ := size
    obtain ⟨he, rfl, hl⟩ := transferSize_eq_some hz
    obtain ⟨hlegal, hm⟩ := legalEsize_of_effSize he
    have hfits : fitsBuf p e c = true := by rw [fitsBuf, hm]; exact decide_eq_true hl
    rw [hlegal, hfits] at h
    cases h

theorem exec_configure_of_illegal {f : Word32} (hst : s.seq.st = .idle) (hf : Descriptor.ofFlags f = none) :
    exec (.configure f) s = .next (s.fail .badCommand) := by
  simp only [exec, execConfigure, whenIdle_of_idle hst, hf]

theorem exec_read_of_illegal {e : BitVec 4} {ra : RegAddr} {c : BitVec 16} (hst : s.seq.st = .idle)
    (hs : s.desc = some d) (hz : transferSize s.cfg e c = none) :
    exec (.read e ra c) s = .next (s.fail .badCommand) := by
  simp only [exec, execRead, whenIdle_of_idle hst, hs, hz]

/-- A command with an illegal operand fails with BAD_COMMAND; a WRITE and a READ come to that check only on an
initialized block (R91, R252). -/
theorem exec_of_illegal_operand {i : Instr} (hst : s.seq.st = .idle) (hi : i.wellFormed s.cfg = false)
    (hinit : s.desc ≠ none ∨ ∃ f, i = .configure f) : exec i s = .next (s.fail .badCommand) := by
  cases i with
  | configure f => exact exec_configure_of_illegal hst (Descriptor.ofFlags_of_illegal hi)
  | write ns e ra c =>
    obtain ⟨d, hd⟩ := Option.ne_none_iff_exists'.mp (hinit.resolve_right nofun)
    exact exec_write_of_illegal hst hd (transferSize_of_illegal hi)
  | read e ra c =>
    obtain ⟨d, hd⟩ := Option.ne_none_iff_exists'.mp (hinit.resolve_right nofun)
    exact exec_read_of_illegal hst hd (transferSize_of_illegal hi)
  | release | probe | errcount | clrerr => cases hi

end

/-- Settles O7: the illegal word is taken, and the failure writes RES alone. -/
theorem illegalWordAnsweredBadCommand : Obligations.IllegalWordAnsweredBadCommand := by
  intro s cw rest why hst hh hdec
  rw [step_of_illegal hst hh hdec, illegalCommand, State.fail_of_idle (s := { s with host := rest }) hst]
  rfl

/-- Settles O34: the command fails at its operand check, and the failure writes RES alone. -/
theorem illegalOperandAnsweredBadCommand : Obligations.IllegalOperandAnsweredBadCommand := by
  intro i s hst hi hinit
  rw [exec_of_illegal_operand hst hi hinit, State.fail_of_idle hst]
  rfl

end Sys2Proof.Machine
end

section
/-! SUPPORT. WRITE chunk by chunk (R139, R173): what a run of chunks closed with code 0 does to the state, for any number
of them. -/

namespace Sys2Proof.Machine

/-! ### The plan of a WRITE and its events -/

/-- There are no more chunks than bytes, but one where there are no bytes (R124, R172). -/
theorem writePlan_length_le {l c m : Nat} (hm : legalSize m) (hc : 8 ≤ c) (hd : m ∣ l) :
    (writePlan l c m).length ≤ l + 1 := by
  unfold writePlan
  split
  · simp
  · obtain ⟨-, hlen⟩ := chunkPlan_sum_length hm hc hd
    exact hlen.trans (Nat.le_succ l)

/-- The payload is read from BUF alone, an unwritten byte at the count of draws (R100, assumption 3). -/
theorem writeEvents_congr {s t : State} (hbuf : t.buf = s.buf) (hdraws : t.draws = s.draws) (d : Descriptor)
    (ra : RegAddr) (m : Nat) (stop : Bool) (sent : Nat) (plan codes : List Nat) :
    writeEvents t d ra m stop sent plan codes = writeEvents s d ra m stop sent plan codes := by
  have helement : t.bufElem = s.bufElem := by
    funext j m
    simp only [State.bufElem, State.bufByte, hbuf, hdraws]
  have hbytes : elementBytes t = elementBytes s := by
    funext o m j n
    simp only [elementBytes, helement]
  induction plan generalizing sent codes with
  | nil => rfl
  | cons cl plan ih =>
    cases codes with
    | nil => rfl
    | cons code codes => rw [writeEvents, writeEvents, hbytes, ih]

/-- The chunks of two plans, one after the other (R139). -/
theorem writeEvents_append (s : State) (d : Descriptor) (ra : RegAddr) (m : Nat) (stop : Bool) (sent : Nat)
    {plan codes : List Nat} (plan' codes' : List Nat) (h : plan.length = codes.length) :
    writeEvents s d ra m stop sent (plan ++ plan') (codes ++ codes') =
      writeEvents s d ra m stop sent plan codes ++ writeEvents s d ra m stop (sent + plan.sum) plan' codes' := by
  induction plan generalizing sent codes with
  | nil =>
    obtain rfl := List.length_eq_zero_iff.mp h.symm
    rfl
  | cons cl plan ih =>
    cases codes with
    | nil => cases h
    | cons code codes =>
      simp only [List.cons_append, writeEvents, ih _ (Nat.succ.inj h), List.append_assoc, List.sum_cons, Nat.add_assoc]

section
variable {s t u : State} {plan : List Nat}

/-- The write transactions of a plan as the block at PLAN_TX sends them (R100, R139). -/
def State.planEvents (s : State) (plan codes : List Nat) : List Event :=
  writeEvents s s.descr s.seq.ra s.seq.m s.seq.stopf s.seq.sent plan codes

/-- From `s` to `t`, both at PLAN_TX of one WRITE, the chunks of `plan` have been sent and closed with code 0 (R139). -/
structure ChunksWritten (s t : State) (plan : List Nat) : Prop where
  writing : t.writing
  st : t.seq.st = .planTx
  setup : SameSetup s t
  readPath : KeepsReadPath s t
  m : t.seq.m = s.seq.m
  ra : t.seq.ra = s.seq.ra
  stopf : t.seq.stopf = s.seq.stopf
  sent : t.seq.sent = s.seq.sent + plan.sum
  errcnt : t.errcnt = s.errcnt
  codes : s.port.codes = List.replicate plan.length 0 ++ t.port.codes
  trace : t.trace = s.trace ++ s.planEvents plan (List.replicate plan.length 0)

theorem ChunksWritten.refl (hw : s.writing) (hst : s.seq.st = .planTx) : ChunksWritten s s [] where
  writing := hw
  st := hst
  setup := .refl s
  readPath := .refl s
  m := rfl
  ra := rfl
  stopf := rfl
  sent := rfl
  errcnt := rfl
  codes := rfl
  trace := (List.append_nil _).symm

/-- The events of the chunks sent, and then of those to come. -/
theorem ChunksWritten.planEvents_append (h : ChunksWritten s t plan) (plan' codes' : List Nat) :
    s.planEvents (plan ++ plan') (List.replicate plan.length 0 ++ codes') =
      s.planEvents plan (List.replicate plan.length 0) ++ t.planEvents plan' codes' := by
  rw [State.planEvents, State.planEvents, State.planEvents, writeEvents_append _ _ _ _ _ _ _ _ (by simp),
    writeEvents_congr h.readPath.buf h.setup.draws, h.setup.descr, h.ra, h.m, h.stopf, h.sent]

theorem ChunksWritten.trans {plan' : List Nat} (h1 : ChunksWritten s t plan) (h2 : ChunksWritten t u plan') :
    ChunksWritten s u (plan ++ plan') where
  writing := h2.writing
  st := h2.st
  setup := h1.setup.trans h2.setup
  readPath := h1.readPath.trans h2.readPath
  m := h2.m.trans h1.m
  ra := h2.ra.trans h1.ra
  stopf := h2.stopf.trans h1.stopf
  sent := by rw [h2.sent, h1.sent, List.sum_append, Nat.add_assoc]
  errcnt := h2.errcnt.trans h1.errcnt
  codes := by rw [h1.codes, h2.codes, List.length_append, List.replicate_add, List.append_assoc]
  trace := by
    rw [h2.trace, h1.trace, List.length_append, List.replicate_add, h1.planEvents_append, List.append_assoc]

/-! ### One chunk -/

/-- The block after the transaction of the next chunk, its TxEnd having returned `c` (R139 step 3). -/
def closeChunk (s : State) (c : Nat) (cs : List Nat) : State := (fillTx (planTx s)).tookCode c cs

theorem State.planEvents_singleton (s : State) (cl c : Nat) :
    s.planEvents [cl] [c] = txEvents s.descr (chunkAddr s.seq.ra s.seq.sent)
      (elementBytes s s.descr.datalsb s.seq.m (s.seq.sent / s.seq.m) (cl / s.seq.m)) s.seq.stopf c :=
  List.append_nil _

theorem State.writing.closeChunk_trace (hw : s.writing) (c : Nat) (cs : List Nat) :
    (closeChunk s c cs).trace = s.trace ++ s.planEvents [s.nextChunk] [c] := by
  obtain ⟨-, hprobe, -⟩ := hw
  have hstop : (fillTx (planTx s)).stopValue = s.seq.stopf := by
    rw [State.stopValue, fillTx_probe, planTx_probe, hprobe]
    rfl
  rw [closeChunk, State.tookCode_trace, fillTx_trace, hstop, State.planEvents_singleton, txEvents, List.append_assoc]
  rfl

/-- A chunk closed with code 0 leads on to the next one, or ends the command if it is the last (R136, R170, R173). -/
theorem State.writing.close_of_zero (hw : s.writing) {cs : List Nat} (hcodes : s.port.codes = 0 :: cs) :
    stepTxClose (fillTx (planTx s)) =
      if s.seq.sent + s.nextChunk < s.seq.l then (closeChunk s 0 cs).advance.goto .planTx
      else (closeChunk s 0 cs).advance.succeed 0 := by
  obtain ⟨-, hprobe, -, hkind, -⟩ := hw
  have hport : (fillTx (planTx s)).port.codes = 0 :: cs := hcodes
  have hnoprobe : (fillTx (planTx s)).probe = false := hprobe
  have hclose : stepTxClose (fillTx (planTx s)) = afterClose (closeChunk s 0 cs) := by
    simp only [stepTxClose, hport, hnoprobe, Bool.false_eq_true, if_false, if_true, closeChunk]
  have hclosed : (closeChunk s 0 cs).seq.kind = .w := hkind
  rw [hclose, afterClose, hclosed]
  rfl

/-- A chunk closed with code 0 that is not the last is passed over by the WRITE loop (R139, R173). -/
theorem State.writing.sends_chunk (hw : s.writing) (hst : s.seq.st = .planTx) {cs : List Nat}
    (hcodes : s.port.codes = 0 :: cs) (hmore : s.seq.sent + s.nextChunk < s.seq.l) :
    ∃ t, (∀ fuel, writeLoop (fuel + 1) s = writeLoop fuel t) ∧ ChunksWritten s t [s.nextChunk] ∧
      t.port.codes = cs := by
  have hpass : stepTxClose (fillTx (planTx s)) = (closeChunk s 0 cs).advance.goto .planTx := by
    rw [hw.close_of_zero hcodes, if_pos hmore]
  have hrun := hpass ▸ hw.reaches_chunk hst
  obtain ⟨-, -, -, hkind, -⟩ := id hw
  refine ⟨(closeChunk s 0 cs).advance.goto .planTx, fun fuel => ?_, ?_, rfl⟩
  · rw [writeLoop_succ, hpass]
    exact if_pos rfl
  · exact
      { writing := (hrun.seqInv (hw.seqInv hst)).writing rfl
        st := rfl
        setup := hrun.sameSetup
        readPath := hrun.keepsReadPath (hw.seqInv hst) hkind
        m := rfl
        ra := rfl
        stopf := rfl
        sent := rfl
        errcnt := rfl
        codes := hcodes
        trace := hw.closeChunk_trace 0 cs }

/-! ### Any number of chunks -/

/-- The chunks still to send (R124, R139). -/
def State.writeRest (s : State) : List Nat := writePlan (s.seq.l - s.seq.sent) s.cfg.maxChunk s.seq.m

theorem State.writing.writeRest_eq (hw : s.writing) :
    s.writeRest = s.nextChunk :: chunkPlan (s.seq.l - (s.seq.sent + s.nextChunk)) s.cfg.maxChunk s.seq.m := by
  obtain ⟨-, -, ⟨hm, -, hml, -, hms⟩, -, -, hlt | hl⟩ := hw
  · have hpos : 0 < s.seq.l - s.seq.sent := by omega
    rw [State.writeRest, writePlan, if_neg hpos.ne',
      chunkPlan_of_pos hm s.cfg.eight_le_maxChunk (Nat.dvd_sub hml hms) hpos, Nat.sub_add_eq]
    rfl
  · have hnone : s.nextChunk = 0 := by
      have hle := chunkLen_le_rem (s.seq.l - s.seq.sent) s.cfg.maxChunk s.seq.m
      exact Nat.le_zero.mp (hle.trans (by omega))
    rw [State.writeRest, hl, hnone, Nat.zero_sub, Nat.zero_sub, chunkPlan_zero]
    rfl

/-- The next chunk is the last one exactly when nothing is planned after it (R124). -/
theorem State.writing.chunkPlan_eq_nil_iff (hw : s.writing) :
    chunkPlan (s.seq.l - (s.seq.sent + s.nextChunk)) s.cfg.maxChunk s.seq.m = [] ↔
      s.seq.l ≤ s.seq.sent + s.nextChunk := by
  obtain ⟨-, -, ⟨hm, -, hml, -, hms⟩, -⟩ := hw
  have hdvd : s.seq.m ∣ s.seq.l - (s.seq.sent + s.nextChunk) := by
    rw [Nat.sub_add_eq]
    exact dvd_sub_chunkLen (Nat.dvd_sub hml hms)
  obtain ⟨hsum, -⟩ := chunkPlan_sum_length hm s.cfg.eight_le_maxChunk hdvd
  constructor
  · intro hnil
    rw [hnil, List.sum_nil] at hsum
    exact Nat.sub_eq_zero_iff_le.mp hsum.symm
  · intro hle
    rw [Nat.sub_eq_zero_of_le hle, chunkPlan_zero]

/-- After a chunk that is not the last, the chunks planned after it are still to send. -/
theorem ChunksWritten.writeRest (h : ChunksWritten s t [s.nextChunk]) (hmore : s.seq.sent + s.nextChunk < s.seq.l) :
    t.writeRest = chunkPlan (s.seq.l - (s.seq.sent + s.nextChunk)) s.cfg.maxChunk s.seq.m := by
  rw [State.writeRest, h.setup.l, h.setup.cfg, h.m, h.sent, List.sum_singleton]
  exact if_neg (by omega)

/-- The WRITE loop passes over the first `k` chunks to send if they are not the last and are closed with code 0 (R139,
R173). -/
theorem writeLoop_closed (k fuel : Nat) {s : State} (hw : s.writing) (hst : s.seq.st = .planTx) {cs : List Nat}
    (hk : k < s.writeRest.length) (hcodes : s.port.codes = List.replicate k 0 ++ cs) :
    ∃ t, writeLoop (k + fuel) s = writeLoop fuel t ∧ ChunksWritten s t (s.writeRest.take k) ∧
      t.writeRest = s.writeRest.drop k := by
  induction k generalizing s with
  | zero => exact ⟨s, by rw [Nat.zero_add], .refl hw hst, rfl⟩
  | succ k ih =>
    have hplan := hw.writeRest_eq
    rw [hplan, List.length_cons] at hk
    have hmore : s.seq.sent + s.nextChunk < s.seq.l := by
      refine Nat.not_le.mp fun hlast => ?_
      rw [hw.chunkPlan_eq_nil_iff.mpr hlast] at hk
      exact absurd hk (by simp)
    obtain ⟨u, hpass, h1, hleft⟩ := hw.sends_chunk hst hcodes hmore
    rw [← h1.writeRest hmore] at hplan hk
    obtain ⟨t, hloop, h2, hrest⟩ := ih h1.writing h1.st (Nat.lt_of_succ_lt_succ hk) hleft
    refine ⟨t, ?_, ?_, ?_⟩
    · rw [Nat.succ_add, hpass, hloop]
    · rw [hplan]
      exact h1.trans h2
    · rw [hplan, hrest, List.drop_succ_cons]

/-- The WRITE loop where the next chunk is the last and is closed with code 0 (R170). -/
theorem writeLoop_of_last (fuel : Nat) (hw : s.writing) {cl : Nat} (hrest : s.writeRest = [cl]) {cs : List Nat}
    (hcodes : s.port.codes = 0 :: cs) :
    s.nextChunk = cl ∧ s.seq.sent + cl = s.seq.l ∧
      writeLoop (fuel + 1) s = (closeChunk s 0 cs).advance.succeed 0 := by
  rw [hw.writeRest_eq] at hrest
  obtain ⟨rfl, hnil⟩ := List.cons.inj hrest
  have hlast := hw.chunkPlan_eq_nil_iff.mp hnil
  have hpass : stepTxClose (fillTx (planTx s)) = (closeChunk s 0 cs).advance.succeed 0 := by
    rw [hw.close_of_zero hcodes, if_neg (Nat.not_lt.mpr hlast)]
  obtain ⟨-, -, ⟨-, -, -, hsent, -⟩, -⟩ := hw
  have hle : s.nextChunk ≤ s.seq.l - s.seq.sent := chunkLen_le_rem _ _ _
  refine ⟨rfl, by omega, ?_⟩
  rw [writeLoop_succ, hpass]
  exact if_neg nofun

end

/-- The WRITE loop with a pass for every chunk, each closed with code 0: all is sent and the command succeeds (R170,
R173). -/
theorem writeLoop_succeeds {s : State} (hw : s.writing) (hst : s.seq.st = .planTx) {fuel : Nat}
    (hfuel : s.writeRest.length ≤ fuel) {cs : List Nat}
    (hcodes : s.port.codes = List.replicate s.writeRest.length 0 ++ cs) :
    ∃ t : State, writeLoop fuel s = t.succeed 0 ∧
      t.trace = s.trace ++ s.planEvents s.writeRest (List.replicate s.writeRest.length 0) ∧ t.seq.sent = s.seq.l ∧
      t.errcnt = s.errcnt ∧ t.probe = false ∧ t.port.codes = cs ∧ t.draws = s.draws := by
  have hsome : s.writeRest.length ≠ 0 := by rw [hw.writeRest_eq]; nofun
  obtain ⟨k, hk⟩ : ∃ k, s.writeRest.length = k + 1 := Nat.exists_eq_succ_of_ne_zero hsome
  obtain ⟨spare, rfl⟩ : ∃ n, fuel = k + (n + 1) := ⟨fuel - k - 1, by omega⟩
  rw [hk, List.replicate_succ', List.append_assoc] at hcodes
  obtain ⟨u, hloop, hu, hrest⟩ := writeLoop_closed k (spare + 1) hw hst (by omega) hcodes
  have hfirst : (s.writeRest.take k).length = k := List.length_take_of_le (by omega)
  obtain ⟨cl, hcl⟩ : ∃ cl, s.writeRest.drop k = [cl] :=
    List.length_eq_one_iff.mp (by rw [List.length_drop]; omega)
  have hsplit : s.writeRest = s.writeRest.take k ++ [cl] := by rw [← hcl, List.take_append_drop]
  have hucodes : u.port.codes = 0 :: cs := by
    rw [hu.codes, hfirst] at hcodes
    exact List.append_cancel_left hcodes
  obtain ⟨hnext, hsent, hend⟩ := writeLoop_of_last spare hu.writing (hrest.trans hcl) hucodes
  obtain ⟨-, hprobe, -⟩ := id hu.writing
  refine ⟨(closeChunk u 0 cs).advance, hloop.trans hend, ?_, ?_, hu.errcnt, hprobe, rfl, hu.setup.draws⟩
  · have hevents := hu.planEvents_append [cl] [0]
    rw [hfirst, ← List.replicate_succ', ← hsplit, ← hk] at hevents
    rw [State.advance_trace, hu.writing.closeChunk_trace, hnext, hu.trace, hfirst, List.append_assoc, ← hevents]
  · calc (closeChunk u 0 cs).advance.seq.sent = u.seq.sent + u.nextChunk := rfl
      _ = s.seq.l := by rw [hnext, hsent, hu.setup.l]

/-- Settles O35: the WRITE loop sends every chunk of the plan, each closed with code 0. -/
theorem writeSucceeds : Obligations.WriteSucceeds := by
  intro s d ns e ra c m cs hst hs he hfits plan hcodes
  have hz := transferSize_of_fits he hfits
  have hdesc : s.desc ≠ none := hs ▸ Option.some_ne_none d
  obtain ⟨hm, -, hml⟩ := transferSize_sized hz
  have hdescr : (acceptWrite s ns ra m (m * c.toNat)).descr = d := State.descr_of_desc hs
  have hfuel : plan.length ≤ m * c.toNat + 1 := writePlan_length_le hm s.cfg.eight_le_maxChunk hml
  obtain ⟨t, hloop, htrace, hsent, herrcnt, hprobe, hleft, hdraws⟩ :=
    writeLoop_succeeds (acceptWrite_writing (ns := ns) (ra := ra) hdesc hz) rfl hfuel hcodes
  have hexec : exec (.write ns e ra c) s = .next (t.succeed 0) := by rw [exec_write_of_legal hst hs hz, hloop]
  obtain ⟨hbuf, htdesc, hcfg, hhost, havails, hbytes, -⟩ := writeFrame _ _ _ _ _ _ hexec
  refine ⟨_, hexec, ?_, rfl, rfl, hprobe, hsent, herrcnt, Port.ext hleft havails hbytes, hdraws, hcfg, htdesc, hbuf,
    hhost⟩
  rw [State.succeed_trace, htrace, State.planEvents, hdescr]
  exact congrArg _ (writeEvents_congr (s := { s with draws := s.draws + 1 })
    (t := acceptWrite s ns ra m (m * c.toNat)) rfl rfl d ra m (!ns) 0 plan _)

end Sys2Proof.Machine
end

section
/-! SUPPORT. What is refused while a command runs (R135, R271), and the runs of the sequencer a WRITE and a READ are
(D25). -/

namespace Sys2Proof.Machine

section
variable {s : State}

theorem exec_of_busy (i : Instr) (hst : s.seq.st ≠ .idle) : exec i s = .refused .commandWhileBusy := by
  cases i <;> exact whenIdle_of_busy hst

theorem step_of_busy_reset (hst : s.seq.st ≠ .idle) (hh : s.host.head? = some .reset) :
    Sys2Proof.Machine.step s = .refused .resetWhileBusy := by
  rw [Sys2Proof.Machine.step, fetch_of_busy hst]
  exact if_pos hh

end

/-- Settles O14: no meaning is accepted outside IDLE, and a busy step looks for the reset first. -/
theorem busyRefusesCommandAndReset : Obligations.BusyRefusesCommandAndReset :=
  ⟨fun i _ hst => exec_of_busy i hst, fun _ _ hst hh => step_of_busy_reset hst (by rw [hh]; rfl)⟩

/-- Settles O48: the WRITE loop has a pass for every byte, so it stops only where the sequencer has ended or waits. -/
theorem writeIsSequencerRun : Obligations.WriteIsSequencerRun := by
  intro s d ns e ra c m hst hs he hfits
  have hz := transferSize_of_fits he hfits
  have hw := acceptWrite_writing (ns := ns) (ra := ra) (hs ▸ Option.some_ne_none d) hz
  obtain ⟨n, hrun⟩ := writeLoop_reaches (m * c.toNat + 1) hw rfl
  exact ⟨n, _, exec_write_of_legal hst hs hz, hrun, writeLoop_ends hw rfl (Nat.lt_succ_self _)⟩

/-- Settles O49: a READ begins with its address-set phase or its data phase, and from either it is a run that ends or
waits. -/
theorem readIsSequencerRun : Obligations.ReadIsSequencerRun := by
  intro s d e ra c m hst hs he hfits
  have hz := transferSize_of_fits he hfits
  obtain ⟨⟨n, hrun⟩, hstop⟩ := runRead_reaches (acceptRead_begins (ra := ra) (hs ▸ Option.some_ne_none d) hz)
  exact ⟨n, _, exec_read_of_legal hst hs hz, hrun, hstop⟩

end Sys2Proof.Machine
end

section
/-! SUPPORT. The event of each transition (R129, R136, R140), the transitions that count in ERRCNT (R141), and the failed
transactions a command adds to it (R213). -/

namespace Sys2Proof.Machine

section
variable {s : State}

/-! ### Events -/

theorem stepTxClose_trace_of_answer {c : Nat} {cs : List Nat} (hc : s.port.codes = c :: cs) :
    (stepTxClose s).trace = s.trace ++ [.txEnd s.stopValue c] := by
  rcases stepTxClose_cases s with ⟨hnil, -⟩ | ⟨c', cs', hc', ⟨-, -, e⟩ | ⟨-, -, e⟩ | ⟨-, -, e⟩ | ⟨-, -, -, -, e⟩ |
    ⟨-, -, -, -, e⟩ | ⟨-, -, -, e⟩ | ⟨-, -, -, e⟩⟩
  case inl => cases hnil.symm.trans hc
  all_goals
    obtain ⟨rfl, rfl⟩ := List.cons.inj (hc.symm.trans hc')
    rw [e]
    rfl

theorem stepTxClose_of_no_answer (hc : s.port.codes = []) : stepTxClose s = s := by
  rw [stepTxClose, hc]

theorem stepRxReq_trace_of_answer {a : Nat} {as : List Nat} (ha : s.port.avails = a :: as) :
    (stepRxReq s).trace = s.trace ++ [.rxRequest s.descr.busaddr s.seq.req a] := by
  rcases stepRxReq_cases s with ⟨hnil, -⟩ | ⟨a', as', ha', ⟨-, e⟩ | ⟨-, e⟩⟩
  case inl => cases hnil.symm.trans ha
  all_goals
    obtain ⟨rfl, rfl⟩ := List.cons.inj (ha.symm.trans ha')
    rw [e]
    rfl

theorem stepRxReq_of_no_answer (ha : s.port.avails = []) : stepRxReq s = s := by
  rw [stepRxReq, ha]

theorem stepPlanRx_trace (s : State) : (stepPlanRx s).trace = s.trace := by
  rcases stepPlanRx_cases s with ⟨-, e⟩ | ⟨-, e⟩ <;> rw [e] <;> rfl

theorem stepRxDrain_trace_of_answer {b : Byte} {bs : List Byte} (hb : s.port.bytes = b :: bs) :
    (stepRxDrain s).trace = s.trace ++ [.rxRead b] := by
  obtain ⟨-, -, -, -, -, -, -, htrace, -⟩ := absorb_frame (s.tookByte b bs) b
  rw [stepRxDrain, hb]
  exact htrace

theorem stepRxDrain_of_no_answer (hb : s.port.bytes = []) : stepRxDrain s = s := by
  rw [stepRxDrain, hb]

end

/-- Settles O50: state by state; the three calls that return a value emit their event when they have returned. -/
theorem transitionEmitsItsEvent : Obligations.TransitionEmitsItsEvent := by
  intro s
  unfold seqStep
  cases s.seq.st with
  | idle | planTx => exact (List.append_nil _).symm
  | txOpen | txAddr0 | txAddr1 | txData => rfl
  | txClose =>
    cases hc : s.port.codes with
    | nil => exact (congrArg State.trace (stepTxClose_of_no_answer hc)).trans (List.append_nil _).symm
    | cons c cs => exact stepTxClose_trace_of_answer hc
  | planRx => exact (stepPlanRx_trace s).trans (List.append_nil _).symm
  | rxReq =>
    cases ha : s.port.avails with
    | nil => exact (congrArg State.trace (stepRxReq_of_no_answer ha)).trans (List.append_nil _).symm
    | cons a as => exact stepRxReq_trace_of_answer ha
  | rxDrain =>
    cases hb : s.port.bytes with
    | nil => exact (congrArg State.trace (stepRxDrain_of_no_answer hb)).trans (List.append_nil _).symm
    | cons b bs => exact stepRxDrain_trace_of_answer hb

section
variable {s : State}

/-! ### The transitions that count -/

/-- The transition closes a WRITE chunk or an address-set phase with a code other than 0 (R141). -/
def State.closesFailing (s : State) : Prop := s.probe = false ∧ ∃ c cs, s.port.codes = c :: cs ∧ c ≠ 0

/-- The transition has its request answered short (R141, R194). -/
def State.answeredShort (s : State) : Prop := ∃ a as, s.port.avails = a :: as ∧ a < s.seq.req

theorem stepTxClose_of_failing (hp : s.probe = false) {c : Nat} {cs : List Nat} (hc : s.port.codes = c :: cs)
    (hne : c ≠ 0) : stepTxClose s = (s.tookCode c cs).countError.fail .transactionError := by
  simp only [stepTxClose, hc, hp, if_neg hne, Bool.false_eq_true, if_false]

theorem stepRxReq_of_short {a : Nat} {as : List Nat} (ha : s.port.avails = a :: as) (hlt : a < s.seq.req) :
    stepRxReq s = (s.tookAvail a as).countError.fail .shortTransfer := by
  simp only [stepRxReq, ha, if_pos hlt]

theorem stepTxClose_errcnt_of_not_failing (h : ¬ s.closesFailing) : (stepTxClose s).errcnt = s.errcnt := by
  rcases stepTxClose_cases s with ⟨-, e⟩ | ⟨c, cs, hc, ⟨-, -, e⟩ | ⟨-, -, e⟩ | ⟨hp, hne, -⟩ | ⟨-, -, -, -, e⟩ |
    ⟨-, -, -, -, e⟩ | ⟨-, -, -, e⟩ | ⟨-, -, -, e⟩⟩
  case inl => rw [e]
  case inr.inr.inr.inl => exact absurd ⟨hp, c, cs, hc, hne⟩ h
  all_goals
    rw [e]
    rfl

theorem stepRxReq_errcnt_of_not_short (h : ¬ s.answeredShort) : (stepRxReq s).errcnt = s.errcnt := by
  rcases stepRxReq_cases s with ⟨-, e⟩ | ⟨a, as, ha, ⟨hlt, -⟩ | ⟨-, e⟩⟩
  · rw [e]
  · exact absurd ⟨a, as, ha, hlt⟩ h
  · rw [e]; rfl

theorem stepPlanRx_errcnt (s : State) : (stepPlanRx s).errcnt = s.errcnt := by
  rcases stepPlanRx_cases s with ⟨-, e⟩ | ⟨-, e⟩ <;> rw [e] <;> rfl

theorem stepRxDrain_errcnt (s : State) : (stepRxDrain s).errcnt = s.errcnt := by
  rcases stepRxDrain_cases s with ⟨-, e⟩ | ⟨b, bs, -, e⟩ <;> rw [e]
  obtain ⟨-, -, herr, -⟩ := absorb_frame (s.tookByte b bs) b
  exact herr

/-- Every transition but a failing close and a short answer leaves ERRCNT (R141, R246). -/
theorem seqStep_errcnt_of_not_failing (hclose : ¬ (s.seq.st = .txClose ∧ s.closesFailing))
    (hshort : ¬ (s.seq.st = .rxReq ∧ s.answeredShort)) : (seqStep s).errcnt = s.errcnt := by
  unfold seqStep
  cases hst : s.seq.st with
  | idle | planTx | txOpen | txAddr0 | txAddr1 | txData => rfl
  | txClose => exact stepTxClose_errcnt_of_not_failing fun h => hclose ⟨hst, h⟩
  | planRx => exact stepPlanRx_errcnt s
  | rxReq => exact stepRxReq_errcnt_of_not_short fun h => hshort ⟨hst, h⟩
  | rxDrain => exact stepRxDrain_errcnt s

end

/-- Settles O24: TX_CLOSE and RX_REQ count in their failing case alone, the other transitions never. -/
theorem transitionCountsFailedTransaction : Obligations.TransitionCountsFailedTransaction := by
  intro s failing
  refine ⟨?_, fun h => ?_⟩
  · rintro (⟨hst, hp, c, cs, hc, hne⟩ | ⟨hst, a, as, ha, hlt⟩)
    · rw [seqStep_txClose hst, stepTxClose_of_failing hp hc hne]
      rfl
    · rw [seqStep_rxReq hst, stepRxReq_of_short ha hlt]
      rfl
  · exact seqStep_errcnt_of_not_failing (fun hclose => h (.inl hclose)) (fun hshort => h (.inr hshort))

section
variable {s t u : State} {i : Instr}

/-! ### The failed transactions of a command -/

/-- From `s` to `t` the failed transactions emitted are counted: none, or one that has ended the command (R141, R213). -/
inductive CountsFailures (s t : State) : Prop
  | none {es : List Event} (trace : t.trace = s.trace ++ es) (fails : failures es = 0) (errcnt : t.errcnt = s.errcnt)
  | one {es : List Event} (trace : t.trace = s.trace ++ es) (fails : failures es = 1)
      (errcnt : t.errcnt = nextErrcnt s.cfg s.errcnt) (st : t.seq.st = .idle)

theorem CountsFailures.of_quiet (ht : t.trace = s.trace) (he : t.errcnt = s.errcnt) : CountsFailures s t :=
  .none (es := []) (ht.trans (List.append_nil _).symm) rfl he

theorem CountsFailures.refl (s : State) : CountsFailures s s := .of_quiet rfl rfl

/-- While the command runs nothing has failed, so what follows is counted from where `s` stood. -/
theorem CountsFailures.trans (h1 : CountsFailures s t) (hst : t.seq.st ≠ .idle) (hc : t.cfg = s.cfg)
    (h2 : CountsFailures t u) : CountsFailures s u := by
  cases h1 with
  | one _ _ _ hidle => exact absurd hidle hst
  | none ht1 hf1 he1 =>
    cases h2 with
    | none ht2 hf2 he2 =>
      refine .none (by rw [ht2, ht1, List.append_assoc]) ?_ (he2.trans he1)
      rw [failures, List.countP_append]
      exact Nat.add_eq_zero_iff.mpr ⟨hf1, hf2⟩
    | one ht2 hf2 he2 hidle =>
      refine .one (by rw [ht2, ht1, List.append_assoc]) ?_ (by rw [he2, hc, he1]) hidle
      rw [failures, List.countP_append]
      exact congrArg₂ (· + ·) hf1 hf2

theorem failures_txEnd (stop : Bool) (c : Nat) : failures [.txEnd stop c] = if c = 0 then 0 else 1 := by
  by_cases hc : c = 0 <;> simp [failures, Event.failed, hc]

theorem failures_rxRequest (a7 : BusAddr) (n a : Nat) : failures [.rxRequest a7 n a] = if a < n then 1 else 0 := by
  by_cases ha : a < n <;> simp [failures, Event.failed, ha]

theorem stepTxClose_countsFailures (hp : s.probe = false) : CountsFailures s (stepTxClose s) := by
  cases hc : s.port.codes with
  | nil => rw [stepTxClose_of_no_answer hc]; exact .refl s
  | cons c cs =>
    have htrace := stepTxClose_trace_of_answer hc
    have hfails := failures_txEnd s.stopValue c
    by_cases hz : c = 0
    · rw [if_pos hz] at hfails
      refine .none htrace hfails (stepTxClose_errcnt_of_not_failing ?_)
      rintro ⟨-, c', cs', hc', hne⟩
      obtain ⟨rfl, -⟩ := List.cons.inj (hc.symm.trans hc')
      exact hne hz
    · rw [if_neg hz] at hfails
      have hfail := stepTxClose_of_failing hp hc hz
      exact .one htrace hfails (by rw [hfail]; rfl) (by rw [hfail]; rfl)

theorem stepRxReq_countsFailures (s : State) : CountsFailures s (stepRxReq s) := by
  cases ha : s.port.avails with
  | nil => rw [stepRxReq_of_no_answer ha]; exact .refl s
  | cons a as =>
    have htrace := stepRxReq_trace_of_answer ha
    have hfails := failures_rxRequest s.descr.busaddr s.seq.req a
    by_cases hlt : a < s.seq.req
    · rw [if_pos hlt] at hfails
      have hshort := stepRxReq_of_short ha hlt
      exact .one htrace hfails (by rw [hshort]; rfl) (by rw [hshort]; rfl)
    · rw [if_neg hlt] at hfails
      have hgrant := stepRxReq_of_granted ha (Nat.not_lt.mp hlt)
      exact .none htrace hfails (by rw [hgrant]; rfl)

theorem stepRxDrain_countsFailures (s : State) : CountsFailures s (stepRxDrain s) := by
  cases hb : s.port.bytes with
  | nil => rw [stepRxDrain_of_no_answer hb]; exact .refl s
  | cons b bs => exact .none (stepRxDrain_trace_of_answer hb) rfl (stepRxDrain_errcnt s)

theorem seqStep_countsFailures (hp : s.probe = false) : CountsFailures s (seqStep s) := by
  unfold seqStep
  cases s.seq.st with
  | idle => exact .refl s
  | planTx => exact .of_quiet rfl rfl
  | txOpen | txAddr0 | txAddr1 | txData => exact .none rfl rfl rfl
  | txClose => exact stepTxClose_countsFailures hp
  | planRx => exact .of_quiet (stepPlanRx_trace s) (stepPlanRx_errcnt s)
  | rxReq => exact stepRxReq_countsFailures s
  | rxDrain => exact stepRxDrain_countsFailures s

theorem stepTxClose_probe (hp : s.probe = false) : (stepTxClose s).probe = false := by
  rcases stepTxClose_cases s with ⟨-, e⟩ | ⟨c, cs, -, ⟨-, -, e⟩ | ⟨-, -, e⟩ | ⟨-, -, e⟩ | ⟨-, -, -, -, e⟩ |
    ⟨-, -, -, -, e⟩ | ⟨-, -, -, e⟩ | ⟨-, -, -, e⟩⟩ <;> rw [e]
  case inr.inl | inr.inr.inl => rfl
  all_goals exact hp

/-- No transition raises the flag of an EXISTS (assumption 7). -/
theorem seqStep_probe (hp : s.probe = false) : (seqStep s).probe = false := by
  unfold seqStep
  cases s.seq.st with
  | idle | planTx | txOpen | txAddr0 | txAddr1 | txData => exact hp
  | txClose => exact stepTxClose_probe hp
  | planRx => rcases stepPlanRx_cases s with ⟨-, e⟩ | ⟨-, e⟩ <;> exact (congrArg State.probe e).trans hp
  | rxReq =>
    rcases stepRxReq_cases s with ⟨-, e⟩ | ⟨a, as, -, ⟨-, e⟩ | ⟨-, e⟩⟩ <;> exact (congrArg State.probe e).trans hp
  | rxDrain => exact (stepRxDrain_probe s).trans hp

/-- A run of the sequencer that is not of an EXISTS counts the failed transactions it emits. -/
theorem Reaches.countsFailures (hr : Reaches s t) (hp : s.probe = false) : CountsFailures s t := by
  have hkeep : t.probe = false ∧ t.cfg = s.cfg ∧ CountsFailures s t := by
    refine hr.keeps (P := fun v => v.probe = false ∧ v.cfg = s.cfg ∧ CountsFailures s v) ?_ ⟨hp, rfl, .refl s⟩
    rintro v ⟨hpv, hcv, hv⟩
    refine ⟨seqStep_probe hpv, (seqStep_sameSetup v).cfg.trans hcv, ?_⟩
    by_cases hst : v.seq.st = .idle
    · have hstay : seqStep v = v := by rw [seqStep, hst]
      rwa [hstay]
    · exact hv.trans hst hcv (seqStep_countsFailures hpv)
  exact hkeep.2.2

theorem acceptRead_trace (s : State) (ra : RegAddr) (m l : Nat) : (acceptRead s ra m l).trace = s.trace := by
  unfold acceptRead; split <;> rfl

theorem acceptRead_probe (s : State) (ra : RegAddr) (m l : Nat) : (acceptRead s ra m l).probe = false := by
  unfold acceptRead; split <;> rfl

/-- An accepted WRITE or READ has not yet emitted anything. -/
theorem Accepts.quiet (h : Accepts s i u) (hi : i ≠ .probe) : u.trace = s.trace ∧ u.probe = false := by
  cases h with
  | write => exact ⟨rfl, rfl⟩
  | read => exact ⟨acceptRead_trace s _ _ _, acceptRead_probe s _ _ _⟩
  | probe => exact absurd rfl hi

theorem AnswersAtOnce.quiet (h : AnswersAtOnce s i t) (hi : i ≠ .clrerr) :
    t.trace = s.trace ∧ t.errcnt = s.errcnt := by
  cases h with
  | clrerr => exact absurd rfl hi
  | refused | configure | release | errcount => exact ⟨rfl, rfl⟩

theorem exec_countsFailures (h : exec i s = .next t) (hclr : i ≠ .clrerr) (hi : i ≠ .probe) : CountsFailures s t := by
  obtain ⟨-, hnow | ⟨u, hacc, hrun, -⟩⟩ := exec_cases h
  · obtain ⟨ht, he⟩ := hnow.quiet hclr
    exact .of_quiet ht he
  · obtain ⟨ht, hp⟩ := hacc.quiet hi
    have ho := hacc.onlyOpens
    exact (CountsFailures.of_quiet ht ho.errcnt).trans hacc.st_ne_idle ho.cfg (hrun.countsFailures hp)

/-- An EXISTS leaves ERRCNT, whatever code its TxEnd returns (R210, R246). -/
theorem execProbe_errcnt (h : execProbe s = .next t) : t.errcnt = s.errcnt := by
  obtain ⟨-, rfl⟩ := whenIdle_eq_next.mp h
  split
  · rfl
  · exact stepTxClose_errcnt_of_not_failing (s := openProbe s) fun hfail => Bool.noConfusion hfail.1

end

/-- Settles O25: an answer at once emits nothing, a run of the sequencer counts what it emits, and an EXISTS counts
nothing. -/
theorem commandAddsItsFailures : Obligations.CommandAddsItsFailures := by
  intro i s t hwidth h hclr
  by_cases hi : i = .probe
  · subst hi
    obtain ⟨-, es, htrace⟩ := exec_onlyAddsEvents h
    exact ⟨es, htrace, fun hne => absurd rfl hne, fun _ => execProbe_errcnt h⟩
  · cases exec_countsFailures h hclr hi with
    | none htrace hfails herr =>
      refine ⟨_, htrace, fun _ => ⟨by omega, ?_⟩, fun hp => absurd hp hi⟩
      rw [herr, hfails, Nat.add_zero, Nat.mod_eq_of_lt hwidth]
    | one htrace hfails herr =>
      refine ⟨_, htrace, fun _ => ⟨Nat.le_of_eq hfails, ?_⟩, fun hp => absurd hp hi⟩
      rw [herr, hfails]
      rfl

end Sys2Proof.Machine
end

section
/-! SUPPORT. The address bytes of a write transaction (R127, R128) and the effective element size (R120). -/

namespace Sys2Proof.Machine

/-! ### The effective size -/

theorem transferSize_three (p : Params) (c : BitVec 16) : transferSize p 3 c = transferSize p 4 c := by
  have hsize : effSize 3 = effSize 4 := rfl
  rw [transferSize, transferSize, hsize]

/-- Settles O26: WRITE and READ read ESIZE through the transfer's sizes alone, which are the same for 3 and 4. -/
theorem effectiveSize : Obligations.EffectiveSize := by
  refine ⟨fun _ => rfl, fun ns ra c s => ?_, fun ra c s => ?_⟩
  · simp only [exec, execWrite, transferSize_three]
  · simp only [exec, execRead, transferSize_three]

section
variable {d : Descriptor} {a : RegAddr}

/-! ### The address phase -/

theorem addrPhase_of_none (hr : d.regw = .none) : addrPhase d a = [] := by
  simp only [addrPhase, hr]

theorem addrPhase_of_one (hr : d.regw = .one) : addrPhase d a = [a.extractLsb' 0 8] := by
  simp only [addrPhase, hr]

theorem addrPhase_of_two_msb (hr : d.regw = .two) (ho : d.reglsb = .msbFirst) :
    addrPhase d a = [a.extractLsb' 8 8, a.extractLsb' 0 8] := by
  simp only [addrPhase, hr, ho]

theorem addrPhase_of_two_lsb (hr : d.regw = .two) (ho : d.reglsb = .lsbFirst) :
    addrPhase d a = [a.extractLsb' 0 8, a.extractLsb' 8 8] := by
  simp only [addrPhase, hr, ho]

end

/-- Settles O28: one equation per register-address width and byte order, and the example's bytes evaluated. -/
theorem addressPhaseBytes : Obligations.AddressPhaseBytes := by
  refine ⟨fun d a => ⟨addrPhase_of_none, addrPhase_of_one, addrPhase_of_two_msb, addrPhase_of_two_lsb⟩,
    fun d => ⟨?_, ?_, ?_⟩⟩
  · rw [addrPhase_of_two_msb rfl rfl]; decide
  · rw [addrPhase_of_two_lsb rfl rfl]; decide
  · rw [addrPhase_of_one rfl]; decide

theorem chunkAddr_toNat (ra : RegAddr) (sent : Nat) : (chunkAddr ra sent).toNat = (ra.toNat + sent) % 65536 :=
  BitVec.toNat_ofNat _ 16

theorem RegAddr.lowByte_toNat (a : RegAddr) : (a.extractLsb' 0 8).toNat = a.toNat % 256 := by
  rw [BitVec.extractLsb'_toNat, Nat.shiftRight_zero]

theorem RegAddr.highByte_toNat (a : RegAddr) : (a.extractLsb' 8 8).toNat = a.toNat / 256 := by
  have ha := a.isLt
  rw [BitVec.extractLsb'_toNat, Nat.shiftRight_eq_div_pow]
  omega

/-- Settles O29: the address counts modulo `2^16`, and its low byte modulo `2^8`. -/
theorem advancedAddressWraps : Obligations.AdvancedAddressWraps := by
  intro d ra sent
  have haddr := chunkAddr_toNat ra sent
  have hlow : ((chunkAddr ra sent).extractLsb' 0 8).toNat = (ra.toNat + sent) % 256 := by
    rw [RegAddr.lowByte_toNat, haddr]
    omega
  have hhigh : ((chunkAddr ra sent).extractLsb' 8 8).toNat = (ra.toNat + sent) % 65536 / 256 := by
    rw [RegAddr.highByte_toNat, haddr]
  refine ⟨haddr, chunkAddr_zero ra, fun hr => ?_, fun hr ho => ?_, fun hr ho => ?_⟩
  · rw [addrPhase_of_one hr, List.map_singleton, hlow]
  · rw [addrPhase_of_two_msb hr ho, List.map_cons, List.map_singleton, hlow, hhigh]
  · rw [addrPhase_of_two_lsb hr ho, List.map_cons, List.map_singleton, hlow, hhigh]

end Sys2Proof.Machine
end

section
/-! SUPPORT. The values of elements on the wire: Marshal and Unmarshal (R130 to R132), ACC (R137) and the 24-bit expansion
(R133). -/

namespace Sys2Proof.Machine

/-! ### Marshal and Unmarshal -/

theorem unmarshal_marshal {v m : Nat} (hv : v < 256 ^ m) (o : ByteOrder) : unmarshal (marshal v m o) o = v := by
  have hle : ofBytesLE (bytesLE m v) = v := by rw [ofBytesLE_bytesLE, Nat.mod_eq_of_lt hv]
  cases o with
  | msbFirst => rw [marshal, unmarshal, List.reverse_reverse, hle]
  | lsbFirst => exact hle

theorem marshal_unmarshal (bs : List Byte) (o : ByteOrder) : marshal (unmarshal bs o) bs.length o = bs := by
  cases o with
  | msbFirst =>
    have hle := bytesLE_ofBytesLE bs.reverse
    rw [List.length_reverse] at hle
    rw [unmarshal, marshal, hle, List.reverse_reverse]
  | lsbFirst => exact bytesLE_ofBytesLE bs

theorem wireWidth_of_not_wide {m : Nat} {wd : WideMode} (h : m ≠ 4 ∨ wd = .plain) : wireWidth m wd = m := by
  refine if_neg ?_
  rintro ⟨hm, hwd⟩
  exact h.elim (absurd hm) (absurd · hwd)

theorem elemValue_of_ne_three {w : Nat} (hw : w ≠ 3) (mode : WideMode) (raw : Nat) : elemValue w mode raw = raw :=
  if_neg hw

/-- An element that is not wide is received as the value that was marshalled (R132). -/
theorem receivedValue_marshal (d : Descriptor) {v m : Nat} (hm : legalSize m) (hv : v < 256 ^ m)
    (hwide : m ≠ 4 ∨ d.wide = .plain) :
    receivedValue (wireWidth m d.wide) d (marshal v m d.datalsb) = v := by
  have h3 : m ≠ 3 := by unfold legalSize at hm; omega
  rw [wireWidth_of_not_wide hwide, receivedValue, unmarshal_marshal hv, elemValue_of_ne_three h3]

/-- Settles O30: the byte lists of Marshal and Unmarshal are those of `bytesLE` and `ofBytesLE`, in one order or the
other. -/
theorem marshalRoundTrip : Obligations.MarshalRoundTrip :=
  ⟨fun _ _ o hv => unmarshal_marshal hv o, marshal_unmarshal,
    fun d _ _ hm hv hwide => receivedValue_marshal d hm hv hwide⟩

/-! ### ACC -/

/-- ACC after absorbing bytes in arrival order from 0 on (R137). -/
theorem absorbAcc_foldl (o : ByteOrder) (bs : List Byte) :
    bs.zipIdx.foldl (fun acc p => absorbAcc o acc p.2 p.1) 0 = BitVec.ofNat 64 (unmarshal bs o) := by
  induction bs using List.reverseRecOn with
  | nil => cases o <;> rfl
  | append_singleton bs b ih =>
    rw [List.zipIdx_append, List.foldl_append, ih, Nat.zero_add]
    exact absorbAcc_unmarshal o bs b

/-- Settles O32: eight bytes fit the 64 bits of ACC. -/
theorem accumulatorHoldsUnmarshal : Obligations.AccumulatorHoldsUnmarshal := by
  intro o bs hlen
  have hfits : unmarshal bs o < 2 ^ 64 :=
    calc unmarshal bs o < 256 ^ bs.length := unmarshal_lt bs o
      _ ≤ 256 ^ 8 := Nat.pow_le_pow_right (by decide) hlen
      _ = 2 ^ 64 := by decide
  rw [absorbAcc_foldl, BitVec.toNat_ofNat, Nat.mod_eq_of_lt hfits]

/-! ### The 24-bit expansion -/

/-- Bit 23 is the sign of a wire value. -/
theorem getLsbD_23_eq (w : BitVec 24) : w.getLsbD 23 = decide (2 ^ 23 ≤ w.toNat) := BitVec.msb_eq_decide w

theorem wide24_unsigned_toNat (w : BitVec 24) : (wide24 w .unsigned24).toNat = w.toNat :=
  BitVec.toNat_setWidth_of_le (by decide)

section
variable {w : BitVec 24}

theorem wide24_signed_of_clear (h : w.getLsbD 23 = false) : wide24 w .signed24 = w.setWidth 32 := by
  rw [wide24, h]
  rfl

theorem wide24_signed_of_set (h : w.getLsbD 23 = true) : wide24 w .signed24 = 0xFF000000 + w.setWidth 32 := by
  rw [wide24, if_pos h]

theorem wide24_signed_toNat_of_clear (h : w.getLsbD 23 = false) : (wide24 w .signed24).toNat = w.toNat := by
  rw [wide24_signed_of_clear h, BitVec.toNat_setWidth_of_le (by decide)]

theorem wide24_signed_toNat_of_set (h : w.getLsbD 23 = true) :
    (wide24 w .signed24).toNat = 0xFF000000 + w.toNat := by
  have hw := w.isLt
  have htop : (0xFF000000 : Word32).toNat = 0xFF000000 := rfl
  rw [wide24_signed_of_set h, BitVec.toNat_add, BitVec.toNat_setWidth_of_le (by decide), htop]
  exact Nat.mod_eq_of_lt (by omega)

theorem wide24_signed_toInt_of_clear (h : w.getLsbD 23 = false) : (wide24 w .signed24).toInt = w.toNat := by
  have hw := w.isLt
  rw [BitVec.toInt_eq_toNat_of_lt, wide24_signed_toNat_of_clear h]
  rw [wide24_signed_toNat_of_clear h]
  omega

theorem wide24_signed_toInt_of_set (h : w.getLsbD 23 = true) :
    (wide24 w .signed24).toInt = (w.toNat : Int) - 0x1000000 := by
  have hw := w.isLt
  rw [BitVec.toInt_eq_toNat_cond, wide24_signed_toNat_of_set h, if_neg (by omega)]
  omega

end

/-- The expansion of the signed mode is the sign extension (R133). -/
theorem wide24_signed_eq_signExtend (w : BitVec 24) : wide24 w .signed24 = w.signExtend 32 := by
  apply BitVec.eq_of_toInt_eq
  have hsign := getLsbD_23_eq w
  rw [BitVec.toInt_signExtend_of_le (by decide), BitVec.toInt_eq_toNat_cond (x := w)]
  cases h : w.getLsbD 23 with
  | false =>
    rw [h] at hsign
    have hlt := of_decide_eq_false hsign.symm
    rw [wide24_signed_toInt_of_clear h, if_pos (by omega)]
  | true =>
    rw [h] at hsign
    have hle := of_decide_eq_true hsign.symm
    rw [wide24_signed_toInt_of_set h, if_neg (by omega)]
    rfl

theorem toNat_append_byte {n : Nat} (x : BitVec n) (b : Byte) : (x ++ b).toNat = x.toNat * 256 + b.toNat := by
  rw [BitVec.toNat_append, ← Nat.shiftLeft_add_eq_or_of_lt b.isLt, Nat.shiftLeft_eq]

/-- The three bytes of a wide element in the order DATALSB selects (R131, R133). -/
theorem unmarshal_three (b0 b1 b2 : Byte) (o : ByteOrder) :
    BitVec.ofNat 24 (unmarshal [b0, b1, b2] o) =
      if o = .lsbFirst then b2 ++ b1 ++ b0 else b0 ++ b1 ++ b2 := by
  have h0 := b0.isLt
  have h1 := b1.isLt
  have h2 := b2.isLt
  apply BitVec.eq_of_toNat_eq
  rw [BitVec.toNat_ofNat]
  cases o with
  | msbFirst =>
    rw [if_neg (by decide), toNat_append_byte, toNat_append_byte]
    simp only [unmarshal, List.reverse_cons, List.reverse_nil, List.nil_append, List.cons_append, ofBytesLE]
    omega
  | lsbFirst =>
    rw [if_pos rfl, toNat_append_byte, toNat_append_byte]
    simp only [unmarshal, ofBytesLE]
    omega

/-- Settles O31: by the sign bit, and by the three bytes in either order. -/
theorem wideExpansion : Obligations.WideExpansion := by
  refine ⟨fun w => ⟨wide24_signed_eq_signExtend w, fun h => ⟨wide24_signed_toNat_of_set h, wide24_signed_toInt_of_set h⟩,
    fun h => ⟨wide24_signed_toNat_of_clear h, wide24_signed_toInt_of_clear h⟩, rfl, wide24_unsigned_toNat w⟩,
    fun d b0 b1 b2 _ => ?_, by decide⟩
  rw [receivedValue, elemValue, if_pos rfl, unmarshal_three]

end Sys2Proof.Machine
end

section
/-! SUPPORT. The laws of the chunk plan (R58, R124). -/

namespace Sys2Proof.Machine

/-- The length of a full chunk: the largest multiple of the element size that one transaction can carry (R124). -/
def fullChunk (c m : Nat) : Nat := c - c % max m 1

section
variable {c m l : Nat}

theorem fullChunk_of_pos (hm : 0 < m) : fullChunk c m = c - c % m := by
  rw [fullChunk, Nat.max_eq_left hm]

theorem legalSize.fullChunk_pos (hm : legalSize m) (hc : 8 ≤ c) : 0 < fullChunk c m := by
  have h8 := hm.le_eight
  have hmod : c % max m 1 < max m 1 := Nat.mod_lt _ (by omega)
  rw [fullChunk]
  omega

/-- A multiple of `M` fits a transaction exactly when it fits a full chunk. -/
theorem le_fullChunk_iff (hm : 0 < m) (hd : m ∣ l) : l ≤ fullChunk c m ↔ l ≤ c := by
  rw [fullChunk_of_pos hm]
  refine ⟨fun h => by omega, fun h => ?_⟩
  obtain ⟨n, rfl⟩ := hd
  have hfull : c - c % m = m * (c / m) := by have := Nat.div_add_mod c m; omega
  rw [hfull]
  exact Nat.mul_le_mul_left m ((Nat.le_div_iff_mul_le hm).mpr (by rwa [Nat.mul_comm]))

/-- ChunkLen on a multiple of `M` is a full chunk, or all that is left (R123, R124). -/
theorem chunkLen_eq_min (hd : m ∣ l) (hl : 0 < l) : chunkLen l c m = min l (fullChunk c m) := by
  have hm : 0 < m := Nat.pos_of_dvd_of_pos hd hl
  have hfit := le_fullChunk_iff (c := c) hm hd
  have hlen : chunkLen l c m = min l c - min l c % m := by
    unfold chunkLen
    split
    · rfl
    · obtain rfl : m = 1 := by omega
      rw [Nat.mod_one, Nat.sub_zero]
  rw [hlen]
  rcases Nat.le_total l c with h | h
  · rw [Nat.min_eq_left h, Nat.min_eq_left (hfit.mpr h), Nat.mod_eq_zero_of_dvd hd, Nat.sub_zero]
  · have hle : fullChunk c m ≤ l := (Nat.sub_le _ _).trans h
    rw [Nat.min_eq_right h, Nat.min_eq_right hle, fullChunk_of_pos hm]

/-- The plan taken chunk by chunk: what holds of the empty plan and is kept by a chunk before a plan of the rest holds of
the whole plan (R124). -/
theorem chunkPlan_induction (hm : legalSize m) (hc : 8 ≤ c) {P : Nat → List Nat → Prop} (nil : P 0 [])
    (cons : ∀ l plan, 0 < l → m ∣ l → P (l - chunkLen l c m) plan → P l (chunkLen l c m :: plan)) (hd : m ∣ l) :
    P l (chunkPlan l c m) := by
  induction l using Nat.strong_induction_on with
  | _ l ih =>
    rcases Nat.eq_zero_or_pos l with rfl | hl
    · exact nil
    · have hpos := hm.chunkLen_pos hc hd hl
      rw [chunkPlan_of_pos hm hc hd hl]
      exact cons _ _ hl hd (ih _ (by omega) (dvd_sub_chunkLen hd))

/-- Each chunk is ChunkLen of what the ones before it leave (R124). -/
theorem chunkPlan_getElem (hm : legalSize m) (hc : 8 ≤ c) (hd : m ∣ l) :
    ∀ (k : Nat) (h : k < (chunkPlan l c m).length),
      (chunkPlan l c m)[k] = chunkLen (l - ((chunkPlan l c m).take k).sum) c m := by
  refine chunkPlan_induction hm hc (P := fun l plan =>
    ∀ (k : Nat) (h : k < plan.length), plan[k] = chunkLen (l - (plan.take k).sum) c m) nofun ?_ hd
  intro l plan _ _ ih k hk
  cases k with
  | zero => rfl
  | succ k =>
    rw [List.getElem_cons_succ, ih, List.take_succ_cons, List.sum_cons, Nat.sub_add_eq]

/-- Each chunk holds whole elements, at least one of them, and fits a transaction (R124, R125, R126). -/
theorem chunkPlan_mem (hm : legalSize m) (hc : 8 ≤ c) (hd : m ∣ l) : ∀ x ∈ chunkPlan l c m, 0 < x ∧ m ∣ x ∧ x ≤ c := by
  refine chunkPlan_induction hm hc (P := fun _ plan => ∀ x ∈ plan, 0 < x ∧ m ∣ x ∧ x ≤ c) nofun ?_ hd
  intro l plan hl hdvd ih x hx
  rcases List.mem_cons.mp hx with rfl | hx
  · exact ⟨hm.chunkLen_pos hc hdvd hl, dvd_chunkLen (Nat.pos_of_dvd_of_pos hdvd hl), chunkLen_le_max l c m⟩
  · exact ih x hx

/-- Every chunk but the last is full (R124). -/
theorem chunkPlan_dropLast (hm : legalSize m) (hc : 8 ≤ c) (hd : m ∣ l) :
    ∀ x ∈ (chunkPlan l c m).dropLast, x = fullChunk c m := by
  have hplan : (l = 0 → chunkPlan l c m = []) ∧ ∀ x ∈ (chunkPlan l c m).dropLast, x = fullChunk c m := by
    refine chunkPlan_induction hm hc
      (P := fun l plan => (l = 0 → plan = []) ∧ ∀ x ∈ plan.dropLast, x = fullChunk c m) ⟨fun _ => rfl, nofun⟩ ?_ hd
    rintro l plan hl hdvd ⟨hempty, ih⟩
    refine ⟨fun h => absurd h hl.ne', ?_⟩
    cases plan with
    | nil => nofun
    | cons y plan =>
      have hmore : l - chunkLen l c m ≠ 0 := fun h => List.cons_ne_nil _ _ (hempty h)
      intro x hx
      rw [List.dropLast_cons_of_ne_nil (List.cons_ne_nil _ _)] at hx
      rcases List.mem_cons.mp hx with rfl | hx
      · have hmin := chunkLen_eq_min (c := c) hdvd hl
        omega
      · exact ih x hx
  exact hplan.2

/-- There are as many chunks as full chunks are needed (R124). -/
theorem chunkPlan_length (hm : legalSize m) (hc : 8 ≤ c) (hd : m ∣ l) :
    (chunkPlan l c m).length = (l + fullChunk c m - 1) / fullChunk c m := by
  have hfull := hm.fullChunk_pos hc
  refine chunkPlan_induction hm hc
    (P := fun l plan => plan.length = (l + fullChunk c m - 1) / fullChunk c m) ?_ ?_ hd
  · exact (Nat.div_eq_of_lt (by omega)).symm
  · intro l plan hl hdvd ih
    rw [List.length_cons, ih, chunkLen_eq_min hdvd hl]
    rcases Nat.le_total l (fullChunk c m) with h | h
    · rw [Nat.min_eq_left h, Nat.sub_self, Nat.div_eq_of_lt (by omega), Nat.zero_add]
      exact (Nat.div_eq_of_lt_le (by omega) (by omega)).symm
    · rw [Nat.min_eq_right h, Nat.sub_add_cancel h, show l + fullChunk c m - 1 = l - 1 + fullChunk c m by omega,
        Nat.add_div_right _ hfull]

end

/-- Settles O27: law by law, each by taking the plan chunk by chunk. -/
theorem chunkPlanLaws : Obligations.ChunkPlanLaws :=
  ⟨fun _ _ _ hc hm hd => ⟨(chunkPlan_sum_length hm hc hd).1, chunkPlan_getElem hm hc hd, chunkPlan_mem hm hc hd,
    chunkPlan_dropLast hm hc hd, chunkPlan_length hm hc hd, rfl⟩, rfl⟩

end Sys2Proof.Machine
end

section
/-! SUPPORT. A WRITE that stops before its last chunk is sent: at a chunk closed with a code other than 0 (R174), or at one
the port does not close (R244). -/

namespace Sys2Proof.Machine

theorem State.waiting_st_ne_idle {s : State} (hw : s.waiting = true) : s.seq.st ≠ .idle := by
  intro hst
  rw [State.waiting, hst] at hw
  cases hw

/-- A command that waits has not written RES (R33, R244). -/
theorem exec_res_of_waiting {i : Instr} {s t : State} (h : exec i s = .next t) (hw : t.waiting = true) :
    t.res = s.res := by
  obtain ⟨hst, -⟩ := exec_cases h
  obtain ⟨u, hu, ⟨hidle, -⟩ | ⟨-, hres⟩⟩ := commandEndsOrWaits i s hst
  all_goals obtain rfl : t = u := Host.Outcome.next.inj (h.symm.trans hu)
  · exact absurd hidle (State.waiting_st_ne_idle hw)
  · exact hres

/-- Only the chunks that have a code are in the events (R139). -/
theorem writeEvents_take (s : State) (d : Descriptor) (ra : RegAddr) (m : Nat) (stop : Bool) (sent : Nat)
    (plan codes : List Nat) :
    writeEvents s d ra m stop sent (plan.take codes.length) codes = writeEvents s d ra m stop sent plan codes := by
  induction plan generalizing sent codes with
  | nil => rw [List.take_nil]
  | cons cl plan ih =>
    cases codes with
    | nil => rfl
    | cons code codes => rw [List.length_cons, List.take_succ_cons, writeEvents, writeEvents, ih]

section
variable {s : State}

/-- A WRITE that has come to chunk `k` of its plan: the WRITE loop stands at `u`, the chunks before it sent and closed
with code 0 (R139, R173). -/
structure WriteAt (s : State) (k : Nat) (cs : List Nat) (u : State) : Prop where
  count : (s.writeRest.take k).length = k
  written : ChunksWritten s u (s.writeRest.take k)
  codes : u.port.codes = cs
  events : ∀ c, s.planEvents s.writeRest (List.replicate k 0 ++ [c]) =
    s.planEvents (s.writeRest.take k) (List.replicate k 0) ++ u.planEvents [u.nextChunk] [c]

theorem writeLoop_comes_to (k fuel : Nat) {s : State} (hw : s.writing) (hst : s.seq.st = .planTx) {cs : List Nat}
    (hk : k < s.writeRest.length) (hcodes : s.port.codes = List.replicate k 0 ++ cs) :
    ∃ u, writeLoop (k + fuel) s = writeLoop fuel u ∧ WriteAt s k cs u := by
  obtain ⟨u, hloop, hu, hrest⟩ := writeLoop_closed k fuel hw hst hk hcodes
  have hfirst : (s.writeRest.take k).length = k := List.length_take_of_le (Nat.le_of_lt hk)
  refine ⟨u, hloop, hfirst, hu, ?_, fun c => ?_⟩
  · rw [hu.codes, hfirst] at hcodes
    exact List.append_cancel_left hcodes
  · have hnext := hrest ▸ hu.writing.writeRest_eq
    have htake : s.writeRest.take (k + 1) = s.writeRest.take k ++ [u.nextChunk] := by
      rw [List.take_add, hnext]
      rfl
    have hevents := hu.planEvents_append [u.nextChunk] [c]
    rw [hfirst, ← htake] at hevents
    rw [← hevents, State.planEvents, State.planEvents, ← writeEvents_take _ _ _ _ _ _ s.writeRest]
    simp only [List.length_append, List.length_replicate, List.length_singleton]

section
variable {u : State} {k : Nat} {cs : List Nat}

/-- The trace with the chunk at which the WRITE stands closed: the transactions of the plan up to it. -/
theorem WriteAt.closeChunk_trace (h : WriteAt s k cs u) (c : Nat) (cs' : List Nat) :
    (closeChunk u c cs').trace = s.trace ++ s.planEvents s.writeRest (List.replicate k 0 ++ [c]) := by
  rw [h.written.writing.closeChunk_trace, h.written.trace, h.count, h.events, List.append_assoc]

/-- The WRITE loop at a chunk closed with a code other than 0 stops there, having counted it (R174). -/
theorem WriteAt.fails {code : Nat} (h : WriteAt s k (code :: cs) u) (hne : code ≠ 0) (fuel : Nat) :
    writeLoop (fuel + 1) u = (closeChunk u code cs).countError.fail .transactionError := by
  obtain ⟨-, hprobe, -⟩ := h.written.writing
  have hclose : stepTxClose (fillTx (planTx u)) = (closeChunk u code cs).countError.fail .transactionError :=
    stepTxClose_of_failing (s := fillTx (planTx u)) hprobe h.codes hne
  rw [writeLoop_succ, hclose]
  exact if_neg nofun

/-- The WRITE loop at a chunk the port does not close stops there, its bytes handed over (R244). -/
theorem WriteAt.waits (h : WriteAt s k [] u) (fuel : Nat) : writeLoop (fuel + 1) u = fillTx (planTx u) := by
  have hclose : stepTxClose (fillTx (planTx u)) = fillTx (planTx u) := stepTxClose_of_no_answer h.codes
  rw [writeLoop_succ, hclose]
  exact if_neg nofun

/-- The trace of a WRITE that waits, with the TxEnd that has not returned put after it. -/
theorem WriteAt.waiting_trace (h : WriteAt s k cs u) :
    (fillTx (planTx u)).trace ++ [.txEnd s.seq.stopf 0] =
      s.trace ++ s.planEvents s.writeRest (List.replicate (k + 1) 0) := by
  obtain ⟨-, hprobe, -⟩ := h.written.writing
  have hstop : (fillTx (planTx u)).stopValue = s.seq.stopf := by
    rw [State.stopValue, fillTx_probe, planTx_probe, hprobe]
    exact h.written.stopf
  rw [List.replicate_succ', ← h.closeChunk_trace 0 [], closeChunk, State.tookCode_trace, hstop]

end

/-- The transactions of an accepted WRITE are those of its plan from BUF as it stands, its unwritten bytes drawn for this
WRITE (R139, assumption 3). -/
theorem acceptWrite_planEvents {d : Descriptor} (hs : s.desc = some d) (ns : Bool) (ra : RegAddr) (m l : Nat)
    (plan codes : List Nat) :
    (acceptWrite s ns ra m l).planEvents plan codes =
      writeEvents { s with draws := s.draws + 1 } d ra m (!ns) 0 plan codes := by
  have hdescr : (acceptWrite s ns ra m l).descr = d := State.descr_of_desc hs
  rw [State.planEvents, hdescr]
  exact writeEvents_congr (s := { s with draws := s.draws + 1 }) (t := acceptWrite s ns ra m l) rfl rfl d ra m (!ns) 0
    plan codes

/-- A WRITE with legal operands whose first `k` chunks are closed with code 0 comes to chunk `k` (R139). -/
theorem exec_write_comes_to {d : Descriptor} (ns : Bool) {e : BitVec 4} (ra : RegAddr) {c : BitVec 16} {m k : Nat}
    {cs : List Nat} (hst : s.seq.st = .idle) (hs : s.desc = some d) (he : effSize e = some m)
    (hfits : m * c.toNat ≤ s.cfg.bufBytes) (hk : k < (writePlan (m * c.toNat) s.cfg.maxChunk m).length)
    (hcodes : s.port.codes = List.replicate k 0 ++ cs) :
    ∃ u fuel, exec (.write ns e ra c) s = .next (writeLoop (fuel + 1) u) ∧
      WriteAt (acceptWrite s ns ra m (m * c.toNat)) k cs u := by
  have hz := transferSize_of_fits he hfits
  obtain ⟨hm, -, hml⟩ := transferSize_sized hz
  have hlen := writePlan_length_le hm s.cfg.eight_le_maxChunk hml
  obtain ⟨spare, hfuel⟩ : ∃ n, m * c.toNat + 1 = k + (n + 1) := ⟨m * c.toNat - k, by omega⟩
  have hw := acceptWrite_writing (ns := ns) (ra := ra) (hs ▸ Option.some_ne_none d) hz
  obtain ⟨u, hloop, hu⟩ := writeLoop_comes_to k (spare + 1) hw rfl hk hcodes
  exact ⟨u, spare, by rw [exec_write_of_legal hst hs hz, hfuel, hloop], hu⟩

end

/-- Settles O36: the WRITE loop comes to chunk `k` with the chunks before it sent, closes it with its code and ends. -/
theorem writeStopsAtFirstFailure : Obligations.WriteStopsAtFirstFailure := by
  intro s d ns e ra c m k code cs hst hs he hfits plan hk hne hcodes
  obtain ⟨u, fuel, hexec, hu⟩ := exec_write_comes_to ns ra hst hs he hfits hk hcodes
  rw [hu.fails hne] at hexec
  obtain ⟨hbuf, hdesc, hcfg, hhost, havails, hbytes, -⟩ := writeFrame _ _ _ _ _ _ hexec
  obtain ⟨-, hprobe, -⟩ := hu.written.writing
  refine ⟨_, hexec, ?_, rfl, rfl, hprobe, ?_, ?_, Port.ext rfl havails hbytes, hu.written.setup.draws, hcfg, hdesc, hbuf,
    hhost⟩
  · rw [← acceptWrite_planEvents hs ns ra m (m * c.toNat)]
    exact hu.closeChunk_trace code cs
  · exact hu.written.sent.trans (Nat.zero_add _)
  · have hcount : nextErrcnt u.cfg u.errcnt = nextErrcnt s.cfg s.errcnt := by
      rw [hu.written.setup.cfg, hu.written.errcnt]
      rfl
    exact hcount

/-- Settles O37: the WRITE loop comes to chunk `k` with the chunks before it sent, and stands where its TxEnd has not
returned. -/
theorem writeWaitsForAnswer : Obligations.WriteWaitsForAnswer := by
  intro s d ns e ra c m k hst hs he hfits plan hk hcodes
  obtain ⟨u, fuel, hexec, hu⟩ := exec_write_comes_to ns ra hst hs he hfits hk (hcodes.trans (List.append_nil _).symm)
  rw [hu.waits] at hexec
  have hwaiting : (fillTx (planTx u)).waiting = true := List.isEmpty_iff.mpr hu.codes
  refine ⟨_, hexec, rfl, hwaiting, exec_res_of_waiting hexec hwaiting, hu.written.errcnt,
    hu.written.sent.trans (Nat.zero_add _), ?_⟩
  rw [← acceptWrite_planEvents hs ns ra m (m * c.toNat)]
  exact hu.waiting_trace

end Sys2Proof.Machine
end

section
/-! SUPPORT. A READ whose address-set phase fails or is not closed (R192, R244). -/

namespace Sys2Proof.Machine

section
variable {s : State} {d : Descriptor} {ra : RegAddr} {m l : Nat}

/-- The block at the TxEnd of the address-set phase of an accepted READ (R192). -/
def addressSet (s : State) (ra : RegAddr) (m l : Nat) : State := fillTx (acceptReadAddressed s ra m l)

/-- A READ whose address-set phase does not lead to its data phase stops at that TxEnd (R192). -/
theorem exec_read_stops_at_addressSet {e : BitVec 4} {c : BitVec 16} (hst : s.seq.st = .idle) (hs : s.desc = some d)
    (hz : transferSize s.cfg e c = some (m, l)) (hr : d.regw ≠ .none)
    (hstop : (stepTxClose (addressSet s ra m l)).seq.st ≠ .planRx) :
    exec (.read e ra c) s = .next (stepTxClose (addressSet s ra m l)) := by
  have hdescr : s.descr = d := State.descr_of_desc hs
  rw [exec_read_of_legal hst hs hz, acceptRead_of_addressed (hdescr ▸ hr), runRead_of_txOpen rfl]
  exact congrArg _ (if_neg hstop)

theorem addressSet_trace (hs : s.desc = some d) :
    (addressSet s ra m l).trace = s.trace ++ (.txBegin d.busaddr :: (addrPhase d ra).map .txWrite) := by
  have hdescr : (acceptReadAddressed s ra m l).descr = d := State.descr_of_desc hs
  have haddr : (acceptReadAddressed s ra m l).addrBytes = addrPhase d ra := by
    rw [State.addrBytes, hdescr]
    exact congrArg (addrPhase d) (chunkAddr_zero ra)
  have hpayload : (acceptReadAddressed s ra m l).chunkPayload = [] := by
    rw [State.chunkPayload, acceptReadAddressed_seq, Nat.zero_div]
    rfl
  rw [addressSet, fillTx_trace, haddr, hpayload, hdescr, List.append_nil]
  rfl

theorem StopPolicy.not_bit (p : StopPolicy) : (!p.bit) = decide (p = .stop) := by
  cases p <;> rfl

/-- The address-set phase is closed with a stop unless NOSTOP is set (R140, R192). -/
theorem addressSet_stopValue (hs : s.desc = some d) :
    (addressSet s ra m l).stopValue = decide (d.nostop = .stop) := by
  have hdescr : s.descr = d := State.descr_of_desc hs
  rw [← StopPolicy.not_bit, ← hdescr]
  rfl

end

/-- Settles O42: the close of the address-set phase fails, and the command ends there. -/
theorem readStopsAtAddressSet : Obligations.ReadStopsAtAddressSet := by
  intro s d e ra c m code cs hst hs he hfits hr hne hcodes
  have hz := transferSize_of_fits he hfits
  have hclose : stepTxClose (addressSet s ra m (m * c.toNat)) =
      ((addressSet s ra m (m * c.toNat)).tookCode code cs).countError.fail .transactionError :=
    stepTxClose_of_failing rfl hcodes hne
  have hexec := exec_read_stops_at_addressSet (ra := ra) hst hs hz hr (by rw [hclose]; nofun)
  rw [hclose] at hexec
  refine ⟨_, hexec, ?_, rfl, rfl, rfl, rfl, rfl, rfl, rfl, rfl, rfl⟩
  rw [State.fail_trace, State.countError_trace, State.tookCode_trace, addressSet_trace hs, addressSet_stopValue hs,
    List.append_assoc]
  rfl

end Sys2Proof.Machine
end

section
/-! SUPPORT. A READ that has come to a chunk of its plan (R193), and where it waits there: for the answer to its request,
or for a byte of it (R194, R195, R244). -/

namespace Sys2Proof.Machine

section
variable {s t v : State} {d : Descriptor} {ra : RegAddr} {m k : Nat} {plan as : List Nat} {bs : List Byte}

/-! ### The elements stored so far -/

/-- An element stored from the bytes received, more of which may have come since (R51, R53, R190). -/
theorem bufElem_of_stored {n i : Nat} {buf : List Host.Cell} (hm : legalSize m)
    (ht : t.buf = storeReceived d m (wireWidth m d.wide) n 0 bs buf) (hlen : wireWidth m d.wide * n ≤ bs.length)
    (hi : i < n) :
    t.bufElem i m =
      receivedValue (wireWidth m d.wide) d ((bs.drop (wireWidth m d.wide * i)).take (wireWidth m d.wide)) := by
  have hend : wireWidth m d.wide * i + wireWidth m d.wide ≤ bs.length := by
    rw [← Nat.mul_succ]
    exact (Nat.mul_le_mul_left _ hi).trans hlen
  have hgroup : ((bs.drop (wireWidth m d.wide * i)).take (wireWidth m d.wide)).length = wireWidth m d.wide :=
    List.length_take_of_le (by rw [List.length_drop]; omega)
  refine bufElem_of_value (receivedValue_lt d hm hgroup) fun k hk => ?_
  have hstored := bufGet_storeReceived d (w := wireWidth m d.wide) (j := 0) bs buf hi hk
  rwa [Nat.zero_add, ← ht] at hstored

/-- Elements stored in two goes are stored as in one (R190). -/
theorem storeReceived_continued (d : Descriptor) {w n : Nat} (m n' : Nat) (part : List Byte) (buf : List Host.Cell)
    (hlen : bs.length = w * n) :
    storeReceived d m w n' n part (storeReceived d m w n 0 bs buf) =
      storeReceived d m w (n + n') 0 (bs ++ part) buf := by
  rw [storeReceived_add, List.drop_left' hlen, storeReceived_append _ _ _ _ _ _ _ _ (Nat.le_of_eq hlen.symm),
    Nat.zero_add]

/-! ### Coming to a chunk -/

/-- The READ of `plan` under `d` has come to chunk `k`: the READ loop stands at `v` of PLAN_RX, the requests before it
granted with `as` and drained as `bs`, their elements stored (R193 to R195). -/
structure ReadAt (s : State) (d : Descriptor) (ra : RegAddr) (m : Nat) (plan : List Nat) (k : Nat) (as : List Nat)
    (bs : List Byte) (v : State) : Prop where
  reading : v.reading
  descr : v.descr = d
  size : v.seq.m = m
  unfinished : v.seq.sent < v.seq.l
  next : plan[k]? = some v.nextChunk
  sent : v.seq.sent = (plan.take k).sum
  errcnt : v.errcnt = s.errcnt
  trace : v.trace = s.trace ++ (addressSetEvents d ra 0 ++ readEvents d (wireWidth m d.wide) (plan.take k) as bs)
  buf : v.buf = storeReceived d m (wireWidth m d.wide) ((plan.take k).sum / m) 0 bs s.buf

theorem ReadAt.w (h : ReadAt s d ra m plan k as bs v) : v.seq.w = wireWidth m d.wide := by
  obtain ⟨-, -, -, -, hw⟩ := h.reading
  rw [hw, h.size, h.descr]

theorem ReadAt.size_legal (h : ReadAt s d ra m plan k as bs v) : legalSize m := by
  obtain ⟨-, -, ⟨hm, -⟩, -⟩ := h.reading
  rwa [h.size] at hm

theorem ReadAt.size_dvd (h : ReadAt s d ra m plan k as bs v) : m ∣ (plan.take k).sum := by
  obtain ⟨-, -, ⟨-, -, -, -, hms⟩, -⟩ := h.reading
  rwa [h.size, h.sent] at hms

theorem ReadAt.nextChunk (h : ReadAt s d ra m plan k as bs v) (hk : k < plan.length) : v.nextChunk = plan[k] := by
  have hnext := h.next
  rw [List.getElem?_eq_getElem hk] at hnext
  exact (Option.some.inj hnext).symm

/-- The elements of the chunks before the one the READ has come to. -/
theorem ReadAt.bufElem (h : ReadAt s d ra m plan k as bs v) (hbuf : t.buf = v.buf)
    (hlen : bs.length = wireWidth m d.wide * ((plan.take k).sum / m)) {i : Nat} (hi : i < (plan.take k).sum / m) :
    t.bufElem i m =
      receivedValue (wireWidth m d.wide) d ((bs.drop (wireWidth m d.wide * i)).take (wireWidth m d.wide)) :=
  bufElem_of_stored h.size_legal (hbuf.trans h.buf) (Nat.le_of_eq hlen.symm) hi

theorem ReadAt.bufGet_above (h : ReadAt s d ra m plan k as bs v) {x : Nat} (hx : (plan.take k).sum ≤ x) :
    bufGet v.buf x = bufGet s.buf x := by
  have hdone : (0 + (plan.take k).sum / m) * m = (plan.take k).sum := by
    rw [Nat.zero_add, Nat.div_mul_cancel h.size_dvd]
  rw [h.buf, bufGet_storeReceived_other _ _ _ (.inr (hdone.trans_le hx))]

theorem DataPhase.w {l : Nat} {cs : List Nat} {u : State} (hu : DataPhase s ra m l cs u) (hs : s.desc = some d) :
    u.seq.w = wireWidth m d.wide := by
  obtain ⟨-, -, -, -, hw⟩ := hu.reading
  rw [hw, hu.m, State.descr_of_desc (hu.desc.trans hs)]

theorem DataPhase.restPlan {l : Nat} {cs : List Nat} {u : State} (hu : DataPhase s ra m l cs u) :
    u.restPlan = chunkPlan l s.cfg.maxChunk m := by
  rw [State.restPlan, hu.l, hu.sent, hu.cfg, hu.m, Nat.sub_zero]

/-- Where the first `k` chunks have been read from the data phase on, the READ has come to chunk `k`. -/
theorem DataPhase.comes_to {l : Nat} {cs : List Nat} {u : State} (hu : DataPhase s ra m l cs u) (hs : s.desc = some d)
    (hplan : plan = chunkPlan l s.cfg.maxChunk m) (hk : k < plan.length)
    (hv : ChunksRead u v (plan.take k) as bs) : ReadAt s d ra m plan k as bs v := by
  obtain ⟨-, -, ⟨hm, -, hml, -⟩, -⟩ := hu.reading
  rw [hu.m] at hm hml
  rw [hu.l] at hml
  have hmax := s.cfg.eight_le_maxChunk
  have hdescr : s.descr = d := State.descr_of_desc hs
  have hudescr : u.descr = d := State.descr_of_desc (hu.desc.trans hs)
  have hsent : v.seq.sent = (plan.take k).sum := by rw [hv.sent, hu.sent, Nat.zero_add]
  have hvl : v.seq.l = l := hv.setup.l.trans hu.l
  have hvm : v.seq.m = m := hv.m.trans hu.m
  have hnext : plan[k] = v.nextChunk := by
    rw [State.nextChunk, hvl, hsent, hvm, hv.setup.cfg, hu.cfg]
    subst hplan
    exact chunkPlan_getElem hm hmax hml k hk
  have hpos : 0 < plan[k] := by
    subst hplan
    exact (chunkPlan_mem hm hmax hml _ (List.getElem_mem hk)).1
  have hle : v.nextChunk ≤ v.seq.l - v.seq.sent := chunkLen_le_rem _ _ _
  exact
    { reading := hv.reading
      descr := hv.setup.descr.trans hudescr
      size := hvm
      unfinished := by omega
      next := by rw [List.getElem?_eq_getElem hk, hnext]
      sent := hsent
      errcnt := hv.errcnt.trans hu.errcnt
      trace := by rw [hv.trace, hu.trace, hudescr, hdescr, hu.w hs, List.append_assoc]
      buf := by rw [hv.buf, hudescr, hu.m, hu.w hs, hu.sent, hu.buf, Nat.zero_div] }

/-- A READ with legal operands whose address-set phase is closed with code 0 and whose first `k` requests are granted and
drained comes to chunk `k` (R190). -/
theorem exec_read_comes_to {e : BitVec 4} (ra : RegAddr) {c : BitVec 16} {cs rest : List Nat} {more : List Byte}
    (hst : s.seq.st = .idle) (hs : s.desc = some d) (he : effSize e = some m)
    (hfits : m * c.toNat ≤ s.cfg.bufBytes) (hplan : plan = chunkPlan (m * c.toNat) s.cfg.maxChunk m)
    (hk : k < plan.length) (hcodes : s.port.codes = if d.regw = .none then cs else 0 :: cs)
    (ha : s.port.avails = as ++ rest)
    (hgrant : List.Forall₂ (fun cl a => wireLen (wireWidth m d.wide) cl ≤ a) (plan.take k) as)
    (hb : s.port.bytes = bs ++ more) (hlen : bs.length = wireWidth m d.wide * ((plan.take k).sum / m)) :
    ∃ v fuel, exec (.read e ra c) s = .next (readLoop (fuel + 1) v) ∧ ReadAt s d ra m plan k as bs v ∧
      v.port = { codes := cs, avails := rest, bytes := more } := by
  have hz := transferSize_of_fits he hfits
  obtain ⟨hm, -, hml⟩ := transferSize_sized hz
  obtain ⟨u, hrun, hu⟩ := runRead_enters_data ra (hs ▸ Option.some_ne_none d) hz
    (by rw [hcodes, State.descr_of_desc hs])
  have hrest : u.restPlan = plan := hu.restPlan.trans hplan.symm
  have hua : u.port.avails = as ++ rest := by rw [hu.port, ← ha]
  have hub : u.port.bytes = bs ++ more := by rw [hu.port, ← hb]
  obtain ⟨-, hcount⟩ := chunkPlan_sum_length hm s.cfg.eight_le_maxChunk hml
  rw [← hplan] at hcount
  obtain ⟨spare, hfuel⟩ : ∃ n, m * c.toNat + 1 = k + (n + 1) := ⟨m * c.toNat - k, by omega⟩
  obtain ⟨v, hloop, hv⟩ := readLoop_granted k (spare + 1) hu.reading hu.st (by rw [hrest]; exact Nat.le_of_lt hk) hua
    (by rwa [hrest, hu.w hs]) hub (by rwa [hrest, hu.w hs, hu.m])
  rw [hrest] at hv
  exact ⟨v, spare, by rw [exec_read_of_legal hst hs hz, hrun, hfuel, hloop], hu.comes_to hs hplan hk hv,
    by rw [hv.port_left hua hub, hu.port]⟩

/-! ### Waiting there -/

/-- The READ loop at a chunk whose request is not answered stops in RX_REQ (R244). -/
theorem readLoop_of_no_answer (fuel : Nat) (hlt : v.seq.sent < v.seq.l) (ha : v.port.avails = []) :
    readLoop (fuel + 1) v = planRx v := by
  have hreq : stepRxReq (planRx v) = planRx v := stepRxReq_of_no_answer ha
  rw [readLoop_succ, if_neg (Nat.not_le.mpr hlt), hreq]
  exact if_neg nofun

/-- A drain to which the port gives fewer bytes than were requested absorbs them and waits (R137, R244). -/
theorem drainChunk_of_part (h : s.port.bytes.length < s.seq.req) :
    drainChunk s = { s with
      port := { s.port with bytes := [] }
      trace := s.trace ++ s.port.bytes.map .rxRead
      buf := storeReceived s.descr s.seq.m s.seq.w (s.port.bytes.length / s.seq.w) (s.seq.sent / s.seq.m) s.port.bytes
        s.buf
      seq := { s.seq with
        st := .rxDrain, idx := s.port.bytes.length
        acc := BitVec.ofNat 64
          (unmarshal (s.port.bytes.drop (s.seq.w * (s.port.bytes.length / s.seq.w))) s.descr.datalsb) } } := by
  simp only [drainChunk, List.take_of_length_le h.le, List.drop_of_length_le h.le, if_neg h.ne]

/-- The state in which a READ waits for a byte of the chunk after the bytes `part` of it (R137, R244). -/
def waitingForByte (v : State) (a : Nat) (rest : List Nat) (part : List Byte) : State :=
  { planRx v with
    port := { v.port with avails := rest, bytes := [] }
    trace := v.trace ++ (.rxRequest v.descr.busaddr (wireLen v.seq.w v.nextChunk) a :: part.map .rxRead)
    buf := storeReceived v.descr v.seq.m v.seq.w (part.length / v.seq.w) (v.seq.sent / v.seq.m) part v.buf
    seq := { (planRx v).seq with
      st := .rxDrain, idx := part.length
      acc := BitVec.ofNat 64 (unmarshal (part.drop (v.seq.w * (part.length / v.seq.w))) v.descr.datalsb) } }

/-- The READ loop at a chunk whose request is granted but not all of whose bytes come stops in RX_DRAIN (R195, R244). -/
theorem readLoop_of_part (fuel : Nat) (hlt : v.seq.sent < v.seq.l) {a : Nat} {rest : List Nat} {part : List Byte}
    (ha : v.port.avails = a :: rest) (hb : v.port.bytes = part) (hgrant : wireLen v.seq.w v.nextChunk ≤ a)
    (hpart : part.length < wireLen v.seq.w v.nextChunk) :
    readLoop (fuel + 1) v = waitingForByte v a rest part := by
  subst hb
  have hreq : stepRxReq (planRx v) = ((planRx v).tookAvail a rest).goto .rxDrain :=
    stepRxReq_of_granted (s := planRx v) ha hgrant
  have hdrain : drainChunk (((planRx v).tookAvail a rest).goto .rxDrain) = waitingForByte v a rest v.port.bytes := by
    rw [drainChunk_of_part (s := ((planRx v).tookAvail a rest).goto .rxDrain) hpart]
    apply State.ext
    case trace => exact List.append_assoc _ _ _
    all_goals rfl
  rw [readLoop_succ, if_neg (Nat.not_le.mpr hlt), hreq, hdrain]
  exact (if_pos rfl).trans (if_neg nofun)

/-- BUF where a READ waits for a byte: every element is stored of which all the bytes have come (R137). -/
theorem ReadAt.waitingForByte_buf (h : ReadAt s d ra m plan k as bs v)
    (hlen : bs.length = wireWidth m d.wide * ((plan.take k).sum / m)) (a : Nat) (rest : List Nat) (part : List Byte) :
    (waitingForByte v a rest part).buf =
      storeReceived d m (wireWidth m d.wide) ((plan.take k).sum / m + part.length / wireWidth m d.wide) 0 (bs ++ part)
        s.buf := by
  rw [← storeReceived_continued d m _ part s.buf hlen, ← h.buf]
  show storeReceived _ _ _ _ _ _ _ = _
  rw [h.descr, h.size, h.w, h.sent]

theorem ReadAt.waitingForByte_trace (h : ReadAt s d ra m plan k as bs v) (hk : k < plan.length) (a : Nat)
    (rest : List Nat) (part : List Byte) :
    (waitingForByte v a rest part).trace = s.trace ++ (addressSetEvents d ra 0 ++
      (readEvents d (wireWidth m d.wide) (plan.take k) as bs ++
        (.rxRequest d.busaddr (wireLen (wireWidth m d.wide) plan[k]) a :: part.map .rxRead))) := by
  show v.trace ++ _ = _
  rw [h.trace, h.descr, h.w, h.nextChunk hk, List.append_assoc, List.append_assoc]

end

/-- Settles O44: the address-set phase waits at its TxEnd; a READ that has come to chunk `k` waits for the answer to its
request, or in its drain. -/
theorem readWaitsForAnswer : Obligations.ReadWaitsForAnswer := by
  intro s d e ra c m hst hs he hfits w plan
  refine ⟨?_, ?_, ?_⟩
  · intro hr hcodes
    have hclose : stepTxClose (addressSet s ra m (m * c.toNat)) = addressSet s ra m (m * c.toNat) :=
      stepTxClose_of_no_answer hcodes
    have hexec := exec_read_stops_at_addressSet (ra := ra) hst hs (transferSize_of_fits he hfits) hr
      (by rw [hclose]; nofun)
    rw [hclose] at hexec
    exact ⟨_, hexec, rfl, List.isEmpty_iff.mpr hcodes, rfl, rfl, rfl, rfl, addressSet_trace hs⟩
  · intro k cs as bs more hk done hcodes ha hgrant hb hlen
    obtain ⟨v, fuel, hexec, hv, hport⟩ := exec_read_comes_to (rest := []) ra hst hs he hfits rfl hk hcodes
      (ha.trans (List.append_nil as).symm) hgrant hb hlen
    have hvavails : v.port.avails = [] := by rw [hport]
    rw [readLoop_of_no_answer fuel hv.unfinished hvavails] at hexec
    have hwaiting : (planRx v).waiting = true := List.isEmpty_iff.mpr hvavails
    exact ⟨_, hexec, rfl, hwaiting, exec_res_of_waiting hexec hwaiting, hv.errcnt, hv.sent,
      fun i hi => hv.bufElem rfl hlen hi, fun x hx => hv.bufGet_above hx, hv.trace, hport⟩
  · intro k a cs as rest bs part hk done hcodes ha hgrant hle hb hlen hpart
    obtain ⟨v, fuel, hexec, hv, hport⟩ := exec_read_comes_to ra hst hs he hfits rfl hk hcodes ha hgrant hb hlen
    have hreq : wireLen v.seq.w v.nextChunk = wireLen w plan[k] := by rw [hv.w, hv.nextChunk hk]
    rw [readLoop_of_part fuel hv.unfinished (a := a) (rest := rest) (part := part) (by rw [hport]) (by rw [hport])
      (by rwa [hreq]) (by rwa [hreq])] at hexec
    have hbuf := hv.waitingForByte_buf hlen a rest part
    have hcome : w * (done / m + part.length / w) ≤ (bs ++ part).length := by
      rw [Nat.mul_add, List.length_append, hlen]
      exact Nat.add_le_add_left (Nat.mul_div_le _ _) _
    refine ⟨_, hexec, rfl, rfl, exec_res_of_waiting hexec rfl, hv.errcnt, hv.sent, rfl,
      fun i hi => bufElem_of_stored hv.size_legal hbuf hcome hi, fun x hx => ?_, hv.waitingForByte_trace hk a rest part,
      ?_⟩
    · rw [hbuf, bufGet_storeReceived_other _ _ _ (.inr (by rwa [Nat.zero_add, Nat.mul_comm]))]
    · exact congrArg (fun p : Port => { p with avails := rest, bytes := [] }) hport

end Sys2Proof.Machine
end

section
/-! SUPPORT. The payload bytes a WRITE hands over (R100, R139), and the READ that is given them back (R132). -/

namespace Sys2Proof.Machine

/-! ### The wire bytes of elements -/

section
variable {s : State} {o : ByteOrder} {m n : Nat}

theorem elementBytes_add (s : State) (o : ByteOrder) (m j n n' : Nat) :
    elementBytes s o m j (n + n') = elementBytes s o m j n ++ elementBytes s o m (j + n) n' := by
  simp only [elementBytes, List.range_add, List.flatMap_append, List.flatMap_map, Nat.add_assoc]

theorem elementBytes_one (s : State) (o : ByteOrder) (m j : Nat) :
    elementBytes s o m j 1 = marshal (s.bufElem j m) m o :=
  List.append_nil _

theorem elementBytes_length (s : State) (o : ByteOrder) (m j n : Nat) : (elementBytes s o m j n).length = m * n := by
  induction n with
  | zero => rfl
  | succ n ih => rw [elementBytes_add, List.length_append, ih, elementBytes_one, marshal_length, Nat.mul_succ]

/-- The bytes of one element among those of several (R100). -/
theorem elementBytes_group (j : Nat) {i : Nat} (hi : i < n) :
    ((elementBytes s o m j n).drop (m * i)).take m = marshal (s.bufElem (j + i) m) m o := by
  obtain ⟨rest, rfl⟩ : ∃ r, n = i + (1 + r) := ⟨n - i - 1, by omega⟩
  rw [elementBytes_add, elementBytes_add, elementBytes_one, List.drop_left' (elementBytes_length s o m j i),
    List.take_left' (marshal_length _ m o)]

/-- As many elements as the transfer's bytes hold are its COUNT; elements of no bytes have no wire bytes (R122). -/
theorem elementBytes_mul_div (s : State) (o : ByteOrder) (m j n : Nat) :
    elementBytes s o m j (m * n / m) = elementBytes s o m j n := by
  rcases Nat.eq_zero_or_pos m with rfl | hm
  · have hnone (k : Nat) : elementBytes s o 0 j k = [] :=
      List.eq_nil_of_length_eq_zero ((elementBytes_length s o 0 j k).trans (Nat.zero_mul k))
    rw [hnone, hnone]
  · rw [Nat.mul_div_cancel_left n hm]

theorem bufElem_lt (s : State) (j m : Nat) : s.bufElem j m < 256 ^ m := by
  have hlt := ofBytesLE_lt ((List.range m).map fun k => s.bufByte (j * m + k))
  rwa [List.length_map, List.length_range] at hlt

end

/-! ### The payload in a trace -/

section
variable (n : Nat) (es : List Event)

theorem sentPayloadFrom_txBegin (k : Nat) (a7 : BusAddr) :
    sentPayloadFrom n k (.txBegin a7 :: es) = sentPayloadFrom n n es := by
  cases k <;> rfl

theorem sentPayloadFrom_txEnd (k : Nat) (stop : Bool) (code : Nat) :
    sentPayloadFrom n k (.txEnd stop code :: es) = sentPayloadFrom n k es := by
  cases k <;> rfl

/-- The address bytes are passed over. -/
theorem sentPayloadFrom_address (bs : List Byte) :
    sentPayloadFrom n bs.length (bs.map .txWrite ++ es) = sentPayloadFrom n 0 es := by
  induction bs with
  | nil => rfl
  | cons b bs ih => exact ih

/-- The bytes after them are payload. -/
theorem sentPayloadFrom_payload (bs : List Byte) :
    sentPayloadFrom n 0 (bs.map .txWrite ++ es) = bs ++ sentPayloadFrom n 0 es := by
  induction bs with
  | nil => rfl
  | cons b bs ih => exact congrArg (b :: ·) ih

end

theorem addrPhase_length (d : Descriptor) (a : RegAddr) : (addrPhase d a).length = d.regw.bytes := by
  cases hr : d.regw with
  | none => rw [addrPhase_of_none hr]; rfl
  | one => rw [addrPhase_of_one hr]; rfl
  | two =>
    cases ho : d.reglsb with
    | msbFirst => rw [addrPhase_of_two_msb hr ho]; rfl
    | lsbFirst => rw [addrPhase_of_two_lsb hr ho]; rfl

/-- The payload of one write transaction before others (R100). -/
theorem sentPayloadFrom_txEvents (d : Descriptor) (k : Nat) (a : RegAddr) (payload : List Byte) (stop : Bool)
    (code : Nat) (es : List Event) :
    sentPayloadFrom d.regw.bytes k (txEvents d a payload stop code ++ es) =
      payload ++ sentPayloadFrom d.regw.bytes 0 es := by
  have haddress := sentPayloadFrom_address d.regw.bytes (payload.map .txWrite ++ (.txEnd stop code :: es)) (addrPhase d a)
  rw [addrPhase_length] at haddress
  rw [txEvents, List.cons_append, sentPayloadFrom_txBegin, List.map_append, List.append_assoc, List.append_assoc,
    List.singleton_append, haddress, sentPayloadFrom_payload, sentPayloadFrom_txEnd]

/-- The payload of the transactions of a plan of whole elements is the elements' bytes (R100, R139). -/
theorem sentPayloadFrom_writeEvents (s : State) (d : Descriptor) (ra : RegAddr) {m : Nat} (stop : Bool) (k : Nat)
    {sent : Nat} {plan codes : List Nat} (hsent : m ∣ sent) (hplan : ∀ cl ∈ plan, m ∣ cl)
    (hcodes : codes.length = plan.length) :
    sentPayloadFrom d.regw.bytes k (writeEvents s d ra m stop sent plan codes) =
      elementBytes s d.datalsb m (sent / m) (plan.sum / m) := by
  induction plan generalizing sent codes k with
  | nil =>
    rw [List.sum_nil, Nat.zero_div]
    cases k <;> rfl
  | cons cl plan ih =>
    cases codes with
    | nil => cases hcodes
    | cons code codes =>
      have hcl : m ∣ cl := hplan cl List.mem_cons_self
      rw [writeEvents, sentPayloadFrom_txEvents,
        ih 0 (Nat.dvd_add hsent hcl) (fun x hx => hplan x (List.mem_cons_of_mem cl hx)) (Nat.succ.inj hcodes),
        List.sum_cons, Nat.add_div_of_dvd_right hsent, Nat.add_div_of_dvd_right hcl, elementBytes_add]

theorem writePlan_dvd_sum {l c m : Nat} (hm : legalSize m) (hc : 8 ≤ c) (hd : m ∣ l) :
    (∀ cl ∈ writePlan l c m, m ∣ cl) ∧ (writePlan l c m).sum = l := by
  unfold writePlan
  split
  · rename_i hl
    refine ⟨fun cl hcl => ?_, hl.symm⟩
    rw [List.mem_singleton.mp hcl]
    exact Nat.dvd_zero m
  · exact ⟨fun cl hcl => (chunkPlan_mem hm hc hd cl hcl).2.1, (chunkPlan_sum_length hm hc hd).1⟩

/-- A WRITE that closes every chunk with code 0 has handed over the bytes of its COUNT elements (R100, R139). -/
theorem sentPayload_writeEvents (s : State) (d : Descriptor) (ra : RegAddr) {m n cap : Nat} (stop : Bool)
    (hm : legalSize m) (hcap : 8 ≤ cap) :
    sentPayload d.regw.bytes (writeEvents s d ra m stop 0 (writePlan (m * n) cap m)
      (List.replicate (writePlan (m * n) cap m).length 0)) = elementBytes s d.datalsb m 0 n := by
  obtain ⟨hdvd, hsum⟩ := writePlan_dvd_sum hm hcap (Nat.dvd_mul_right m n)
  rw [sentPayload, sentPayloadFrom_writeEvents s d ra stop _ (Nat.dvd_zero m) hdvd List.length_replicate, hsum,
    Nat.zero_div, elementBytes_mul_div]

/-- Where elements are not wide a chunk has as many bytes on the wire as in memory (R101, R121). -/
theorem wireLen_of_not_wide {m : Nat} {wd : WideMode} (hm : legalSize m) (h : m ≠ 4 ∨ wd = .plain) (cl : Nat) :
    wireLen (wireWidth m wd) cl = cl := by
  have h3 : m ≠ 3 := by unfold legalSize at hm; omega
  rw [wireWidth_of_not_wide h, wireLen, if_neg h3]

/-- Settles O45: the WRITE hands over the bytes of its elements, the READ takes each element from the bytes made of it,
and Unmarshal undoes Marshal. -/
theorem writeThenReadReturnsElements : Obligations.WriteThenReadReturnsElements := by
  intro s d ns e ra c m cs as rest hst hs he hfits hwide hcodes ha hgrant
  have hm := effSize_legal he
  obtain ⟨t, hwrite, htrace, -, htst, -, -, -, hport, -, hcfg, hdesc, -⟩ :=
    writeSucceeds s d ns e ra c m _ hst hs he hfits hcodes
  refine ⟨t, _, hwrite, htrace, fun buf more => ?_⟩
  rw [sentPayload_writeEvents _ d ra (!ns) hm s.cfg.eight_le_maxChunk]
  generalize ({ s with draws := s.draws + 1 } : State) = sender
  have hwidth : wireWidth m d.wide = m := wireWidth_of_not_wide hwide
  obtain ⟨u, hread, helements, -, -, hres, -⟩ := readSucceeds
    { t with buf := buf, port := { t.port with bytes := elementBytes sender d.datalsb m 0 c.toNat ++ more } }
    d e ra c m cs as rest (elementBytes sender d.datalsb m 0 c.toNat) more htst (hdesc.trans hs) he
    (hfits.trans_eq (by rw [hcfg])) (by rw [hport]) (by rw [hport]; exact ha)
    (by simpa only [wireLen_of_not_wide hm hwide, hcfg] using hgrant) rfl (by rw [elementBytes_length, hwidth])
  refine ⟨u, hread, hres, fun i hi => ?_⟩
  obtain ⟨helement, -⟩ := helements i hi
  have hgroup : ((elementBytes sender d.datalsb m 0 c.toNat).drop (wireWidth m d.wide * i)).take (wireWidth m d.wide) =
      marshal (sender.bufElem i m) m d.datalsb := by
    rw [hwidth, elementBytes_group 0 hi, Nat.zero_add]
  rw [helement, hgroup, receivedValue_marshal d hm (bufElem_lt sender i m) hwide]

end Sys2Proof.Machine
end

section
/-! SUPPORT. CONFIGURE and RELEASE: the word CONFIGURE stores (R23, R90, R160), and the uninitialized block RELEASE leaves
(R161, R241). -/

namespace Sys2Proof.Machine

/-- A command that succeeds in IDLE writes RES alone (R10). -/
theorem State.succeed_of_idle {s : State} (hst : s.seq.st = .idle) (v : Word32) :
    s.succeed v = { s with res := Result.success v } := by
  apply State.ext
  case seq => exact Latches.ext hst.symm rfl rfl rfl rfl rfl rfl rfl rfl rfl rfl rfl
  all_goals rfl

/-! ### The word CONFIGURE stores -/

/-- DFLAGS with bit 31, which is ignored on input, forced to 1 (R90, R160). -/
def storedFlags (f : Word32) : Word32 := 1#1 ++ f.extractLsb' 0 31

section
variable (f : Word32)

theorem storedFlags_valid : (storedFlags f).extractLsb' 31 1 = 1 := BitVec.extractLsb'_append_eq_left

theorem storedFlags_extractLsb' {start len : Nat} (h : start + len ≤ 31) :
    (storedFlags f).extractLsb' start len = f.extractLsb' start len := by
  rw [storedFlags, BitVec.extractLsb'_append_eq_of_add_le h, BitVec.extractLsb'_extractLsb'_of_le h]

theorem storedFlags_getLsbD {k : Nat} (h : k < 31) : (storedFlags f).getLsbD k = f.getLsbD k := by
  have hbit := congrArg (fun b => b.getLsbD 0) (storedFlags_extractLsb' f (start := k) (len := 1) h)
  simpa only [BitVec.getLsbD_extractLsb', Nat.add_zero, Nat.zero_lt_one, decide_true, Bool.true_and] using hbit

/-- Bit 31 of DFLAGS does not decide what it stands for (R90). -/
theorem Descriptor.ofFlags_storedFlags : Descriptor.ofFlags (storedFlags f) = Descriptor.ofFlags f := by
  unfold Descriptor.ofFlags
  simp (disch := decide) only [storedFlags_extractLsb', storedFlags_getLsbD]

end

section
variable {f w : Word32} {d : Descriptor}

/-- The fields of R23, bit 7 and bits 30:15 being zero and VALID set. -/
theorem Descriptor.eq_word_iff :
    w = d.word ↔
      w.extractLsb' 31 1 = 1 ∧ w.extractLsb' 15 16 = 0 ∧ w.extractLsb' 13 2 = d.wide.bits ∧
        w.extractLsb' 12 1 = BitVec.ofBool d.nostop.bit ∧ w.extractLsb' 11 1 = BitVec.ofBool d.datalsb.bit ∧
        w.extractLsb' 10 1 = BitVec.ofBool d.reglsb.bit ∧ w.extractLsb' 8 2 = d.regw.bits ∧
        w.extractLsb' 7 1 = 0 ∧ w.extractLsb' 0 7 = d.busaddr := by
  have hword : w.extractLsb' 0 (1 + 16 + 2 + 1 + 1 + 1 + 2 + 1 + 7) = w := BitVec.extractLsb'_eq_self
  have hparts := extractLsb'_eq_append_iff w 0 (1#1 ++ 0#16 ++ d.wide.bits ++ BitVec.ofBool d.nostop.bit ++
    BitVec.ofBool d.datalsb.bit ++ BitVec.ofBool d.reglsb.bit ++ d.regw.bits ++ 0#1) d.busaddr
  rw [hword] at hparts
  iterate 7 rw [extractLsb'_eq_append_iff] at hparts
  simp only [and_assoc] at hparts
  exact hparts

theorem eq_of_ne_three : ∀ b : BitVec 2, b ≠ 3 → b = 0 ∨ b = 1 ∨ b = 2 := by decide

theorem RegWidth.exists_bits {b : BitVec 2} (h : b ≠ 3) : ∃ r : RegWidth, b = r.bits := by
  obtain rfl | rfl | rfl := eq_of_ne_three b h
  · exact ⟨.none, rfl⟩
  · exact ⟨.one, rfl⟩
  · exact ⟨.two, rfl⟩

theorem WideMode.exists_bits {b : BitVec 2} (h : b ≠ 3) : ∃ m : WideMode, b = m.bits := by
  obtain rfl | rfl | rfl := eq_of_ne_three b h
  · exact ⟨.plain, rfl⟩
  · exact ⟨.signed24, rfl⟩
  · exact ⟨.unsigned24, rfl⟩

theorem ByteOrder.exists_bit (b : BitVec 1) : ∃ o : ByteOrder, b = BitVec.ofBool o.bit := by
  obtain rfl | rfl := BitVec.eq_zero_or_eq_one b
  · exact ⟨.msbFirst, rfl⟩
  · exact ⟨.lsbFirst, rfl⟩

theorem StopPolicy.exists_bit (b : BitVec 1) : ∃ p : StopPolicy, b = BitVec.ofBool p.bit := by
  obtain rfl | rfl := BitVec.eq_zero_or_eq_one b
  · exact ⟨.stop, rfl⟩
  · exact ⟨.noStop, rfl⟩

/-- DFLAGS is illegal for a reserved bit that is set or a reserved field value (R90, R91 e). -/
theorem legalDflags_eq_false_iff :
    legalDflags f = false ↔
      f.extractLsb' 7 1 ≠ 0 ∨ f.extractLsb' 15 16 ≠ 0 ∨ f.extractLsb' 8 2 = 3 ∨ f.extractLsb' 13 2 = 3 := by
  simp only [legalDflags, Bool.and_eq_false_iff, beq_eq_false_iff_ne, bne_eq_false_iff_eq, or_assoc]

/-- A legal DFLAGS with bit 31 set is the word of a descriptor (R23, R160). -/
theorem exists_word_eq_storedFlags (hf : legalDflags f ≠ false) : ∃ d : Descriptor, d.word = storedFlags f := by
  simp only [ne_eq, legalDflags_eq_false_iff, not_or, not_not] at hf
  obtain ⟨h7, h15, hregw, hwide⟩ := hf
  obtain ⟨regw, hregw⟩ := RegWidth.exists_bits hregw
  obtain ⟨wide, hwide⟩ := WideMode.exists_bits hwide
  obtain ⟨reglsb, hreglsb⟩ := ByteOrder.exists_bit (f.extractLsb' 10 1)
  obtain ⟨datalsb, hdatalsb⟩ := ByteOrder.exists_bit (f.extractLsb' 11 1)
  obtain ⟨nostop, hnostop⟩ := StopPolicy.exists_bit (f.extractLsb' 12 1)
  refine ⟨⟨f.extractLsb' 0 7, regw, reglsb, datalsb, nostop, wide⟩, (Descriptor.eq_word_iff.mpr ?_).symm⟩
  simp (disch := decide) only [storedFlags_extractLsb', and_true]
  exact ⟨storedFlags_valid f, h15, hwide, hnostop, hdatalsb, hreglsb, hregw, h7⟩

theorem Descriptor.ofFlags_of_word_eq (h : d.word = storedFlags f) : Descriptor.ofFlags f = some d := by
  rw [← Descriptor.ofFlags_storedFlags, ← h, Descriptor.ofFlags_word]

theorem exec_configure_of_legal {s : State} (hst : s.seq.st = .idle) (hf : Descriptor.ofFlags f = some d) :
    exec (.configure f) s = .next (({ s with desc := some d }).succeed 0) := by
  simp only [exec, execConfigure, whenIdle_of_idle hst, hf]

end

/-- Settles O15: an illegal DFLAGS stands for no descriptor; a legal one stands for the descriptor whose word it is with
bit 31 set. -/
theorem configureStoresDescriptor : Obligations.ConfigureStoresDescriptor := by
  refine ⟨rfl, fun f s hst => ?_⟩
  split
  · rename_i hillegal
    have hf : legalDflags f = false := legalDflags_eq_false_iff.mpr hillegal
    rw [exec_configure_of_illegal hst (Descriptor.ofFlags_of_illegal hf), State.fail_of_idle hst]
    rfl
  · rename_i hlegal
    obtain ⟨d, hword⟩ := exists_word_eq_storedFlags (mt legalDflags_eq_false_iff.mp hlegal)
    refine ⟨d, hword, ?_⟩
    rw [exec_configure_of_legal hst (Descriptor.ofFlags_of_word_eq hword),
      State.succeed_of_idle (s := { s with desc := some d }) hst]
    rfl

/-! ### The uninitialized block -/

section
variable {s t u : State} {i : Instr}

/-- Only an initialized block goes to the port (R241, R252). -/
theorem Accepts.desc_ne_none (h : Accepts s i u) : s.desc ≠ none := by
  cases h <;> assumption

/-- A command but CONFIGURE leaves an uninitialized block uninitialized, and ends at once (R161, R162, R241). -/
theorem exec_keeps_uninitialized (h : exec i s = .next t) (hs : s.desc = none) (hi : ∀ f, i ≠ .configure f) :
    t.seq.st = .idle ∧ t.desc = none := by
  obtain ⟨-, hnow | ⟨u, hacc, -⟩⟩ := exec_cases h
  · obtain ⟨hst, -⟩ := hnow.ended
    refine ⟨hst, ?_⟩
    cases hnow with
    | refused | errcount | clrerr => exact hs
    | configure => exact absurd rfl (hi _)
    | release => rfl
  · exact absurd hs hacc.desc_ne_none

/-- Any commands but CONFIGURE are executed to the end by an uninitialized block, which they leave uninitialized. -/
theorem execAll_keeps_uninitialized (later : List Instr) (hlater : ∀ f, Instr.configure f ∉ later)
    (hst : s.seq.st = .idle) (hs : s.desc = none) :
    ∃ u, execAll later s = some u ∧ u.seq.st = .idle ∧ u.desc = none := by
  induction later generalizing s with
  | nil => exact ⟨s, rfl, hst, hs⟩
  | cons i later ih =>
    obtain ⟨t, hexec⟩ := exec_of_idle i hst
    have hi : ∀ f, i ≠ .configure f := fun f hf => hlater f (hf ▸ List.mem_cons_self)
    obtain ⟨htst, ht⟩ := exec_keeps_uninitialized hexec hs hi
    simp only [execAll, hexec]
    exact ih (fun f hf => hlater f (List.mem_cons_of_mem i hf)) htst ht

/-- The refusal of an uninitialized block comes before the operand checks, and writes RES alone (R241, R252). -/
theorem exec_of_uninitialized (hst : s.seq.st = .idle) (hs : s.desc = none)
    (hi : (∃ ns e ra c, i = .write ns e ra c) ∨ (∃ e ra c, i = .read e ra c) ∨ i = .probe) :
    exec i s = .next { s with res := Result.failure .notInitialized } := by
  rw [← State.fail_of_idle hst]
  obtain ⟨ns, e, ra, c, rfl⟩ | ⟨e, ra, c, rfl⟩ | rfl := hi
  · simp only [exec, execWrite, whenIdle_of_idle hst, hs]
  · simp only [exec, execRead, whenIdle_of_idle hst, hs]
  · simp only [exec, execProbe, whenIdle_of_idle hst, hs]

theorem State.descWord_of_none (hs : s.desc = none) : s.descWord = 0 := by rw [State.descWord, hs]

theorem exec_release (hst : s.seq.st = .idle) :
    exec .release s = .next { s with desc := none, res := Result.success 0 } := by
  rw [exec, execRelease, whenIdle_of_idle hst, State.succeed_of_idle (s := { s with desc := none }) hst]

end

/-- Settles O16: RELEASE leaves the block uninitialized, and any later commands but CONFIGURE keep it so. -/
theorem releaseClearsDescriptor : Obligations.ReleaseClearsDescriptor := by
  refine ⟨rfl, fun s hst => ⟨_, exec_release hst, rfl, rfl, fun later hlater => ?_⟩⟩
  obtain ⟨u, hall, hust, hu⟩ := execAll_keeps_uninitialized (s := { s with desc := none, res := Result.success 0 })
    later hlater hst rfl
  exact ⟨u, hall, State.descWord_of_none hu,
    fun ns e ra c => exec_of_uninitialized hust hu (.inl ⟨ns, e, ra, c, rfl⟩),
    fun e ra c => exec_of_uninitialized hust hu (.inr (.inl ⟨e, ra, c, rfl⟩)),
    exec_of_uninitialized hust hu (.inr (.inr rfl))⟩

end Sys2Proof.Machine
end

section
/-! SUPPORT. A WRITE of length 0 (R172): its plan is one empty chunk, so it ends by the one code of that chunk's TxEnd, as
R170 or R174 say. -/

namespace Sys2Proof.Machine

theorem writePlan_zero (cap m : Nat) : writePlan 0 cap m = [0] := if_pos rfl

/-- A transaction without a payload: the address phase alone (R100). -/
theorem txEvents_of_no_payload (d : Descriptor) (ra : RegAddr) (stop : Bool) (code : Nat) :
    txEvents d ra [] stop code = .txBegin d.busaddr :: ((addrPhase d ra).map .txWrite ++ [.txEnd stop code]) := by
  rw [txEvents, List.append_nil]

/-- The one empty chunk of a WRITE of length 0 is at the command's register address and has no payload (R128, R172). -/
theorem writeEvents_of_empty_chunk (s : State) (d : Descriptor) (ra : RegAddr) (m : Nat) (stop : Bool) (code : Nat) :
    writeEvents s d ra m stop 0 [0] [code] = txEvents d ra [] stop code := by
  have hpayload : elementBytes s d.datalsb m (0 / m) (0 / m) = [] := by
    rw [Nat.zero_div]
    rfl
  rw [writeEvents, chunkAddr_zero, hpayload]
  exact List.append_nil _

section
variable {s : State} {d : Descriptor} {ns : Bool} {e : BitVec 4} {ra : RegAddr} {c : BitVec 16} {m code : Nat}
  {cs : List Nat}

/-- A WRITE of length 0 sends its one transaction and ends by its code: success at 0 (R170), the failure counted at any
other (R174). -/
theorem exec_write_of_length_zero (hst : s.seq.st = .idle) (hs : s.desc = some d) (he : effSize e = some m)
    (hl : m * c.toNat = 0) (hcodes : s.port.codes = code :: cs) :
    ∃ t, exec (.write ns e ra c) s = .next t ∧ t.trace = s.trace ++ txEvents d ra [] (!ns) code ∧
      t.res = (if code = 0 then { ok := true, cause := .none, value := 0 }
        else { ok := false, cause := .transactionError, value := 0 }) ∧
      t.errcnt = (if code = 0 then s.errcnt else (s.errcnt + 1) % 2 ^ s.cfg.errcntW) ∧
      t.seq.st = .idle ∧ t.port = { s.port with codes := cs } ∧ t.buf = s.buf ∧ t.desc = s.desc := by
  have hfits : m * c.toNat ≤ s.cfg.bufBytes := hl ▸ Nat.zero_le _
  have hplan : writePlan (m * c.toNat) s.cfg.maxChunk m = [0] := by rw [hl, writePlan_zero]
  by_cases hcode : code = 0
  · subst hcode
    obtain ⟨t, hexec, htrace, hres, hidle, -, -, herrcnt, hport, -, -, hdesc, hbuf, -⟩ :=
      writeSucceeds s d ns e ra c m cs hst hs he hfits (by rw [hplan]; exact hcodes)
    rw [hplan] at htrace
    exact ⟨t, hexec, htrace.trans (congrArg _ (writeEvents_of_empty_chunk _ d ra m (!ns) 0)), hres, herrcnt, hidle,
      hport, hbuf, hdesc⟩
  · obtain ⟨t, hexec, htrace, hres, hidle, -, -, herrcnt, hport, -, -, hdesc, hbuf, -⟩ :=
      writeStopsAtFirstFailure s d ns e ra c m 0 code cs hst hs he hfits (by rw [hplan]; exact Nat.one_pos) hcode hcodes
    rw [hplan] at htrace
    rw [if_neg hcode, if_neg hcode]
    exact ⟨t, hexec, htrace.trans (congrArg _ (writeEvents_of_empty_chunk _ d ra m (!ns) code)), hres, herrcnt, hidle,
      hport, hbuf, hdesc⟩

end

/-- Settles O38: the WRITE sends one transaction without a payload, whose address phase is empty without a register
address. -/
theorem zeroLengthWrite : Obligations.ZeroLengthWrite := by
  intro s d ns e ra c m code cs hst hs he hl hcodes
  obtain ⟨t, hexec, htrace, hend⟩ := exec_write_of_length_zero (ns := ns) (ra := ra) hst hs he hl hcodes
  rw [txEvents_of_no_payload] at htrace
  refine ⟨t, hexec, htrace, fun hr => ?_, hend⟩
  rw [htrace, addrPhase_of_none hr]
  rfl

end Sys2Proof.Machine
end

section
/-! SUPPORT. A READ whose request is answered short (R194, R198, R243): it has come to a chunk of its plan, and ends there
with nothing of that chunk drained or stored. -/

namespace Sys2Proof.Machine

section
variable {s v : State} {d : Descriptor} {ra : RegAddr} {m k a : Nat} {plan as rest : List Nat} {bs : List Byte}

/-- The state in which a READ ends whose request for the next chunk is answered with `a`, too few (R194). -/
def endedShort (v : State) (a : Nat) (rest : List Nat) : State :=
  ((planRx v).tookAvail a rest).countError.fail .shortTransfer

@[simp] theorem endedShort_cfg (v : State) (a : Nat) (rest : List Nat) : (endedShort v a rest).cfg = v.cfg := rfl

@[simp] theorem endedShort_buf (v : State) (a : Nat) (rest : List Nat) : (endedShort v a rest).buf = v.buf := rfl

@[simp] theorem endedShort_port (v : State) (a : Nat) (rest : List Nat) :
    (endedShort v a rest).port = { v.port with avails := rest } := rfl

@[simp] theorem endedShort_errcnt (v : State) (a : Nat) (rest : List Nat) :
    (endedShort v a rest).errcnt = (v.errcnt + 1) % 2 ^ v.cfg.errcntW := rfl

/-- The request is the one event of the chunk: no RxRead follows it (R194). -/
@[simp] theorem endedShort_trace (v : State) (a : Nat) (rest : List Nat) :
    (endedShort v a rest).trace =
      v.trace ++ [.rxRequest v.descr.busaddr (wireLen v.seq.w v.nextChunk) a] := rfl

/-- The READ loop at a chunk whose request is answered short fails there (R194, R243). -/
theorem readLoop_of_short (fuel : Nat) (hlt : v.seq.sent < v.seq.l) (ha : v.port.avails = a :: rest)
    (hshort : a < wireLen v.seq.w v.nextChunk) : readLoop (fuel + 1) v = endedShort v a rest := by
  have hreq : stepRxReq (planRx v) = endedShort v a rest := stepRxReq_of_short (s := planRx v) ha hshort
  rw [readLoop_succ, if_neg (Nat.not_le.mpr hlt), hreq]
  exact if_neg nofun

theorem ReadAt.endedShort_trace (h : ReadAt s d ra m plan k as bs v) (hk : k < plan.length) (a : Nat)
    (rest : List Nat) :
    (endedShort v a rest).trace = s.trace ++ (addressSetEvents d ra 0 ++
      (readEvents d (wireWidth m d.wide) (plan.take k) as bs ++
        [.rxRequest d.busaddr (wireLen (wireWidth m d.wide) plan[k]) a])) := by
  rw [Sys2Proof.Machine.endedShort_trace, h.trace, h.descr, h.w, h.nextChunk hk, List.append_assoc, List.append_assoc]

end

/-- Settles O43: the READ comes to chunk `k` with the elements before it stored, and its request fails there. -/
theorem readStopsAtShortAnswer : Obligations.ReadStopsAtShortAnswer := by
  intro s d e ra c m k a cs as rest bs more hst hs he hfits w plan done hcodes hk hshort ha hgrant hb hlen
  obtain ⟨v, fuel, hexec, hv, hport⟩ := exec_read_comes_to ra hst hs he hfits rfl hk hcodes ha hgrant hb hlen
  have hreq : wireLen v.seq.w v.nextChunk = wireLen w plan[k] := by rw [hv.w, hv.nextChunk hk]
  rw [readLoop_of_short fuel hv.unfinished (a := a) (rest := rest) (by rw [hport]) (by rwa [hreq])] at hexec
  obtain ⟨-, hdesc, hcfg, hhost, hdraws⟩ := readFrame _ _ _ _ _ hexec
  refine ⟨_, hexec, fun i hi => hv.bufElem rfl hlen hi, fun x hx => ?_, hv.endedShort_trace hk a rest, rfl, rfl,
    hv.sent, ?_, ?_, hdraws, hcfg, hdesc, hhost⟩
  · rw [endedShort_buf, hv.bufGet_above hx]
  · rw [endedShort_errcnt, hv.errcnt, ← endedShort_cfg v a rest, hcfg]
  · rw [endedShort_port, hport]

end Sys2Proof.Machine
end

section
/-! SUPPORT. A READ of length 0 (R197): its data phase ends where it begins, so on the wire it is the address-set phase
alone, the WRITE of length 0 with the descriptor's stop policy (R172). -/

namespace Sys2Proof.Machine

section
variable {s : State} {d : Descriptor} {e : BitVec 4} {ra : RegAddr} {c : BitVec 16} {m : Nat} {cs : List Nat}

theorem addressSetEvents_of_none (hr : d.regw = .none) (code : Nat) : addressSetEvents d ra code = [] := if_pos hr

/-- The address-set phase is a write transaction without a payload (R192). -/
theorem addressSetEvents_of_addressed (hr : d.regw ≠ .none) (code : Nat) :
    addressSetEvents d ra code = txEvents d ra [] (decide (d.nostop = .stop)) code := by
  rw [addressSetEvents, if_neg hr, StopPolicy.not_bit]

/-- The NS operand that gives a WRITE the stop policy of NOSTOP (R140, R197). -/
theorem StopPolicy.not_noStop (p : StopPolicy) : (!decide (p = .noStop)) = decide (p = .stop) := by
  cases p <;> rfl

/-- A READ of length 0 whose address-set phase, if it has one, is closed with code 0 succeeds where its data phase begins
(R197). -/
theorem exec_read_of_length_zero (ra : RegAddr) (hst : s.seq.st = .idle) (hs : s.desc = some d)
    (he : effSize e = some m) (hl : m * c.toNat = 0) (hcodes : s.port.codes = if d.regw = .none then cs else 0 :: cs) :
    ∃ u, exec (.read e ra c) s = .next (u.succeed 0) ∧ DataPhase s ra m 0 cs u := by
  have hz : transferSize s.cfg e c = some (m, 0) := hl ▸ transferSize_of_fits he (hl ▸ Nat.zero_le _)
  obtain ⟨u, hrun, hu⟩ := runRead_enters_data ra (hs ▸ Option.some_ne_none d) hz
    (by rw [hcodes, State.descr_of_desc hs])
  have hdone : u.seq.l ≤ u.seq.sent := by rw [hu.l, hu.sent]
  exact ⟨u, by rw [exec_read_of_legal hst hs hz, hrun, readLoop_of_done 0 hdone], hu⟩

end

/-- Settles O46: only the address-set phase is emitted, and SETPTR's WRITE of length 0 emits the same transaction. -/
theorem zeroLengthRead : Obligations.ZeroLengthRead := by
  intro s d e ra c m cs hst hs he hl hcodes
  obtain ⟨u, hexec, hu⟩ := exec_read_of_length_zero ra hst hs he hl hcodes
  have htrace : (u.succeed 0).trace = s.trace ++ addressSetEvents d ra 0 := by
    rw [State.succeed_trace, hu.trace, State.descr_of_desc hs]
  refine ⟨_, hexec, rfl, rfl, hu.buf, hu.port, hu.errcnt, fun hr => ?_, fun hr => ?_⟩
  · rw [htrace, addressSetEvents_of_none hr, List.append_nil]
  · rw [if_neg hr] at hcodes
    rw [addressSetEvents_of_addressed hr] at htrace
    obtain ⟨t, hwrite, hsent, -⟩ := exec_write_of_length_zero (ns := decide (d.nostop = .noStop)) (e := 0) (ra := ra)
      (c := 0) (m := 0) hst hs rfl rfl hcodes
    rw [StopPolicy.not_noStop] at hsent
    exact ⟨t, hwrite, htrace.trans hsent.symm, htrace.trans (congrArg _ (txEvents_of_no_payload d ra _ 0))⟩

end Sys2Proof.Machine
end

section
/-! SUPPORT. EXISTS, ERRCOUNT and CLRERR (R210 to R212, R244): an EXISTS whose TxEnd is answered, at once or after a wait,
and the counter as it is read and cleared. -/

namespace Sys2Proof

/-- ERRCNT is at most 32 bits wide (D13, R7). -/
theorem Params.errcntW_le (p : Params) : p.errcntW ≤ 32 := p.errWidthLess1.isLt

end Sys2Proof

namespace Sys2Proof.Machine

section
variable {s : State}

/-! ### The counter -/

/-- The zero extension loses nothing of a counter under its width (R32, R211). -/
theorem errcntValue_toNat {p : Params} {n : Nat} (h : n < 2 ^ p.errcntW) : (errcntValue n).toNat = n := by
  have hword : n < 2 ^ 32 := Nat.lt_of_lt_of_le h (Nat.pow_le_pow_right (by decide) p.errcntW_le)
  exact (BitVec.toNat_ofNat n 32).trans (Nat.mod_eq_of_lt hword)

theorem exec_errcount (hst : s.seq.st = .idle) :
    exec .errcount s = .next { s with res := Result.success (errcntValue s.errcnt) } := by
  rw [exec, execErrcount, whenIdle_of_idle hst, State.succeed_of_idle hst]

theorem exec_clrerr (hst : s.seq.st = .idle) :
    exec .clrerr s = .next { s with errcnt := 0, res := Result.success 0 } := by
  rw [exec, execClrerr, whenIdle_of_idle hst, State.succeed_of_idle (s := { s with errcnt := 0 }) hst]

/-- Of the commands CLRERR alone lowers ERRCNT, but for the wrap (R141, R212). -/
theorem exec_errcnt_eq_or_next {i : Instr} {t : State} (h : exec i s = .next t) (hi : i ≠ .clrerr) :
    t.errcnt = s.errcnt ∨ t.errcnt = nextErrcnt s.cfg s.errcnt := by
  by_cases hprobe : i = .probe
  · subst hprobe
    exact .inl (execProbe_errcnt h)
  · cases exec_countsFailures h hi hprobe with
    | none _ _ herr => exact .inl herr
    | one _ _ herr => exact .inr herr

/-! ### The probe -/

/-- RES of an EXISTS whose TxEnd returned `c` (R210). -/
def probeResult (c : Nat) : Result := if c = 0 then Result.success 0 else Result.failure .transactionError

/-- `s` after an EXISTS of the device `d` whose TxEnd returned `c` (R210). -/
def existsAnswered (s : State) (d : Descriptor) (c : Nat) (cs : List Nat) : State :=
  { s with
    port := { s.port with codes := cs }
    trace := s.trace ++ [.txBegin d.busaddr, .txEnd true c]
    res := probeResult c
    probe := false }

variable {d : Descriptor} {c : Nat} {cs : List Nat}

/-- A closing EXISTS ends by its code, and counts nothing (R210, R246). -/
theorem stepTxClose_of_probe (hp : s.probe = true) (hc : s.port.codes = c :: cs) :
    stepTxClose s = (s.tookCode c cs).probeOver.finish (probeResult c) := by
  by_cases hz : c = 0
  · simp only [stepTxClose, hc, if_pos hp, if_pos hz, probeResult, State.succeed]
  · simp only [stepTxClose, hc, if_pos hp, if_neg hz, probeResult, State.fail]

/-- The transaction an EXISTS opens, once its TxEnd is answered, leaves the block idle again (R210). -/
theorem stepTxClose_openProbe (hst : s.seq.st = .idle) (hs : s.desc = some d) (hc : s.port.codes = c :: cs) :
    stepTxClose (openProbe s) = existsAnswered s d c cs := by
  rw [stepTxClose_of_probe (s := openProbe s) rfl hc]
  apply State.ext
  case trace =>
    calc s.trace ++ [.txBegin s.descr.busaddr] ++ [.txEnd true c]
      _ = s.trace ++ [.txBegin d.busaddr] ++ [.txEnd true c] := by rw [State.descr_of_desc hs]
      _ = s.trace ++ [.txBegin d.busaddr, .txEnd true c] := List.append_assoc _ _ _
  case seq => exact Latches.ext hst.symm rfl rfl rfl rfl rfl rfl rfl rfl rfl rfl rfl
  all_goals rfl

theorem exec_probe (hst : s.seq.st = .idle) (hs : s.desc = some d) :
    exec .probe s = .next (stepTxClose (openProbe s)) := by
  simp only [exec, execProbe, whenIdle_of_idle hst, hs]

end

/-- Settles O23: CLRERR and ERRCOUNT end at once, and any other command counts one failed transaction or none. -/
theorem clrerrClearsCounter : Obligations.ClrerrClearsCounter :=
  ⟨rfl, fun s hst => ⟨_, exec_clrerr hst, rfl,
      exec_errcount (s := { s with errcnt := 0, res := Result.success 0 }) hst⟩,
    fun _ _ _ h hi => exec_errcnt_eq_or_next h hi⟩

/-- Settles O20: the transaction is opened and closed within the step; an uninitialized block does not open it. -/
theorem existsReportsAnswer : Obligations.ExistsReportsAnswer := by
  refine ⟨rfl, fun s d c cs hst hs hc => ⟨false, ?_⟩, fun s hst hs => ?_⟩
  · rw [exec_probe hst hs, stepTxClose_openProbe hst hs hc]
    rfl
  · exact exec_of_uninitialized hst hs (.inr (.inr rfl))

/-- Settles O21: the state that waits is the opened transaction; given an answer, it is the one that the EXISTS of a block
with that answer to come opens. -/
theorem existsWaitsForAnswer : Obligations.ExistsWaitsForAnswer := by
  intro s d hst hs hc
  have hwaits : stepTxClose (openProbe s) = openProbe s := stepTxClose_of_no_answer (s := openProbe s) hc
  refine ⟨openProbe s, by rw [exec_probe hst hs, hwaits], List.isEmpty_iff.mpr hc, rfl, ?_, fun c cs => ?_⟩
  · rw [openProbe_trace, State.descr_of_desc hs]
  · exact (seqStep_txClose rfl).trans
      (stepTxClose_openProbe (s := { s with port := { s.port with codes := c :: cs } }) hst hs rfl)

/-- Settles O22: ERRCOUNT ends at once with the zero-extended counter. -/
theorem errcountReadsCounter : Obligations.ErrcountReadsCounter :=
  ⟨rfl, fun s hst => ⟨errcntValue s.errcnt, exec_errcount hst, errcntValue_toNat⟩⟩

end Sys2Proof.Machine
end

section
/-! SUPPORT. The pseudo-instructions (R220 to R235) and the source's call surface (R236): the values an accessor takes
and yields, the host's stores, and ESIZE and COUNT of a call. -/

namespace Sys2Proof.Machine

/-! ### Write accessors -/

/-- The least value a write accessor takes (R226 to R231). -/
def WriteAccessor.lowest (a : WriteAccessor) : Int := if a.isSigned then -(2 ^ (8 * a.size - 1)) else 0

/-- The greatest value a write accessor takes (R226 to R231). -/
def WriteAccessor.highest (a : WriteAccessor) : Int :=
  if a.isSigned then 2 ^ (8 * a.size - 1) - 1 else 2 ^ (8 * a.size) - 1

theorem WriteAccessor.inRange_iff (a : WriteAccessor) (v : Int) :
    a.inRange v = true ↔ a.lowest ≤ v ∧ v ≤ a.highest := by
  rw [inRange, lowest, highest]
  cases a.isSigned with
  | false => simp
  | true => simp

theorem storeMoves_eq_map_zipIdx (a : Nat) (bs : List Byte) :
    storeMoves a bs = (bs.zipIdx a).map fun p => .store p.2 p.1 := by
  induction bs generalizing a with
  | nil => rfl
  | cons b bs ih => rw [storeMoves, ih, List.zipIdx_cons, List.map_cons]

/-- The bytes a number is stored as spell it modulo their number of bits, a negative one as its two's complement. -/
theorem ofBytesLE_bytesLE_emod (m : Nat) (v : Int) :
    (ofBytesLE (bytesLE m (v % 2 ^ (8 * m)).toNat) : Int) = v % 2 ^ (8 * m) := by
  have hpow : (256 : Nat) ^ m = 2 ^ (8 * m) := (pow_mul 2 8 m).symm
  have hpos : (0 : Int) < 2 ^ (8 * m) := by positivity
  have hval := Int.toNat_of_nonneg (Int.emod_nonneg v hpos.ne')
  rw [ofBytesLE_bytesLE, hpow, Int.natCast_mod, hval, Nat.cast_pow, Nat.cast_ofNat, Int.emod_emod]

/-- What a write accessor stores and hands over, by its size and range (R226 to R231). -/
theorem expand_wr (a : WriteAccessor) (ra : RegAddr) (v : Int) :
    (a.lowest ≤ v ∧ v ≤ a.highest →
      ∃ bs : List Byte, bs.length = a.size ∧ (ofBytesLE bs : Int) = v % 2 ^ (8 * a.size) ∧
        (Pseudo.wr a ra v).expand =
          some ((bs.zipIdx.map fun p => .store p.2 p.1) ++
            [commandMove (.write false (BitVec.ofNat 4 a.size) ra 1)])) ∧
    (¬ (a.lowest ≤ v ∧ v ≤ a.highest) → (Pseudo.wr a ra v).expand = none) := by
  refine ⟨fun hv => ⟨_, bytesLE_length _ _, ofBytesLE_bytesLE_emod a.size v, ?_⟩, fun hv => ?_⟩
  · rw [Pseudo.expand, if_pos ((a.inRange_iff v).mpr hv), storeMoves_eq_map_zipIdx]
  · rw [Pseudo.expand, if_neg (mt (a.inRange_iff v).mp hv)]

/-- Settles O57: the rows are the accessors' sizes and ranges. -/
theorem writeAccessorExpands : Obligations.WriteAccessorExpands := by
  unfold Obligations.WriteAccessorExpands
  iterate 6 rw [List.forall_mem_cons]
  exact ⟨expand_wr .wrU8, expand_wr .wrS8, expand_wr .wrU16, expand_wr .wrS16, expand_wr .wrU32, expand_wr .wrS32,
    List.forall_mem_nil _⟩

/-! ### Read accessors -/

theorem ReadAccessor.size_pos (a : ReadAccessor) : 0 < a.size := by cases a <;> decide

theorem ReadAccessor.size_le_four (a : ReadAccessor) : a.size ≤ 4 := by cases a <;> decide

section
variable (a : ReadAccessor) (s : State)

/-- Element 0 fits the bits of its size. -/
theorem ReadAccessor.element_toNat :
    (BitVec.ofNat (8 * a.size) (s.bufElem 0 a.size)).toNat = s.bufElem 0 a.size := by
  have hlt := bufElem_lt s 0 a.size
  rw [show (256 : Nat) ^ a.size = 2 ^ (8 * a.size) from (pow_mul 2 8 a.size).symm] at hlt
  rw [BitVec.toNat_ofNat, Nat.mod_eq_of_lt hlt]

theorem ReadAccessor.value_toNat (h : a.isSigned = false) : (a.value s).toNat = s.bufElem 0 a.size := by
  have hsize := a.size_le_four
  simp only [value, h, Bool.false_eq_true, if_false]
  rw [BitVec.toNat_setWidth_of_le (by omega), element_toNat]

theorem ReadAccessor.value_toInt (h : a.isSigned = true) :
    (a.value s).toInt = if s.bufElem 0 a.size < 2 ^ (8 * a.size - 1) then (s.bufElem 0 a.size : Int)
      else (s.bufElem 0 a.size : Int) - 2 ^ (8 * a.size) := by
  have hpos := a.size_pos
  have hsize := a.size_le_four
  have hhalf : 2 ^ (8 * a.size) = 2 * 2 ^ (8 * a.size - 1) := (mul_pow_sub_one (by omega) 2).symm
  have hsign : 2 * s.bufElem 0 a.size < 2 ^ (8 * a.size) ↔ s.bufElem 0 a.size < 2 ^ (8 * a.size - 1) := by omega
  simp only [value, h, if_true]
  rw [BitVec.toInt_signExtend_of_le (by omega), BitVec.toInt_eq_toNat_cond, element_toNat]
  simp only [hsign, Nat.cast_pow, Nat.cast_ofNat]

end

/-- What a read accessor hands over and yields, by its size and sign (R220 to R225). -/
theorem ReadAccessor.expand_and_value (a : ReadAccessor) (ra : RegAddr) (s : State) :
    (Pseudo.rd a ra).expand = some [commandMove (.read (BitVec.ofNat 4 a.size) ra 1)] ∧
    (a.isSigned = false → (a.value s).toNat = s.bufElem 0 a.size) ∧
    (a.isSigned = true → (a.value s).toInt = if s.bufElem 0 a.size < 2 ^ (8 * a.size - 1)
      then (s.bufElem 0 a.size : Int) else (s.bufElem 0 a.size : Int) - 2 ^ (8 * a.size)) :=
  ⟨rfl, a.value_toNat s, a.value_toInt s⟩

/-- Settles O58: the rows are the accessors' sizes and signs. -/
theorem readAccessorValue : Obligations.ReadAccessorValue := by
  unfold Obligations.ReadAccessorValue
  iterate 6 rw [List.forall_mem_cons]
  exact ⟨ReadAccessor.expand_and_value .rdU8, ReadAccessor.expand_and_value .rdS8,
    ReadAccessor.expand_and_value .rdU16, ReadAccessor.expand_and_value .rdS16,
    ReadAccessor.expand_and_value .rdU32, ReadAccessor.expand_and_value .rdS32, List.forall_mem_nil _⟩

/-! ### The source's call surface -/

theorem typeSizeOk_iff (n : Nat) : typeSizeOk n = true ↔ n = 1 ∨ n = 2 ∨ n = 4 ∨ n = 8 := by
  simp [typeSizeOk, or_assoc]

/-- A buffer of `natural` bytes is a whole number of elements of `size` bytes, as many as a COUNT holds (R236,
assumption 16). -/
def TypedRow (natural size : Nat) : Prop :=
  (size = 1 ∨ size = 2 ∨ size = 3 ∨ size = 4 ∨ size = 8) ∧ size ∣ natural ∧ natural / size < 65536

theorem sourceSizes_raw (n : BitVec 16) : sourceSizes 1 (some n.toNat) = some (1, n) := by
  simp [sourceSizes, n.isLt]

theorem sourceSizes_raw_too_long {n : Nat} (h : 65536 ≤ n) : sourceSizes 1 (some n) = none := by
  simp [sourceSizes, h]

section
variable {natural size : Nat}

/-- The test of the typed row. -/
theorem typed_test_iff (hn : 1 < natural) :
    ((typeSizeOk size || size == 3) && natural % size == 0 && decide (1 < natural) && decide (natural / size < 65536))
      = true ↔ TypedRow natural size := by
  simp only [TypedRow, Bool.and_eq_true, Bool.or_eq_true, typeSizeOk_iff, beq_iff_eq, decide_eq_true_eq,
    Nat.dvd_iff_mod_eq_zero]
  omega

theorem sourceSizes_typed (hn : 1 < natural) (h : TypedRow natural size) :
    sourceSizes natural (some size) = some (BitVec.ofNat 4 size, BitVec.ofNat 16 (natural / size)) := by
  rw [sourceSizes, if_neg hn.ne', if_pos ((typed_test_iff hn).mpr h)]

theorem sourceSizes_not_typed (hn : 1 < natural) (h : ¬ TypedRow natural size) :
    sourceSizes natural (some size) = none := by
  rw [sourceSizes, if_neg hn.ne', if_neg (mt (typed_test_iff hn).mp h)]

/-- ESIZE and COUNT of the typed row are the size itself and the number of elements that fill the buffer. -/
theorem TypedRow.operands (h : TypedRow natural size) :
    (BitVec.ofNat 4 size).toNat = size ∧ size * (BitVec.ofNat 16 (natural / size)).toNat = natural := by
  obtain ⟨hsize, hdvd, hcount⟩ := h
  rw [BitVec.toNat_ofNat, BitVec.toNat_ofNat, Nat.mod_eq_of_lt hcount, Nat.mul_div_cancel' hdvd]
  exact ⟨Nat.mod_eq_of_lt (by omega), rfl⟩

theorem sourceSizes_implicit (h : typeSizeOk natural = true) :
    sourceSizes natural none = some (BitVec.ofNat 4 natural, 1) := if_pos h

theorem sourceSizes_implicit_none (h : ¬ typeSizeOk natural = true) : sourceSizes natural none = none := if_neg h

end

section
variable {natural : Nat} {size : Option Nat} {e : BitVec 4} {c : BitVec 16}

theorem sourceCall_of_sizes (h : sourceSizes natural size = some (e, c)) (ra : RegAddr) (useStop : Bool) :
    sourceWrite ra natural size useStop = some (.write (!useStop) e ra c) ∧
      sourceRead ra natural size = some (.read e ra c) := by
  rw [sourceWrite, sourceRead, h]
  exact ⟨rfl, rfl⟩

theorem sourceCall_of_no_sizes (h : sourceSizes natural size = none) (ra : RegAddr) (useStop : Bool) :
    sourceWrite ra natural size useStop = none ∧ sourceRead ra natural size = none := by
  rw [sourceWrite, sourceRead, h]
  exact ⟨rfl, rfl⟩

end

section
variable {size : Nat} (ra : RegAddr) (k : BitVec 16) (ns : Bool)

theorem expand_value_of_ok (h : typeSizeOk size = true) :
    (Pseudo.writeValue ra size k ns).expand = some [commandMove (.write ns (BitVec.ofNat 4 size) ra k)] ∧
      (Pseudo.readValue ra size).expand = some [commandMove (.read (BitVec.ofNat 4 size) ra 1)] :=
  ⟨if_pos h, if_pos h⟩

theorem expand_value_of_not_ok (h : ¬ typeSizeOk size = true) :
    (Pseudo.writeValue ra size k ns).expand = none ∧ (Pseudo.readValue ra size).expand = none :=
  ⟨if_neg h, if_neg h⟩

end

/-- An operand value that is a type's size. -/
theorem typeSizeOk_toNat {e : BitVec 4} (h : e = 1 ∨ e = 2 ∨ e = 4 ∨ e = 8) : typeSizeOk e.toNat = true := by
  rcases h with rfl | rfl | rfl | rfl <;> rfl

/-- Settles O59: each row of the table gives its sizes, and with them both commands. -/
theorem sourceCallBecomesTriple : Obligations.SourceCallBecomesTriple := by
  refine ⟨fun ra natural size useStop hn => ⟨fun h => ?typed, fun h => ?notTyped⟩, fun ra n useStop => ?raw,
    fun ra size useStop h => ?rawTooLong, fun ra e k useStop h => ?implicit, fun ra size k useStop h => ?noType⟩
  case typed =>
    obtain ⟨hsize, htotal⟩ := TypedRow.operands h
    exact ⟨_, _, hsize, htotal, sourceCall_of_sizes (sourceSizes_typed hn h) ra useStop⟩
  case notTyped => exact sourceCall_of_no_sizes (sourceSizes_not_typed hn h) ra useStop
  case raw =>
    obtain ⟨hwrite, hread⟩ := sourceCall_of_sizes (sourceSizes_raw n) ra useStop
    exact ⟨hwrite, hread, rfl, rfl, rfl⟩
  case rawTooLong => exact sourceCall_of_no_sizes (sourceSizes_raw_too_long h) ra useStop
  case implicit =>
    have hok := typeSizeOk_toNat h
    obtain ⟨hwrite, hread⟩ := sourceCall_of_sizes (sourceSizes_implicit hok) ra useStop
    obtain ⟨hwriteValue, hreadValue⟩ := expand_value_of_ok ra k (!useStop) hok
    rw [BitVec.ofNat_toNat, BitVec.setWidth_eq] at hwrite hread hwriteValue hreadValue
    exact ⟨hwrite, hread, hwriteValue, hreadValue⟩
  case noType =>
    have hno : ¬ typeSizeOk size = true := by rw [typeSizeOk_iff]; omega
    obtain ⟨hwrite, hread⟩ := sourceCall_of_no_sizes (sourceSizes_implicit_none hno) ra useStop
    exact ⟨hwrite, hread, expand_value_of_not_ok ra k (!useStop) hno⟩

end Sys2Proof.Machine
end

section
/-! SUPPORT. The state in which the engine waits for the port (R244), and the cause only an uninitialized block gives
(R241). -/

namespace Sys2Proof.Machine

section
variable {s t : State}

/-! ### Waiting -/

theorem seqStep_rxDrain (h : s.seq.st = .rxDrain) : seqStep s = stepRxDrain s := by rw [seqStep, h]

/-- The engine waits exactly where a TxEnd, an RxRequest or an RxRead has no answer to come (R97 to R99, R244). -/
theorem State.waiting_iff :
    s.waiting = true ↔
      (s.seq.st = .txClose ∧ s.port.codes = []) ∨ (s.seq.st = .rxReq ∧ s.port.avails = []) ∨
        (s.seq.st = .rxDrain ∧ s.port.bytes = []) := by
  cases hst : s.seq.st <;> simp [State.waiting, hst]

/-- A call of the port that does not return leaves the sequencer where it is (R244). -/
theorem seqStep_of_waiting (hw : s.waiting = true) : seqStep s = s := by
  obtain ⟨hst, hcodes⟩ | ⟨hst, havails⟩ | ⟨hst, hbytes⟩ := State.waiting_iff.mp hw
  · rw [seqStep_txClose hst, stepTxClose_of_no_answer hcodes]
  · rw [seqStep_rxReq hst, stepRxReq_of_no_answer havails]
  · rw [seqStep_rxDrain hst, stepRxDrain_of_no_answer hbytes]

/-! ### The cause of a command that does not go to the port -/

theorem exec_configure_cause {f : Word32} (h : exec (.configure f) s = .next t) :
    t.res.cause = .none ∨ t.res.cause = .badCommand := by
  obtain ⟨hst, -⟩ := exec_cases h
  cases hf : Descriptor.ofFlags f with
  | none =>
    obtain rfl := Host.Outcome.next.inj ((exec_configure_of_illegal hst hf).symm.trans h)
    exact .inr rfl
  | some d =>
    obtain rfl := Host.Outcome.next.inj ((exec_configure_of_legal hst hf).symm.trans h)
    exact .inl rfl

/-- A command that needs no descriptor ends with no cause or, being a CONFIGURE, with BAD_COMMAND, whether or not the
block is initialized (R160, R161, R211, R212, R241). -/
theorem exec_cause_of_no_descriptor_needed {i : Instr} (h : exec i s = .next t)
    (hi : i = .release ∨ i = .errcount ∨ i = .clrerr ∨ ∃ f, i = .configure f) :
    t.res.cause = .none ∨ t.res.cause = .badCommand := by
  obtain ⟨hst, -⟩ := exec_cases h
  obtain rfl | rfl | rfl | ⟨f, rfl⟩ := hi
  · obtain rfl := Host.Outcome.next.inj ((exec_release hst).symm.trans h)
    exact .inl rfl
  · obtain rfl := Host.Outcome.next.inj ((exec_errcount hst).symm.trans h)
    exact .inl rfl
  · obtain rfl := Host.Outcome.next.inj ((exec_clrerr hst).symm.trans h)
    exact .inl rfl
  · exact exec_configure_cause h

end

/-- Settles O13: a waiting engine is busy, so its step is one transition, and that transition leaves it where it is. -/
theorem waitingChangesNothing : Obligations.WaitingChangesNothing := by
  intro s hw hh
  rw [step_of_busy (State.waiting_st_ne_idle hw) hh, seqStep_of_waiting hw]

/-- Settles O33: the three commands that need a descriptor are refused before anything else, and the endings of the other
four have other causes. -/
theorem uninitializedFailsFast : Obligations.UninitializedFailsFast := by
  refine ⟨fun s hst hs => ⟨fun ns e ra c => ?write, fun e ra c => ?read, ?probe⟩, fun i s t h hi hcause => ?others⟩
  case write => exact exec_of_uninitialized hst hs (.inl ⟨ns, e, ra, c, rfl⟩)
  case read => exact exec_of_uninitialized hst hs (.inr (.inl ⟨e, ra, c, rfl⟩))
  case probe => exact exec_of_uninitialized hst hs (.inr (.inr rfl))
  case others =>
    obtain hnone | hbad := exec_cause_of_no_descriptor_needed h hi
    · cases hcause.symm.trans hnone
    · cases hcause.symm.trans hbad

end Sys2Proof.Machine
end

section
/-! SUPPORT. The idle block without a move of the host, and what the model chooses where a reset leaves the state
unspecified (R38, R270). -/

namespace Sys2Proof.Machine

theorem step_of_no_move {s : State} (hst : s.seq.st = .idle) (hh : s.host = []) :
    Sys2Proof.Machine.step s = .next s := by
  have hmove : hostMove s = .other (.next s) := by simp only [hostMove, hh]
  rw [Sys2Proof.Machine.step, fetch_of_idle hst, hmove]

theorem bufGet_nil (a : Nat) : bufGet [] a = none := rfl

theorem bufGet_hostReset (s : State) (a : Nat) : bufGet (hostReset s).buf a = none := by
  rw [hostReset_buf, bufGet_nil]

/-- Settles O8: the idle block has only the host's moves to act on, and there is none. -/
theorem idleWithoutMoveDoesNothing : Obligations.IdleWithoutMoveDoesNothing :=
  fun _ hst hh => step_of_no_move hst hh

/-- Settles O11: BUF is empty after both resets, and the reset input's effect on each field is a law of `hostReset`. -/
theorem resetForgetsBuffer : Obligations.ResetForgetsBuffer :=
  ⟨bufGet_nil, fun _ _ hst hh => ⟨_, step_of_reset hst hh, bufGet_hostReset _, hostReset_seq _, hostReset_cfg _,
    hostReset_trace _, hostReset_host _, hostReset_draws _⟩⟩

end Sys2Proof.Machine
end
